-- ==== Sys2Proof/Word.lean ====
section
/-! DEFINITION. The word and byte types of the block, and the constants of its fixed-point reading
(00_scope.md R8, R9). -/

namespace Sys2Proof

/-- A 32-bit pattern: an F register, a complex component, a memory word, an address (R5, R8). -/
abbrev Word := BitVec 32

/-- One byte of memory (20_memory.md R60). -/
abbrev Byte := BitVec 8

/-- The pattern of 1.0 (00_scope.md R9, `ONE_FX`). -/
abbrev oneFx : Word := 0x00010000#32

end Sys2Proof
end

