-- ==== Sys2Proof/Config.lean ====
section
/-! DEFINITION. The fixed parameters of 00_scope.md R5, and the FREE VALUES: opaque constants without a
body, for what 93_implementation_defined.md leaves to any value. The OPEN parameters (NUM_WORKERS,
MEM_ADMIT, MMIO_BASE) are data of State (`Platform`, log 2). -/

namespace Sys2Proof

/-- `MAX_FACTORS` (R5): the factor capacity of a Blaschke slot. -/
def Config.maxFactors : Nat := 6

/-- `DIM_MIN` (R5). -/
def Config.dimMin : Nat := 2

/-- `DIM_MAX` (R5). -/
def Config.dimMax : Nat := 32768

/-- What a byte of memory that nothing has written reads as. DESIGN CHOICE (log 1, unsafe): the spec
leaves memory at reset open (93_implementation_defined.md U6). -/
def Config.unwrittenByte : Byte := 0x00#8

/-- FREE VALUE: word number `k` of draw number `n` (U8: the destination of a RENDER whose overlap premise
fails; U9: what a host write that races with a run leaves, and what is computed from it). -/
opaque Config.freeWord (n k : Nat) : Word

/-- FREE VALUE: which live worker moves at draw number `n` (U13: any interleaving of the workers). -/
opaque Config.nextWorker (n : Nat) : Nat

/-- FREE VALUE: after a bus error in a RENDER, whether the worker that is about to move stops at this pixel
boundary instead, in draw number `n` (45_render.md R248, U10). -/
opaque Config.workerStops (n : Nat) : Bool

/-- FREE VALUE: which of the values that a word held during the run a host read gets at draw number `n`
(U9). -/
opaque Config.heldValue (n : Nat) : Nat

/-- FREE VALUE: whether OV, set by some pixel computed before the bus error, is left set in draw number `n`
(U11). -/
opaque Config.ovSeen (n : Nat) : Bool

/-- FREE VALUE: whether DZ, set by some pixel computed before the bus error, is left set in draw number `n`
(U11). -/
opaque Config.dzSeen (n : Nat) : Bool

end Sys2Proof
end

