-- ==== Sys2Proof/Syntax.lean ====
section
/-! DEFINITION. The commands of the block: one constructor of `Instr` for each row of
spec/opcode_table.json (30_encoding.md R97), with operands already of their class (R93). -/

namespace Sys2Proof

/-- Class `f`: F0 to F15 (30_encoding.md R93). -/
abbrev FReg := Fin 16
/-- Class `z`: Z0 to Z15 (R93). -/
abbrev ZReg := Fin 16
/-- Class `m`: M0 to M7 (R93). -/
abbrev MReg := Fin 8
/-- Class `b`: the Blaschke slots BL0 and BL1 (R93). -/
abbrev BReg := Fin 2

/-- The CSRs of the map of 10_state.md R27, by name. -/
inductive Csr where
  | ctrl | status | errpc | cmdPc | id
  | srcBase | srcW | srcH | aspectX | aspectY | policy
  | dstBase | dstW | dstH | u0 | v0 | du | dv
  deriving DecidableEq, Repr

/-- The commands, in the order of the opcode map (30_encoding.md R97). -/
inductive Instr where
  -- the sequencer and system commands (46_system.md)
  | nop
  | halt
  | csrr (fd : FReg) (csr : Csr)
  | csrw (csr : Csr) (fs : FReg)
  | ldW (fd fa : FReg)
  | pxOrw (fv fa : FReg)
  -- the fixed-point unit (40_fixed_point.md)
  | fxAdd (fd fa fb : FReg)
  | fxSub (fd fa fb : FReg)
  | fxMul (fd fa fb : FReg)
  | fxDiv (fd fa fb : FReg)
  | fxNeg (fd fa : FReg)
  | fxFrac (fd fa : FReg)
  | fxInt (fd fa : FReg)
  | fxCmp (fd fa fb : FReg)
  | fxNot (fd fa : FReg)
  | fxTou (fd fa : FReg)
  | fxFromi (fd fa : FReg)
  | fxLih (fd : FReg) (imm : BitVec 16)
  | fxLil (fd : FReg) (imm : BitVec 16)
  -- the complex unit (41_complex.md)
  | cxAdd (zd za zb : ZReg)
  | cxSub (zd za zb : ZReg)
  | cxMul (zd za zb : ZReg)
  | cxDiv (zd za zb : ZReg)
  | cxConj (zd za : ZReg)
  | cxGuard (zd za : ZReg)
  | cxPack (zd : ZReg) (fre fim : FReg)
  | cxRe (fd : FReg) (za : ZReg)
  | cxIm (fd : FReg) (za : ZReg)
  -- the Möbius transform evaluator (42_mobius.md)
  | mobSet (md : MReg) (za zb zc zd : ZReg)
  | mobId (md : MReg)
  | mobHyp (md : MReg) (zs : ZReg)
  | mobComp (md ma mb : MReg)
  | mobInv (md ma : MReg)
  | mobApply (zd : ZReg) (ma : MReg) (zs : ZReg)
  | mobGet (zd : ZReg) (ma : MReg) (k : Fin 4)
  | mobIsid (fd : FReg) (ma : MReg)
  -- the Blaschke product engine (43_blaschke.md)
  | blClr (b : BReg)
  | blAppend (b : BReg) (ma : MReg)
  | blMul (bd bs : BReg)
  | blRcomp (b : BReg) (ma : MReg)
  | blLcomp (b : BReg) (ma : MReg)
  | blEval (zd : ZReg) (b : BReg) (zs : ZReg)
  | blCount (fd : FReg) (b : BReg)
  | blGetf (md : MReg) (b : BReg) (k : Fin 6)
  | blFrame (md : MReg) (b : BReg)
  -- the pixel unit (44_sampler.md) and the renderer (45_render.md)
  | pxBlend (fd fa fx fy : FReg)
  | pxSample (fd : FReg) (zs : ZReg)
  | render (b : BReg)
  deriving DecidableEq, Repr

end Sys2Proof
end

