-- ==== Sys2Proof/WellFormed.lean ====
section
/-! DEFINITION. Which instructions of the syntax the encoding has. The operand classes of
30_encoding.md R93 are in the types of the operands; what is left is the CSR of a CSRW (R95). -/

namespace Sys2Proof

/-- A command may write this CSR: one of 0x010 to 0x015 or 0x020 to 0x026 (30_encoding.md R95). -/
def Csr.writable : Csr → Bool
  | .ctrl | .status | .errpc | .cmdPc | .id => false
  | .srcBase | .srcW | .srcH | .aspectX | .aspectY | .policy => true
  | .dstBase | .dstW | .dstH | .u0 | .v0 | .du | .dv => true

/-- The instruction has an encoding: a CSRW names a CSR that commands may write (R95). -/
def Instr.wellFormed : Instr → Bool
  | .csrw csr _ => csr.writable
  | _ => true

end Sys2Proof
end

