-- ==== Sys2Proof/Decode.lean ====
section
/-! DEFINITION. The decoder of command words (30_encoding.md R90 to R99), total on every word and on
every list of bytes, and after it the encoder. -/

namespace Sys2Proof

/-- Why a word is no command (30_encoding.md R98), in the order of the checks. -/
inductive DecodeError where
  /-- The opcode is unallocated (R98 check 1, R99). Safe: the spec names this fault. -/
  | illegalOpcode
  /-- A must-be-zero bit is set or a field is outside its class (R98 checks 2 and 3). Safe. -/
  | illegalOperand
  /-- The CSR number fails R95 (R98 check 4). Safe. -/
  | illegalCsr
  /-- Fewer than four bytes were given; no fetch of the machine does so (R90). Safe. -/
  | truncated
  deriving DecidableEq, Repr

/-- The word of four bytes, the first at the lowest address: little-endian (20_memory.md R62). -/
def wordOfBytes (b0 b1 b2 b3 : Byte) : Word := b3 ++ b2 ++ b1 ++ b0

/-- Byte `k` of a word, byte 0 being bits 7:0 (20_memory.md R62). -/
def byteOfWord (w : Word) (k : Nat) : Byte := w.extractLsb' (8 * k) 8

/-! The fields of a command word (30_encoding.md R91). -/

def fieldOp (w : Word) : BitVec 8 := w.extractLsb' 24 8
def fieldA (w : Word) : BitVec 4 := w.extractLsb' 20 4
def fieldB (w : Word) : BitVec 4 := w.extractLsb' 16 4
def fieldC (w : Word) : BitVec 4 := w.extractLsb' 12 4
def fieldD (w : Word) : BitVec 4 := w.extractLsb' 8 4
def fieldE (w : Word) : BitVec 4 := w.extractLsb' 4 4
def fieldImm (w : Word) : BitVec 16 := w.extractLsb' 0 16

/-- The formats of 30_encoding.md R92; format C is read as I. -/
inductive Format where
  | N | R1 | R2 | R3 | R4 | R5 | I
  deriving DecidableEq, Repr

/-- The mask of opcode and must-be-zero bits of a format (30_encoding.md R92). -/
def formatMask : Format → Word
  | .N => 0xFFFFFFFF#32
  | .R1 => 0xFF0FFFFF#32
  | .R2 => 0xFF00FFFF#32
  | .R3 => 0xFF000FFF#32
  | .R4 => 0xFF0000FF#32
  | .R5 => 0xFF00000F#32
  | .I => 0xFF0F0000#32

/-- `match(op)`: the opcode in bits 31:24 and zeros below (30_encoding.md R98). -/
def matchWord (op : BitVec 8) : Word := op ++ 0#24

/-- What reading a word gives: an instruction, or the name of the failed check. -/
abbrev Decoded := Except DecodeError Instr

/-- R98 check 2: every must-be-zero bit of the format is zero; then go on. -/
def withFormat (fm : Format) (w : Word) (k : Decoded) : Decoded :=
  if w &&& formatMask fm = matchWord (fieldOp w) then k else .error .illegalOperand

/-- Classes `f` and `z`: every value of the field is legal (R93). -/
def regOf (x : BitVec 4) : Fin 16 := x.toFin

/-- R98 check 3 for a class with `n` legal values: the field is below `n`; then go on. -/
def withClass (n : Nat) (x : BitVec 4) (k : Fin n → Decoded) : Decoded :=
  if h : x.toNat < n then k ⟨x.toNat, h⟩ else .error .illegalOperand

/-- The CSR that a number names (10_state.md R27); none for an unmapped number (R42). -/
def csrOfNumber : BitVec 16 → Option Csr
  | 0x000#16 => some .ctrl
  | 0x001#16 => some .status
  | 0x002#16 => some .errpc
  | 0x003#16 => some .cmdPc
  | 0x004#16 => some .id
  | 0x010#16 => some .srcBase
  | 0x011#16 => some .srcW
  | 0x012#16 => some .srcH
  | 0x013#16 => some .aspectX
  | 0x014#16 => some .aspectY
  | 0x015#16 => some .policy
  | 0x020#16 => some .dstBase
  | 0x021#16 => some .dstW
  | 0x022#16 => some .dstH
  | 0x023#16 => some .u0
  | 0x024#16 => some .v0
  | 0x025#16 => some .du
  | 0x026#16 => some .dv
  | _ => none

/-- R98 check 4 for CSRR: the number is mapped (R95). -/
def withCsr (x : BitVec 16) (k : Csr → Decoded) : Decoded :=
  match csrOfNumber x with
  | some c => k c
  | none => .error .illegalCsr

/-- R98 check 4 for CSRW: the number is mapped and commands may write the CSR (R95). -/
def withWritableCsr (x : BitVec 16) (k : Csr → Decoded) : Decoded :=
  withCsr x fun c => if c.writable then k c else .error .illegalCsr

/-- Operands in A, B and C of class `f` or `z` (format R3). -/
def three (w : Word) (k : Fin 16 → Fin 16 → Fin 16 → Instr) : Decoded :=
  withFormat .R3 w (.ok (k (regOf (fieldA w)) (regOf (fieldB w)) (regOf (fieldC w))))

/-- Operands in A and B of class `f` or `z` (format R2). -/
def two (w : Word) (k : Fin 16 → Fin 16 → Instr) : Decoded :=
  withFormat .R2 w (.ok (k (regOf (fieldA w)) (regOf (fieldB w))))

/-- The decoder: the checks of 30_encoding.md R98 in their order, over the opcode map of R97. -/
def decode (w : Word) : Decoded :=
  match fieldOp w with
  | 0x00#8 => withFormat .N w (.ok .nop)
  | 0x01#8 => withFormat .N w (.ok .halt)
  | 0x02#8 => withFormat .I w (withCsr (fieldImm w) fun c => .ok (.csrr (regOf (fieldA w)) c))
  | 0x03#8 => withFormat .I w (withWritableCsr (fieldImm w) fun c => .ok (.csrw c (regOf (fieldA w))))
  | 0x04#8 => two w .ldW
  | 0x05#8 => two w .pxOrw
  | 0x10#8 => three w .fxAdd
  | 0x11#8 => three w .fxSub
  | 0x12#8 => three w .fxMul
  | 0x13#8 => three w .fxDiv
  | 0x14#8 => two w .fxNeg
  | 0x15#8 => two w .fxFrac
  | 0x16#8 => two w .fxInt
  | 0x17#8 => three w .fxCmp
  | 0x18#8 => two w .fxNot
  | 0x19#8 => two w .fxTou
  | 0x1A#8 => two w .fxFromi
  | 0x1B#8 => withFormat .I w (.ok (.fxLih (regOf (fieldA w)) (fieldImm w)))
  | 0x1C#8 => withFormat .I w (.ok (.fxLil (regOf (fieldA w)) (fieldImm w)))
  | 0x20#8 => three w .cxAdd
  | 0x21#8 => three w .cxSub
  | 0x22#8 => three w .cxMul
  | 0x23#8 => three w .cxDiv
  | 0x24#8 => two w .cxConj
  | 0x25#8 => two w .cxGuard
  | 0x26#8 => three w .cxPack
  | 0x27#8 => two w .cxRe
  | 0x28#8 => two w .cxIm
  | 0x30#8 => withFormat .R5 w (withClass 8 (fieldA w) fun md =>
      .ok (.mobSet md (regOf (fieldB w)) (regOf (fieldC w)) (regOf (fieldD w)) (regOf (fieldE w))))
  | 0x31#8 => withFormat .R1 w (withClass 8 (fieldA w) fun md => .ok (.mobId md))
  | 0x32#8 => withFormat .R2 w (withClass 8 (fieldA w) fun md => .ok (.mobHyp md (regOf (fieldB w))))
  | 0x33#8 => withFormat .R3 w (withClass 8 (fieldA w) fun md =>
      withClass 8 (fieldB w) fun ma => withClass 8 (fieldC w) fun mb => .ok (.mobComp md ma mb))
  | 0x34#8 => withFormat .R2 w (withClass 8 (fieldA w) fun md =>
      withClass 8 (fieldB w) fun ma => .ok (.mobInv md ma))
  | 0x35#8 => withFormat .R3 w (withClass 8 (fieldB w) fun ma =>
      .ok (.mobApply (regOf (fieldA w)) ma (regOf (fieldC w))))
  | 0x36#8 => withFormat .R3 w (withClass 8 (fieldB w) fun ma =>
      withClass 4 (fieldC w) fun k => .ok (.mobGet (regOf (fieldA w)) ma k))
  | 0x37#8 => withFormat .R2 w (withClass 8 (fieldB w) fun ma => .ok (.mobIsid (regOf (fieldA w)) ma))
  | 0x40#8 => withFormat .R1 w (withClass 2 (fieldA w) fun b => .ok (.blClr b))
  | 0x41#8 => withFormat .R2 w (withClass 2 (fieldA w) fun b =>
      withClass 8 (fieldB w) fun ma => .ok (.blAppend b ma))
  | 0x42#8 => withFormat .R2 w (withClass 2 (fieldA w) fun bd =>
      withClass 2 (fieldB w) fun bs => .ok (.blMul bd bs))
  | 0x43#8 => withFormat .R2 w (withClass 2 (fieldA w) fun b =>
      withClass 8 (fieldB w) fun ma => .ok (.blRcomp b ma))
  | 0x44#8 => withFormat .R2 w (withClass 2 (fieldA w) fun b =>
      withClass 8 (fieldB w) fun ma => .ok (.blLcomp b ma))
  | 0x45#8 => withFormat .R3 w (withClass 2 (fieldB w) fun b =>
      .ok (.blEval (regOf (fieldA w)) b (regOf (fieldC w))))
  | 0x46#8 => withFormat .R2 w (withClass 2 (fieldB w) fun b => .ok (.blCount (regOf (fieldA w)) b))
  | 0x47#8 => withFormat .R3 w (withClass 8 (fieldA w) fun md =>
      withClass 2 (fieldB w) fun b => withClass 6 (fieldC w) fun k => .ok (.blGetf md b k))
  | 0x48#8 => withFormat .R2 w (withClass 8 (fieldA w) fun md =>
      withClass 2 (fieldB w) fun b => .ok (.blFrame md b))
  | 0x50#8 => withFormat .R4 w
      (.ok (.pxBlend (regOf (fieldA w)) (regOf (fieldB w)) (regOf (fieldC w)) (regOf (fieldD w))))
  | 0x51#8 => two w .pxSample
  | 0x60#8 => withFormat .R1 w (withClass 2 (fieldA w) fun b => .ok (.render b))
  | _ => .error .illegalOpcode

/-- The decoder on bytes as memory holds them: it always consumes four (30_encoding.md R90). -/
def decodeBytes : List Byte → Except DecodeError (Instr × List Byte)
  | b0 :: b1 :: b2 :: b3 :: rest =>
    match decode (wordOfBytes b0 b1 b2 b3) with
    | .ok i => .ok (i, rest)
    | .error e => .error e
  | _ => .error .truncated

/-- The instruction the decoder reads from the word `w` of an opcode-table row of `nbits` bits, laid out
as memory holds it; bits above `nbits` are zero. -/
def decodeTableWord (nbits w : Nat) : Option Instr :=
  let v : Word := BitVec.ofNat 32 (w % 2 ^ nbits)
  match decodeBytes [byteOfWord v 0, byteOfWord v 1, byteOfWord v 2, byteOfWord v 3] with
  | .ok (i, _) => some i
  | .error _ => none

/-! The encoder, from the layouts of 30_encoding.md R92 and the opcode map of R97. -/

/-- A word of the register formats: opcode, A, B, C, D, E and the reserved field R (R91). -/
def regWord (op : BitVec 8) (a b c d e : BitVec 4) : Word := op ++ a ++ b ++ c ++ d ++ e ++ 0#4

/-- A word of format I or C: opcode, A, zeros in B, imm16 (R91, R92). -/
def immWord (op : BitVec 8) (a : BitVec 4) (imm : BitVec 16) : Word := op ++ a ++ 0#4 ++ imm

/-- The four-bit field of an operand. -/
def fld {n : Nat} (r : Fin n) : BitVec 4 := BitVec.ofNat 4 r.val

/-- The number of a CSR (10_state.md R27). -/
def csrNumber : Csr → BitVec 16
  | .ctrl => 0x000#16
  | .status => 0x001#16
  | .errpc => 0x002#16
  | .cmdPc => 0x003#16
  | .id => 0x004#16
  | .srcBase => 0x010#16
  | .srcW => 0x011#16
  | .srcH => 0x012#16
  | .aspectX => 0x013#16
  | .aspectY => 0x014#16
  | .policy => 0x015#16
  | .dstBase => 0x020#16
  | .dstW => 0x021#16
  | .dstH => 0x022#16
  | .u0 => 0x023#16
  | .v0 => 0x024#16
  | .du => 0x025#16
  | .dv => 0x026#16

/-- The word of an instruction (30_encoding.md R92, R97); for a CSRW of a CSR that commands may not write
it is the word that R98 check 4 refuses. -/
def encode : Instr → Word
  | .nop => regWord 0x00 0 0 0 0 0
  | .halt => regWord 0x01 0 0 0 0 0
  | .csrr fd csr => immWord 0x02 (fld fd) (csrNumber csr)
  | .csrw csr fs => immWord 0x03 (fld fs) (csrNumber csr)
  | .ldW fd fa => regWord 0x04 (fld fd) (fld fa) 0 0 0
  | .pxOrw fv fa => regWord 0x05 (fld fv) (fld fa) 0 0 0
  | .fxAdd fd fa fb => regWord 0x10 (fld fd) (fld fa) (fld fb) 0 0
  | .fxSub fd fa fb => regWord 0x11 (fld fd) (fld fa) (fld fb) 0 0
  | .fxMul fd fa fb => regWord 0x12 (fld fd) (fld fa) (fld fb) 0 0
  | .fxDiv fd fa fb => regWord 0x13 (fld fd) (fld fa) (fld fb) 0 0
  | .fxNeg fd fa => regWord 0x14 (fld fd) (fld fa) 0 0 0
  | .fxFrac fd fa => regWord 0x15 (fld fd) (fld fa) 0 0 0
  | .fxInt fd fa => regWord 0x16 (fld fd) (fld fa) 0 0 0
  | .fxCmp fd fa fb => regWord 0x17 (fld fd) (fld fa) (fld fb) 0 0
  | .fxNot fd fa => regWord 0x18 (fld fd) (fld fa) 0 0 0
  | .fxTou fd fa => regWord 0x19 (fld fd) (fld fa) 0 0 0
  | .fxFromi fd fa => regWord 0x1A (fld fd) (fld fa) 0 0 0
  | .fxLih fd imm => immWord 0x1B (fld fd) imm
  | .fxLil fd imm => immWord 0x1C (fld fd) imm
  | .cxAdd zd za zb => regWord 0x20 (fld zd) (fld za) (fld zb) 0 0
  | .cxSub zd za zb => regWord 0x21 (fld zd) (fld za) (fld zb) 0 0
  | .cxMul zd za zb => regWord 0x22 (fld zd) (fld za) (fld zb) 0 0
  | .cxDiv zd za zb => regWord 0x23 (fld zd) (fld za) (fld zb) 0 0
  | .cxConj zd za => regWord 0x24 (fld zd) (fld za) 0 0 0
  | .cxGuard zd za => regWord 0x25 (fld zd) (fld za) 0 0 0
  | .cxPack zd fre fim => regWord 0x26 (fld zd) (fld fre) (fld fim) 0 0
  | .cxRe fd za => regWord 0x27 (fld fd) (fld za) 0 0 0
  | .cxIm fd za => regWord 0x28 (fld fd) (fld za) 0 0 0
  | .mobSet md za zb zc zd => regWord 0x30 (fld md) (fld za) (fld zb) (fld zc) (fld zd)
  | .mobId md => regWord 0x31 (fld md) 0 0 0 0
  | .mobHyp md zs => regWord 0x32 (fld md) (fld zs) 0 0 0
  | .mobComp md ma mb => regWord 0x33 (fld md) (fld ma) (fld mb) 0 0
  | .mobInv md ma => regWord 0x34 (fld md) (fld ma) 0 0 0
  | .mobApply zd ma zs => regWord 0x35 (fld zd) (fld ma) (fld zs) 0 0
  | .mobGet zd ma k => regWord 0x36 (fld zd) (fld ma) (fld k) 0 0
  | .mobIsid fd ma => regWord 0x37 (fld fd) (fld ma) 0 0 0
  | .blClr b => regWord 0x40 (fld b) 0 0 0 0
  | .blAppend b ma => regWord 0x41 (fld b) (fld ma) 0 0 0
  | .blMul bd bs => regWord 0x42 (fld bd) (fld bs) 0 0 0
  | .blRcomp b ma => regWord 0x43 (fld b) (fld ma) 0 0 0
  | .blLcomp b ma => regWord 0x44 (fld b) (fld ma) 0 0 0
  | .blEval zd b zs => regWord 0x45 (fld zd) (fld b) (fld zs) 0 0
  | .blCount fd b => regWord 0x46 (fld fd) (fld b) 0 0 0
  | .blGetf md b k => regWord 0x47 (fld md) (fld b) (fld k) 0 0
  | .blFrame md b => regWord 0x48 (fld md) (fld b) 0 0 0
  | .pxBlend fd fa fx fy => regWord 0x50 (fld fd) (fld fa) (fld fx) (fld fy) 0
  | .pxSample fd zs => regWord 0x51 (fld fd) (fld zs) 0 0 0
  | .render b => regWord 0x60 (fld b) 0 0 0 0

/-- The opcode of an instruction (30_encoding.md R97). -/
def instrOpcode : Instr → BitVec 8
  | .nop => 0x00#8
  | .halt => 0x01#8
  | .csrr _ _ => 0x02#8
  | .csrw _ _ => 0x03#8
  | .ldW _ _ => 0x04#8
  | .pxOrw _ _ => 0x05#8
  | .fxAdd _ _ _ => 0x10#8
  | .fxSub _ _ _ => 0x11#8
  | .fxMul _ _ _ => 0x12#8
  | .fxDiv _ _ _ => 0x13#8
  | .fxNeg _ _ => 0x14#8
  | .fxFrac _ _ => 0x15#8
  | .fxInt _ _ => 0x16#8
  | .fxCmp _ _ _ => 0x17#8
  | .fxNot _ _ => 0x18#8
  | .fxTou _ _ => 0x19#8
  | .fxFromi _ _ => 0x1A#8
  | .fxLih _ _ => 0x1B#8
  | .fxLil _ _ => 0x1C#8
  | .cxAdd _ _ _ => 0x20#8
  | .cxSub _ _ _ => 0x21#8
  | .cxMul _ _ _ => 0x22#8
  | .cxDiv _ _ _ => 0x23#8
  | .cxConj _ _ => 0x24#8
  | .cxGuard _ _ => 0x25#8
  | .cxPack _ _ _ => 0x26#8
  | .cxRe _ _ => 0x27#8
  | .cxIm _ _ => 0x28#8
  | .mobSet _ _ _ _ _ => 0x30#8
  | .mobId _ => 0x31#8
  | .mobHyp _ _ => 0x32#8
  | .mobComp _ _ _ => 0x33#8
  | .mobInv _ _ => 0x34#8
  | .mobApply _ _ _ => 0x35#8
  | .mobGet _ _ _ => 0x36#8
  | .mobIsid _ _ => 0x37#8
  | .blClr _ => 0x40#8
  | .blAppend _ _ => 0x41#8
  | .blMul _ _ => 0x42#8
  | .blRcomp _ _ => 0x43#8
  | .blLcomp _ _ => 0x44#8
  | .blEval _ _ _ => 0x45#8
  | .blCount _ _ => 0x46#8
  | .blGetf _ _ _ => 0x47#8
  | .blFrame _ _ => 0x48#8
  | .pxBlend _ _ _ _ => 0x50#8
  | .pxSample _ _ => 0x51#8
  | .render _ => 0x60#8

/-- The format of an instruction (30_encoding.md R97); format C is read as I. -/
def instrFormat : Instr → Format
  | .nop => .N
  | .halt => .N
  | .csrr _ _ => .I
  | .csrw _ _ => .I
  | .ldW _ _ => .R2
  | .pxOrw _ _ => .R2
  | .fxAdd _ _ _ => .R3
  | .fxSub _ _ _ => .R3
  | .fxMul _ _ _ => .R3
  | .fxDiv _ _ _ => .R3
  | .fxNeg _ _ => .R2
  | .fxFrac _ _ => .R2
  | .fxInt _ _ => .R2
  | .fxCmp _ _ _ => .R3
  | .fxNot _ _ => .R2
  | .fxTou _ _ => .R2
  | .fxFromi _ _ => .R2
  | .fxLih _ _ => .I
  | .fxLil _ _ => .I
  | .cxAdd _ _ _ => .R3
  | .cxSub _ _ _ => .R3
  | .cxMul _ _ _ => .R3
  | .cxDiv _ _ _ => .R3
  | .cxConj _ _ => .R2
  | .cxGuard _ _ => .R2
  | .cxPack _ _ _ => .R3
  | .cxRe _ _ => .R2
  | .cxIm _ _ => .R2
  | .mobSet _ _ _ _ _ => .R5
  | .mobId _ => .R1
  | .mobHyp _ _ => .R2
  | .mobComp _ _ _ => .R3
  | .mobInv _ _ => .R2
  | .mobApply _ _ _ => .R3
  | .mobGet _ _ _ => .R3
  | .mobIsid _ _ => .R2
  | .blClr _ => .R1
  | .blAppend _ _ => .R2
  | .blMul _ _ => .R2
  | .blRcomp _ _ => .R2
  | .blLcomp _ _ => .R2
  | .blEval _ _ _ => .R3
  | .blCount _ _ => .R2
  | .blGetf _ _ _ => .R3
  | .blFrame _ _ => .R2
  | .pxBlend _ _ _ _ => .R4
  | .pxSample _ _ => .R2
  | .render _ => .R1

end Sys2Proof
end

