-- ==== Sys2Proof/Machine/State.lean ====
section
/-! DEFINITION. The state of the block (10_state.md), of the memory and the platform beside it, the
machine's stops, and the state after reset (10_state.md R45). -/

namespace Sys2Proof.Machine

/-- A complex value: a pair of fixed-point patterns (00_scope.md R9, 10_state.md R21). -/
structure Cx where
  re : Word
  im : Word
  deriving DecidableEq, Repr

/-- `ZERO_C` (00_scope.md R9). -/
def Cx.zero : Cx := ⟨0#32, 0#32⟩

/-- `ONE_C` (00_scope.md R9). -/
def Cx.one : Cx := ⟨oneFx, 0#32⟩

/-- A Möbius value: four complex coefficients and the stored `isIdentity` bit (10_state.md R22). -/
structure Mob where
  a : Cx
  b : Cx
  c : Cx
  d : Cx
  isId : Bool
  deriving DecidableEq, Repr

/-- The identity singleton `IDENTITY` (42_mobius.md R184). -/
def Mob.identity : Mob := ⟨.one, .zero, .zero, .one, true⟩

/-- A Blaschke slot (10_state.md R23): six factors of which the first `count` are active, and a frame.
`count ≤ 6` is an invariant of the machine (`Slot.ok` of Safety.lean). -/
structure Slot where
  factor : Vector Mob 6
  count : Nat
  frame : Mob
  deriving DecidableEq, Repr

/-- A cleared slot (10_state.md R45, 43_blaschke.md R202). -/
def Slot.empty : Slot := ⟨Vector.replicate 6 .identity, 0, .identity⟩

/-- The boundary policy: POLICY bit 0 (10_state.md R37). -/
inductive Policy where
  | tile
  | clamp
  deriving DecidableEq, Repr

/-- The fields of STATUS (10_state.md R29). -/
structure Status where
  busy : Bool
  done : Bool
  err : Bool
  dz : Bool
  ov : Bool
  errcode : BitVec 4
  deriving DecidableEq, Repr

/-- The CSRs that commands may write: the sampler's view and the renderer's (10_state.md R34 to R41). -/
structure View where
  srcBase : Word
  srcW : Word
  srcH : Word
  aspectX : Word
  aspectY : Word
  policy : Policy
  dstBase : Word
  dstW : Word
  dstH : Word
  u0 : Word
  v0 : Word
  du : Word
  dv : Word
  deriving DecidableEq, Repr

/-- A row worker (45_render.md R245): its index, current row and current column; `rowEnd` is the end of
the rows it owns (R242). -/
structure Worker where
  index : Nat
  row : Nat
  rowEnd : Nat
  col : Nat
  deriving DecidableEq, Repr

/-- Which of the sticky flags a computation sets (10_state.md R26). -/
structure Flags where
  ov : Bool
  dz : Bool
  deriving DecidableEq, Repr

/-- A RENDER that is running (45_render.md R240, R245): the slot it reads, the live workers, the flags of the
pixels done so far, which the join adds to STATUS (R249), whether the overlap premise fails (20_memory.md
R76, log 6), and whether a worker has met an access that is not admitted (R248). -/
structure Rendering where
  slot : BReg
  workers : List Worker
  flags : Flags
  overlap : Bool
  broken : Bool
  deriving DecidableEq, Repr

/-- MODEL: a place that holds data: a word of memory, a register of a file, or a CSR, where that of STATUS stands
for its sticky flags (log 9). -/
inductive Place where
  | word (a : Word)
  | f (r : FReg)
  | z (r : ZReg)
  | m (r : MReg)
  | bl (r : BReg)
  | csr (c : Csr)
  deriving DecidableEq, Repr

/-- MODEL: what a command did to the data of the run, with the places it computed that from (log 9). -/
inductive Transfer where
  /-- It wrote a register or a CSR; `pixel` says that the value is a pixel (20_memory.md R61). -/
  | reg (target : Place) (sources : List Place) (pixel : Bool)
  /-- It may have set a sticky flag (10_state.md R26). -/
  | flags (sources : List Place)
  /-- It wrote the word at `a`, which held `old`. -/
  | word (a : Word) (sources : List Place) (old : Word)
  deriving DecidableEq, Repr

/-- MODEL: places whose data is any value, or computed from one (log 9). -/
abbrev Marks := List Place

/-- MODEL: the record of a run, from its START on. 20_memory.md R76 and 93_implementation_defined.md U9 speak
of the words that a run fetches, reads and writes, of the values they held and of what was computed from them
(logs 6 and 9). A range is the address of its first word and its number of words; the newest entry of a list
stands first. -/
structure RunLog where
  /-- CMD_PC at the START. -/
  start : Word
  /-- How many command words the run has fetched. -/
  fetched : Nat
  /-- At a RENDER: how many command words the run fetches in all (log 6). -/
  reach : Nat
  /-- The ranges that commands have read or written. -/
  used : List (Word × Nat)
  /-- What the commands did to the data. -/
  flow : List Transfer
  /-- Words the host has written during the run and no command has used. -/
  raced : List Word
  /-- Places whose data is any value, or computed from one, since a host write raced with the run. -/
  tainted : Marks
  deriving DecidableEq, Repr

/-- The record of a run that starts at `pc`. -/
def RunLog.fresh (pc : Word) : RunLog :=
  { start := pc, fetched := 0, reach := 0, used := [], flow := [], raced := [], tainted := [] }

/-- The OPEN parameters of 00_scope.md R5, as plain data (log 2). `admitRanges` lists the byte ranges
`lo ≤ a < hi` in which the memory port answers: MEM_ADMIT. `mmioBase` is an address on the host's bus, whose
width the spec does not give: 32 bits is a DESIGN CHOICE (log 20). -/
structure Platform where
  numWorkers : BitVec 8
  admitRanges : List (Nat × Nat)
  mmioBase : Word
  deriving DecidableEq, Repr

/-- What the host can do between two steps of the block (60_exceptions.md R293, R294, 70_reset_and_hazards.md
R330; log 3). Addresses of MMIO operations are on the host's bus, of 32 bits as a DESIGN CHOICE (log 20);
those of memory operations are memory's. DESIGN CHOICE (log 21): a host access to memory is one byte, since the
spec gives its width nowhere; a wider one is several operations, between which the block may move. -/
inductive HostOp where
  /-- The host does nothing and the block moves. -/
  | wait
  | mmioRead (addr : Word)
  | mmioWrite (addr value : Word)
  /-- The host reads one byte of memory (log 21). -/
  | memRead (addr : Word)
  /-- The host writes one byte of memory (log 21). -/
  | memWrite (addr : Word) (value : Byte)
  /-- The reset input is asserted (70_reset_and_hazards.md R320). -/
  | reset
  deriving DecidableEq, Repr

/-- Memory: the listed bytes, addresses strictly rising and no entry equal to what an unlisted byte
reads as (20_memory.md R60; `Memory.wf` of Ops.lean). -/
abbrev Memory := List Host.Cell

/-- The whole machine: the block, the memory, the platform's parameters, and the model's own fields
(INVENTORY.md, State). -/
structure State where
  /-- F0 to F15 (10_state.md R20). -/
  f : Vector Word 16
  /-- Z0 to Z15 (R21). -/
  z : Vector Cx 16
  /-- M0 to M7 (R22). -/
  m : Vector Mob 8
  /-- BL0 and BL1 (R23). -/
  bl : Vector Slot 2
  /-- The command pointer CMD_PC (R25). -/
  pc : Word
  /-- STATUS (R29). -/
  status : Status
  /-- CTRL.IE (R28). -/
  ie : Bool
  /-- ERRPC (R30). -/
  errpc : Word
  /-- The view CSRs (R34 to R41). -/
  view : View
  /-- The RENDER that is running, with its live workers; none between commands (R44, 45_render.md R245). -/
  rendering : Option Rendering
  /-- Memory (20_memory.md R60). -/
  mem : Memory
  /-- The platform's parameters (00_scope.md R5, log 2). -/
  platform : Platform
  /-- MODEL: the host's operations still to be served (log 3). -/
  inbox : List HostOp
  /-- MODEL: what the host's last read returned (log 3). -/
  hostData : Word
  /-- MODEL: the record of the run (logs 6 and 9). -/
  run : RunLog
  /-- MODEL: how many draws of free values there were (log 7). -/
  freeCount : Nat
  deriving DecidableEq, Repr

/-- Why the machine stops. No command of the spec stops it: the spec's own faults are taken
(60_exceptions.md R285) and are next states. -/
inductive Fault where
  /-- RENDER raises it on a platform record with NUM_WORKERS = 0, a value that 00_scope.md R5 excludes
  (log 11). Safe. -/
  | noWorkers
  deriving DecidableEq, Repr

/-- What the model gives no meaning to. -/
inductive Refusal where
  /-- An instruction without a meaning; no arm raises it. Safe. -/
  | notModelled (mnemonic : String)
  /-- A host MMIO access that is not word-aligned: 93_implementation_defined.md U5 says refuse (log 10).
  The step raises it, no command does. Safe. -/
  | hostMmioMisaligned
  deriving DecidableEq, Repr

/-- What one command or one step answers. -/
abbrev Result := Host.Outcome State Fault Refusal

/-- The view CSRs after reset (10_state.md R27, R45). -/
def View.reset : View :=
  { srcBase := 0#32, srcW := 0#32, srcH := 0#32, aspectX := oneFx, aspectY := oneFx, policy := .tile,
    dstBase := 0#32, dstW := 0#32, dstH := 0#32, u0 := 0#32, v0 := 0#32, du := 0#32, dv := 0#32 }

/-- STATUS after reset (10_state.md R45). -/
def Status.reset : Status :=
  { busy := false, done := false, err := false, dz := false, ov := false, errcode := 0#4 }

/-- The platform of the reset state: the reference NUM_WORKERS = 4, every address admitted, the window
at 0. DESIGN CHOICE (log 2): all three are OPEN in 00_scope.md R5. -/
def Platform.reference : Platform := { numWorkers := 4#8, admitRanges := [(0, 2 ^ 32)], mmioBase := 0#32 }

/-- The machine right after reset (10_state.md R45), with nothing listed in memory. -/
def State.reset : State :=
  { f := Vector.replicate 16 0#32
    z := Vector.replicate 16 .zero
    m := Vector.replicate 8 .identity
    bl := Vector.replicate 2 .empty
    pc := 0#32
    status := .reset
    ie := false
    errpc := 0#32
    view := .reset
    rendering := none
    mem := []
    platform := .reference
    inbox := []
    hostData := 0#32
    run := .fresh 0#32
    freeCount := 0 }

/-- The interrupt output: a level, `IE & (DONE | ERR)` (60_exceptions.md R291). -/
def State.irq (s : State) : Bool := s.ie && (s.status.done || s.status.err)

end Sys2Proof.Machine
end

