-- ==== Sys2Proof/Machine/Flags.lean ====
section
/-! DEFINITION. The two sticky flags and the narrowing of exact results (10_state.md R26,
40_fixed_point.md section 1). -/

namespace Sys2Proof.Machine

/-- A value and the flags its computation sets: a function "marked sets flags" (00_scope.md R12). -/
structure Flagged (α : Type) where
  val : α
  flags : Flags
  deriving DecidableEq, Repr

/-- No flag is set. -/
def Flags.none : Flags := ⟨false, false⟩

/-- Both computations' flags (00_scope.md R12: the OR of all of them). -/
def Flags.or (x y : Flags) : Flags := ⟨x.ov || y.ov, x.dz || y.dz⟩

/-- The flags of several computations (R12). -/
def Flags.all : List Flags → Flags
  | [] => .none
  | x :: xs => x.or (Flags.all xs)

/-- The exact result is in RANGE = [−2^31, 2^31) (40_fixed_point.md section 1). -/
def inRange (r : Int) : Bool := decide (-(2 ^ 31) ≤ r) && decide (r < 2 ^ 31)

/-- `wrap32`, with OV when the exact result is outside RANGE (40_fixed_point.md R120 to R125). -/
def narrow (r : Int) : Flagged Word := ⟨BitVec.ofInt 32 r, ⟨!inRange r, false⟩⟩

/-- A value that sets no flag. -/
def plain {α : Type} (v : α) : Flagged α := ⟨v, .none⟩

/-- Set the sticky bits and never clear them (00_scope.md R11, 10_state.md R26). -/
def State.addFlags (s : State) (x : Flags) : State :=
  { s with status := { s.status with ov := s.status.ov || x.ov, dz := s.status.dz || x.dz } }

end Sys2Proof.Machine
end

