-- ==== Sys2Proof/Machine/Ops.lean ====
section
/-! DEFINITION. The operations every command is made of: memory (20_memory.md), the register files,
completing a command, TAKING A FAULT (60_exceptions.md R285), and what brings the block back from one:
clearing ERR and START (R288, R295). -/

namespace Sys2Proof.Machine

/-! ## Memory -/

/-- One byte of memory (20_memory.md R60). -/
def readByte : Memory → Nat → Byte
  | [], _ => Config.unwrittenByte
  | (k, v) :: m, a => if k = a then v else readByte m a

/-- Put a byte in front of the first greater address. -/
def insertByte : Memory → Nat → Byte → Memory
  | [], a, b => [(a, b)]
  | (k, v) :: m, a, b => if a < k then (a, b) :: (k, v) :: m else (k, v) :: insertByte m a b

/-- Memory without the byte at an address. -/
def eraseByte (m : Memory) (a : Nat) : Memory := m.filter fun c => c.1 != a

/-- Write one byte, keeping the canonical form. -/
def writeByte (m : Memory) (a : Nat) (b : Byte) : Memory :=
  if b = Config.unwrittenByte then eraseByte m a else insertByte (eraseByte m a) a b

/-- Every listed address is above `lo`, they rise strictly, lie in the address space, and no byte is the
one an unlisted address reads as. -/
def wfAbove : Option Nat → Memory → Bool
  | _, [] => true
  | lo, (k, v) :: m =>
    (match lo with | none => true | some l => decide (l < k)) && decide (k < 2 ^ 32)
      && (v != Config.unwrittenByte) && wfAbove (some k) m

/-- The canonical form of a memory. -/
def Memory.wf (m : Memory) : Bool := wfAbove none m

/-- The four byte addresses of the word at `a` (20_memory.md R62); `a` is aligned at every access the
block makes (R63). -/
def wordBytes (a : Word) : List Nat :=
  [a.toNat, (a + 1#32).toNat, (a + 2#32).toNat, (a + 3#32).toNat]

/-- `MemRead(a, 4)`: little-endian (00_scope.md R11, 20_memory.md R62). -/
def readWord (m : Memory) (a : Word) : Word :=
  wordOfBytes (readByte m a.toNat) (readByte m (a + 1#32).toNat)
    (readByte m (a + 2#32).toNat) (readByte m (a + 3#32).toNat)

/-- `MemWrite(a, 4, v)` (00_scope.md R11, 20_memory.md R62). -/
def writeWord (m : Memory) (a v : Word) : Memory :=
  writeByte (writeByte (writeByte (writeByte m a.toNat (byteOfWord v 0)) (a + 1#32).toNat (byteOfWord v 1))
    (a + 2#32).toNat (byteOfWord v 2)) (a + 3#32).toNat (byteOfWord v 3)

/-- `MemOr(a, v)`: one atomic read-modify-write (00_scope.md R11, 20_memory.md R65). -/
def orWord (m : Memory) (a v : Word) : Memory := writeWord m a (readWord m a ||| v)

/-- `MEM_ADMIT(a)` (00_scope.md R5, 20_memory.md R64). -/
def memAdmit (p : Platform) (a : Word) : Bool :=
  p.admitRanges.any fun r => decide (r.1 ≤ a.toNat) && decide (a.toNat < r.2)

/-- `a[1:0] = 0` (20_memory.md R63). -/
def aligned (a : Word) : Bool := a.extractLsb' 0 2 == 0#2

/-- The word in which a byte lies (20_memory.md R62). -/
def wordOf (a : Word) : Word := a &&& 0xFFFFFFFC#32

/-- Any value in each word of a list (93_implementation_defined.md U8, U9): the free words of draw `d`. -/
def freeWords (d : Nat) (m : Memory) (ws : List Word) : Memory :=
  ws.zipIdx.foldl (fun m p => writeWord m p.1 (Config.freeWord d p.2)) m

/-- The words of a range of `n` words, which may wrap (20_memory.md R66). -/
def rangeWords (r : Word × Nat) : List Word := (List.range r.2).map fun k => r.1 + BitVec.ofNat 32 (4 * k)

/-- The word at `a` is one of a range. -/
def rangeHas (a : Word) (r : Word × Nat) : Bool := decide ((a - r.1).toNat < 4 * r.2)

/-- An index below `n`, `free` deciding when there is a choice (U9, U13). -/
def choose (free n : Nat) : Nat := if n ≤ 1 then 0 else free % n

/-! ## The register files (10_state.md R20 to R23) -/

def State.getF (s : State) (r : FReg) : Word := s.f[r]
def State.getZ (s : State) (r : ZReg) : Cx := s.z[r]
def State.getM (s : State) (r : MReg) : Mob := s.m[r]
def State.getB (s : State) (r : BReg) : Slot := s.bl[r]
def State.setF (s : State) (r : FReg) (v : Word) : State := { s with f := s.f.set r v }
def State.setZ (s : State) (r : ZReg) (v : Cx) : State := { s with z := s.z.set r v }
def State.setM (s : State) (r : MReg) (v : Mob) : State := { s with m := s.m.set r v }
def State.setB (s : State) (r : BReg) (v : Slot) : State := { s with bl := s.bl.set r v }
def State.setMem (s : State) (m : Memory) : State := { s with mem := m }
def State.setView (s : State) (v : View) : State := { s with view := v }

/-! ## Completing a command -/

/-- `pc <- wrap32(pc + 4)` (10_state.md R25). -/
def State.advance (s : State) : State := { s with pc := s.pc + 4#32 }

/-- A command that completes (46_system.md R260). -/
def complete (s : State) : Result := .next s.advance

/-- Complete by writing an F register and setting flags. -/
def doneF (s : State) (r : FReg) (x : Flagged Word) : Result := complete ((s.setF r x.val).addFlags x.flags)

/-- Complete by writing a Z register and setting flags. -/
def doneZ (s : State) (r : ZReg) (x : Flagged Cx) : Result := complete ((s.setZ r x.val).addFlags x.flags)

/-- Complete by writing an M register and setting flags. -/
def doneM (s : State) (r : MReg) (x : Flagged Mob) : Result := complete ((s.setM r x.val).addFlags x.flags)

/-- Complete by writing a slot and setting flags. -/
def doneB (s : State) (r : BReg) (x : Flagged Slot) : Result := complete ((s.setB r x.val).addFlags x.flags)

/-! ## Taking a fault, and coming back -/

/-- The causes of 60_exceptions.md R280. -/
inductive Cause where
  | illegalOpcode | illegalOperand | illegalCsr | misaligned | busError | badConfig
  deriving DecidableEq, Repr

/-- The code of a cause in STATUS.ERRCODE (60_exceptions.md R280). -/
def causeCode : Cause → BitVec 4
  | .illegalOpcode => 1#4
  | .illegalOperand => 2#4
  | .illegalCsr => 3#4
  | .misaligned => 4#4
  | .busError => 5#4
  | .badConfig => 6#4

/-- Fault entry (60_exceptions.md R285): ERR, ERRCODE and ERRPC are written and the run ends; `pc`, DONE
and everything else stay. -/
def State.takeFault (s : State) (c : Cause) : State :=
  { s with status := { s.status with err := true, errcode := causeCode c, busy := false }, errpc := s.pc }

/-- A command that faults. -/
def faulted (s : State) (c : Cause) : Result := .next (s.takeFault c)

/-- The checks of an access to one word, in their order (20_memory.md R63, R64). -/
def accessCheck (s : State) (a : Word) : Option Cause :=
  if !aligned a then some .misaligned else if !memAdmit s.platform a then some .busError else none

/-- The host's write-1-to-clear of STATUS (10_state.md R29): the way back from a fault (60_exceptions.md
R288). Clearing ERR also clears ERRCODE. -/
def State.clearStatus (s : State) (w : Word) : State :=
  { s with status := { s.status with
      done := s.status.done && !w.getLsbD 1
      err := s.status.err && !w.getLsbD 2
      errcode := if w.getLsbD 2 then 0#4 else s.status.errcode
      dz := s.status.dz && !w.getLsbD 3
      ov := s.status.ov && !w.getLsbD 4 } }

/-- START (60_exceptions.md R295): ignored while BUSY or ERR is 1, else a run begins at CMD_PC. -/
def State.start (s : State) : State :=
  if s.status.busy || s.status.err then s
  else { s with status := { s.status with done := false, busy := true }, run := .fresh s.pc }

end Sys2Proof.Machine
end

