-- ==== Sys2Proof/Machine/Operands.lean ====
section
/-! DEFINITION. The operand forms that are more than a register: the CSRs as commands and the host read
and write them (10_state.md R27 to R42), the coefficient index of MOB.GET, and the register group of
PX.BLEND. -/

namespace Sys2Proof.Machine

/-- STATUS as a word (10_state.md R29): ERRCODE in bits 11:8, then 0 0 0 OV DZ ERR DONE BUSY. -/
def statusWord (x : Status) : Word :=
  0#20 ++ x.errcode ++ 0#3 ++ BitVec.ofBool x.ov ++ BitVec.ofBool x.dz ++ BitVec.ofBool x.err
    ++ BitVec.ofBool x.done ++ BitVec.ofBool x.busy

/-- CTRL as a word (10_state.md R28): IE in bit 1; START reads 0. -/
def ctrlWord (ie : Bool) : Word := 0#30 ++ BitVec.ofBool ie ++ 0#1

/-- ID (10_state.md R33): version 0x01, NUM_WORKERS, FRAC_BITS = 0x10, MAX_FACTORS = 0x06. -/
def idWord (p : Platform) : Word := 0x01#8 ++ p.numWorkers ++ 0x10#8 ++ 0x06#8

/-- POLICY as a word (10_state.md R37). -/
def policyWord : Policy → Word
  | .tile => 0#32
  | .clamp => 1#32

/-- The policy that a write to POLICY selects: bit 0 alone counts (10_state.md R37). -/
def policyOf (w : Word) : Policy := if w.getLsbD 0 then .clamp else .tile

/-- `read_csr` (46_system.md R263, 10_state.md R27). -/
def readCsr (s : State) : Csr → Word
  | .ctrl => ctrlWord s.ie
  | .status => statusWord s.status
  | .errpc => s.errpc
  | .cmdPc => s.pc
  | .id => idWord s.platform
  | .srcBase => s.view.srcBase
  | .srcW => s.view.srcW
  | .srcH => s.view.srcH
  | .aspectX => s.view.aspectX
  | .aspectY => s.view.aspectY
  | .policy => policyWord s.view.policy
  | .dstBase => s.view.dstBase
  | .dstW => s.view.dstW
  | .dstH => s.view.dstH
  | .u0 => s.view.u0
  | .v0 => s.view.v0
  | .du => s.view.du
  | .dv => s.view.dv

/-- `write_csr` on the view CSRs (46_system.md R264): any value is accepted, and POLICY keeps bit 0. The
other CSRs are not writable by commands (10_state.md R27) and stay. -/
def writeView (v : View) (c : Csr) (w : Word) : View :=
  match c with
  | .srcBase => { v with srcBase := w }
  | .srcW => { v with srcW := w }
  | .srcH => { v with srcH := w }
  | .aspectX => { v with aspectX := w }
  | .aspectY => { v with aspectY := w }
  | .policy => { v with policy := policyOf w }
  | .dstBase => { v with dstBase := w }
  | .dstW => { v with dstW := w }
  | .dstH => { v with dstH := w }
  | .u0 => { v with u0 := w }
  | .v0 => { v with v0 := w }
  | .du => { v with du := w }
  | .dv => { v with dv := w }
  | .ctrl | .status | .errpc | .cmdPc | .id => v

/-- The coefficient that MOB.GET's index selects: a, b, c, d (42_mobius.md R191). -/
def mobCoef (t : Mob) (k : Fin 4) : Cx :=
  match k with
  | 0 => t.a
  | 1 => t.b
  | 2 => t.c
  | 3 => t.d

/-- Register `n` of the group of four that starts at `r`, wrapping from F15 to F0 (44_sampler.md R224). -/
def groupReg (r : FReg) (n : Nat) : FReg := ⟨(r.val + n) % 16, Nat.mod_lt _ (by decide)⟩

/-- An F register read as a blend weight: its low 16 bits, unsigned (44_sampler.md R224). -/
def weightOf (v : Word) : Nat := (v.extractLsb' 0 16).toNat

/-- `check`s of the dimensions: unsigned, in [DIM_MIN, DIM_MAX] (10_state.md R35, R39). -/
def dimOk (d : Word) : Bool := decide (Config.dimMin ≤ d.toNat) && decide (d.toNat ≤ Config.dimMax)

/-- SRC_W and SRC_H are legal (44_sampler.md R223). -/
def View.srcOk (v : View) : Bool := dimOk v.srcW && dimOk v.srcH

/-- DST_W and DST_H are legal (45_render.md R240). -/
def View.dstOk (v : View) : Bool := dimOk v.dstW && dimOk v.dstH

end Sys2Proof.Machine
end

