-- ==== Sys2Proof/Machine/Fixed.lean ====
section
/-! DEFINITION. The fixed-point unit: the primitive functions and the FX commands of 40_fixed_point.md. -/

namespace Sys2Proof.Machine

/-! ## Primitive functions (40_fixed_point.md section 1) -/

/-- `fx_add` (R120). -/
def fxAdd (a b : Word) : Flagged Word := narrow (a.toInt + b.toInt)

/-- `fx_sub` (R121). -/
def fxSub (a b : Word) : Flagged Word := narrow (a.toInt - b.toInt)

/-- `fx_mul` (R122): the exact product, shifted back with floor; `/` on Int by a positive divisor is floor. -/
def fxMul (a b : Word) : Flagged Word := narrow (a.toInt * b.toInt / 2 ^ 16)

/-- `fx_div` (R123): a zero divisor saturates toward the dividend's sign and sets DZ, not OV; else the
widened quotient rounds toward zero. -/
def fxDiv (a b : Word) : Flagged Word :=
  if b.toInt = 0 then ⟨if 0 ≤ a.toInt then 0x7FFFFFFF#32 else 0x80000000#32, ⟨false, true⟩⟩
  else narrow ((a.toInt * 2 ^ 16).tdiv b.toInt)

/-- `fx_neg` (R124). -/
def fxNeg (a : Word) : Flagged Word := narrow (-a.toInt)

/-- `fx_fromi` (R125). -/
def fxFromi (a : Word) : Flagged Word := narrow (a.toInt * 2 ^ 16)

/-- `fx_frac` (R126): `zext_16(a[15:0])`. -/
def fxFrac (a : Word) : Word := (a.extractLsb' 0 16).zeroExtend 32

/-- `fx_int` (R127): `sext_16(a[31:16])`. -/
def fxInt (a : Word) : Word := (a.extractLsb' 16 16).signExtend 32

/-- `fx_tou` (R128): `zext_16(a[31:16])`, for negative values too (93_implementation_defined.md U2). -/
def fxTou (a : Word) : Word := (a.extractLsb' 16 16).zeroExtend 32

/-- `fx_cmp` (R129): −1, 0 or +1 from the signed comparison. -/
def fxCmp (a b : Word) : Word :=
  if a.toInt < b.toInt then 0xFFFFFFFF#32 else if a.toInt = b.toInt then 0x00000000#32 else 0x00000001#32

/-- `fx_not` (R130): 1 exactly for the pattern 0. -/
def fxNot (a : Word) : Word := if a = 0#32 then 1#32 else 0#32

/-- The pattern FX.LIH loads (R142): `imm16 ++ 0x0000`. -/
def fxLih (imm : BitVec 16) : Word := imm ++ 0#16

/-- The pattern FX.LIL leaves (R143): the high half kept, `imm16` below. -/
def fxLil (a : Word) (imm : BitVec 16) : Word := a.extractLsb' 16 16 ++ imm

/-! ## Commands (40_fixed_point.md section 2) -/

/-- FX.ADD (R131). -/
def execFxAdd (fd fa fb : FReg) (s : State) : Result := doneF s fd (fxAdd (s.getF fa) (s.getF fb))

/-- FX.SUB (R132). -/
def execFxSub (fd fa fb : FReg) (s : State) : Result := doneF s fd (fxSub (s.getF fa) (s.getF fb))

/-- FX.MUL (R133). -/
def execFxMul (fd fa fb : FReg) (s : State) : Result := doneF s fd (fxMul (s.getF fa) (s.getF fb))

/-- FX.DIV (R134). -/
def execFxDiv (fd fa fb : FReg) (s : State) : Result := doneF s fd (fxDiv (s.getF fa) (s.getF fb))

/-- FX.NEG (R135). -/
def execFxNeg (fd fa : FReg) (s : State) : Result := doneF s fd (fxNeg (s.getF fa))

/-- FX.FRAC (R136). -/
def execFxFrac (fd fa : FReg) (s : State) : Result := doneF s fd (plain (fxFrac (s.getF fa)))

/-- FX.INT (R137). -/
def execFxInt (fd fa : FReg) (s : State) : Result := doneF s fd (plain (fxInt (s.getF fa)))

/-- FX.CMP (R138). -/
def execFxCmp (fd fa fb : FReg) (s : State) : Result := doneF s fd (plain (fxCmp (s.getF fa) (s.getF fb)))

/-- FX.NOT (R139). -/
def execFxNot (fd fa : FReg) (s : State) : Result := doneF s fd (plain (fxNot (s.getF fa)))

/-- FX.TOU (R140). -/
def execFxTou (fd fa : FReg) (s : State) : Result := doneF s fd (plain (fxTou (s.getF fa)))

/-- FX.FROMI (R141). -/
def execFxFromi (fd fa : FReg) (s : State) : Result := doneF s fd (fxFromi (s.getF fa))

/-- FX.LIH (R142). -/
def execFxLih (fd : FReg) (imm : BitVec 16) (s : State) : Result := doneF s fd (plain (fxLih imm))

/-- FX.LIL (R143). -/
def execFxLil (fd : FReg) (imm : BitVec 16) (s : State) : Result :=
  doneF s fd (plain (fxLil (s.getF fd) imm))

end Sys2Proof.Machine
end

