-- ==== Sys2Proof/Machine/Complex.lean ====
section
/-! DEFINITION. The complex unit: the primitive functions and the CX commands of 41_complex.md. -/

namespace Sys2Proof.Machine

/-! ## Primitive functions (41_complex.md section 1) -/

/-- Two flagged parts as one flagged complex value. -/
def pair (re im : Flagged Word) : Flagged Cx := ⟨⟨re.val, im.val⟩, re.flags.or im.flags⟩

/-- `cx_add` (R160). -/
def cxAdd (x y : Cx) : Flagged Cx := pair (fxAdd x.re y.re) (fxAdd x.im y.im)

/-- `cx_sub` (R161). -/
def cxSub (x y : Cx) : Flagged Cx := pair (fxSub x.re y.re) (fxSub x.im y.im)

/-- `cx_mul` (R162): four products, each rounded, then the two sums. -/
def cxMul (x y : Cx) : Flagged Cx :=
  let rr := fxMul x.re y.re
  let ii := fxMul x.im y.im
  let ri := fxMul x.re y.im
  let ir := fxMul x.im y.re
  let re := fxSub rr.val ii.val
  let im := fxAdd ri.val ir.val
  ⟨⟨re.val, im.val⟩, Flags.all [rr.flags, ii.flags, ri.flags, ir.flags, re.flags, im.flags]⟩

/-- `cx_div` (R163), without the guard: `x · conj(y)` over one shared `n = |y|²`. -/
def cxDiv (x y : Cx) : Flagged Cx :=
  let y2r := fxMul y.re y.re
  let y2i := fxMul y.im y.im
  let n := fxAdd y2r.val y2i.val
  let rr := fxMul x.re y.re
  let ii := fxMul x.im y.im
  let ir := fxMul x.im y.re
  let ri := fxMul x.re y.im
  let numRe := fxAdd rr.val ii.val
  let numIm := fxSub ir.val ri.val
  let re := fxDiv numRe.val n.val
  let im := fxDiv numIm.val n.val
  ⟨⟨re.val, im.val⟩, Flags.all [y2r.flags, y2i.flags, n.flags, rr.flags, ii.flags, ir.flags, ri.flags,
    numRe.flags, numIm.flags, re.flags, im.flags]⟩

/-- `cx_conj` (R164). -/
def cxConj (x : Cx) : Flagged Cx := pair (plain x.re) (fxNeg x.im)

/-- `cx_neg` (R165). -/
def cxNeg (x : Cx) : Flagged Cx := pair (fxNeg x.re) (fxNeg x.im)

/-- `cx_guard`, the divide-zero guard (R166): only exact zero changes, to one ulp in each part. -/
def cxGuard (y : Cx) : Cx := if y.re = 0#32 ∧ y.im = 0#32 then ⟨1#32, 1#32⟩ else y

/-! ## Commands (41_complex.md section 2) -/

/-- CX.ADD (R167). -/
def execCxAdd (zd za zb : ZReg) (s : State) : Result := doneZ s zd (cxAdd (s.getZ za) (s.getZ zb))

/-- CX.SUB (R168). -/
def execCxSub (zd za zb : ZReg) (s : State) : Result := doneZ s zd (cxSub (s.getZ za) (s.getZ zb))

/-- CX.MUL (R169). -/
def execCxMul (zd za zb : ZReg) (s : State) : Result := doneZ s zd (cxMul (s.getZ za) (s.getZ zb))

/-- CX.DIV (R170). -/
def execCxDiv (zd za zb : ZReg) (s : State) : Result := doneZ s zd (cxDiv (s.getZ za) (s.getZ zb))

/-- CX.CONJ (R171). -/
def execCxConj (zd za : ZReg) (s : State) : Result := doneZ s zd (cxConj (s.getZ za))

/-- CX.GUARD (R172). -/
def execCxGuard (zd za : ZReg) (s : State) : Result := doneZ s zd (plain (cxGuard (s.getZ za)))

/-- CX.PACK (R173). -/
def execCxPack (zd : ZReg) (fre fim : FReg) (s : State) : Result :=
  doneZ s zd (plain ⟨s.getF fre, s.getF fim⟩)

/-- CX.RE (R174). -/
def execCxRe (fd : FReg) (za : ZReg) (s : State) : Result := doneF s fd (plain (s.getZ za).re)

/-- CX.IM (R175). -/
def execCxIm (fd : FReg) (za : ZReg) (s : State) : Result := doneF s fd (plain (s.getZ za).im)

end Sys2Proof.Machine
end

