-- ==== Sys2Proof/Machine/Mobius.lean ====
section
/-! DEFINITION. The Möbius transform evaluator: the primitive functions and the MOB commands of
42_mobius.md. -/

namespace Sys2Proof.Machine

/-! ## Primitive functions (42_mobius.md section 1) -/

/-- `u·v + w` in CX functions: the linear form of `mob_apply` (R180). -/
def cxMulAdd (u v w : Cx) : Flagged Cx :=
  let p := cxMul u v
  let r := cxAdd p.val w
  ⟨r.val, p.flags.or r.flags⟩

/-- `t·u + v·w` in CX functions: one entry of the product of `mob_compose` (R181). -/
def cxDot (t u v w : Cx) : Flagged Cx :=
  let p := cxMul t u
  let q := cxMul v w
  let r := cxAdd p.val q.val
  ⟨r.val, Flags.all [p.flags, q.flags, r.flags]⟩

/-- `mob_apply` (R180): the denominator passes through the guard; `isId` is not read. -/
def mobApply (t : Mob) (z : Cx) : Flagged Cx :=
  let num := cxMulAdd t.a z t.b
  let den := cxMulAdd t.c z t.d
  let q := cxDiv num.val (cxGuard den.val)
  ⟨q.val, Flags.all [num.flags, den.flags, q.flags]⟩

/-- `mob_compose` (R181): T ∘ S, with `isId = 0` always. -/
def mobCompose (t s : Mob) : Flagged Mob :=
  let a := cxDot t.a s.a t.b s.c
  let b := cxDot t.a s.b t.b s.d
  let c := cxDot t.c s.a t.d s.c
  let d := cxDot t.c s.b t.d s.d
  ⟨⟨a.val, b.val, c.val, d.val, false⟩, Flags.all [a.flags, b.flags, c.flags, d.flags]⟩

/-- The determinant `a·d − b·c` of `mob_invert` (R182). -/
def mobDet (t : Mob) : Flagged Cx :=
  let ad := cxMul t.a t.d
  let bc := cxMul t.b t.c
  let r := cxSub ad.val bc.val
  ⟨r.val, Flags.all [ad.flags, bc.flags, r.flags]⟩

/-- `mob_invert` (R182): the zero test is on the unguarded determinant, and its flags stay set. -/
def mobInvert (t : Mob) : Flagged Mob :=
  let det := mobDet t
  if det.val = Cx.zero then ⟨.identity, det.flags⟩
  else
    let nb := cxNeg t.b
    let nc := cxNeg t.c
    let a := cxDiv t.d det.val
    let b := cxDiv nb.val det.val
    let c := cxDiv nc.val det.val
    let d := cxDiv t.a det.val
    ⟨⟨a.val, b.val, c.val, d.val, false⟩,
      Flags.all [det.flags, nb.flags, nc.flags, a.flags, b.flags, c.flags, d.flags]⟩

/-- `mob_hyp` (R183): `(1, −ζ, −conj ζ, 1)`. -/
def mobHyp (zeta : Cx) : Flagged Mob :=
  let nre := fxNeg zeta.re
  let nim := fxNeg zeta.im
  ⟨⟨.one, ⟨nre.val, nim.val⟩, ⟨nre.val, zeta.im⟩, .one, false⟩, nre.flags.or nim.flags⟩

/-! ## Commands (42_mobius.md section 2) -/

/-- MOB.SET (R185): `isId = 0` whatever the coefficients. -/
def execMobSet (md : MReg) (za zb zc zd : ZReg) (s : State) : Result :=
  doneM s md (plain ⟨s.getZ za, s.getZ zb, s.getZ zc, s.getZ zd, false⟩)

/-- MOB.ID (R186). -/
def execMobId (md : MReg) (s : State) : Result := doneM s md (plain .identity)

/-- MOB.HYP (R187). -/
def execMobHyp (md : MReg) (zs : ZReg) (s : State) : Result := doneM s md (mobHyp (s.getZ zs))

/-- MOB.COMP (R188): M[ma] ∘ M[mb]. -/
def execMobComp (md ma mb : MReg) (s : State) : Result := doneM s md (mobCompose (s.getM ma) (s.getM mb))

/-- MOB.INV (R189). -/
def execMobInv (md ma : MReg) (s : State) : Result := doneM s md (mobInvert (s.getM ma))

/-- MOB.APPLY (R190). -/
def execMobApply (zd : ZReg) (ma : MReg) (zs : ZReg) (s : State) : Result :=
  doneZ s zd (mobApply (s.getM ma) (s.getZ zs))

/-- MOB.GET (R191). -/
def execMobGet (zd : ZReg) (ma : MReg) (k : Fin 4) (s : State) : Result :=
  doneZ s zd (plain (mobCoef (s.getM ma) k))

/-- MOB.ISID (R192): the stored flag, as 0 or 1. -/
def execMobIsid (fd : FReg) (ma : MReg) (s : State) : Result :=
  doneF s fd (plain ((BitVec.ofBool (s.getM ma).isId).zeroExtend 32))

end Sys2Proof.Machine
end

