-- ==== Sys2Proof/Machine/Blaschke.lean ====
section
/-! DEFINITION. The Blaschke product engine: the primitive functions and the BL commands of
43_blaschke.md. -/

namespace Sys2Proof.Machine

/-! ## Primitive functions (43_blaschke.md section 1) -/

/-- The active factors, in ascending order (10_state.md R23). -/
def activeFactors (x : Slot) : List Mob := x.factor.toList.take x.count

/-- `bl_append` (R200): past the capacity MAX_FACTORS = 6 nothing changes. -/
def blAppend (x : Slot) (t : Mob) : Slot :=
  if h : x.count < 6 then
    { x with factor := x.factor.set x.count t h, count := x.count + 1 }
  else x

/-- The appends of BL.MUL, in order (R204). -/
def blAppendAll (x : Slot) (ts : List Mob) : Slot := ts.foldl blAppend x

/-- The running product of `bl_eval` over the factors left, with the running product on the left and the
flags so far (R201). -/
def blProduct (z : Cx) : List Mob → Flagged Cx → Flagged Cx
  | [], p => p
  | t :: ts, p =>
    let fz := mobApply t z
    let q := cxMul p.val fz.val
    blProduct z ts ⟨q.val, Flags.all [p.flags, fz.flags, q.flags]⟩

/-- `bl_eval` (R201): the product from ONE_C in ascending order, then the frame, always. -/
def blEval (x : Slot) (z : Cx) : Flagged Cx :=
  let p := blProduct z (activeFactors x) (plain .one)
  let r := mobApply x.frame p.val
  ⟨r.val, p.flags.or r.flags⟩

/-- The flags of right-composing each factor of a list (R205). -/
def rcompFlags (s : Mob) : List Mob → Flags
  | [] => .none
  | t :: ts => (mobCompose t s).flags.or (rcompFlags s ts)

/-- BL.RCOMP's new slot (R205): every active factor right-composed, the others and the frame kept. -/
def blRcomp (x : Slot) (s : Mob) : Flagged Slot :=
  ⟨{ x with factor := Vector.ofFn fun k =>
      if k.val < x.count then (mobCompose x.factor[k] s).val else x.factor[k] },
    rcompFlags s (activeFactors x)⟩

/-- BL.LCOMP's new slot (R206): only the frame changes. -/
def blLcomp (x : Slot) (t : Mob) : Flagged Slot :=
  let fr := mobCompose t x.frame
  ⟨{ x with frame := fr.val }, fr.flags⟩

/-! ## Commands (43_blaschke.md section 2) -/

/-- BL.CLR (R202). -/
def execBlClr (b : BReg) (s : State) : Result := doneB s b (plain .empty)

/-- BL.APPEND (R203). -/
def execBlAppend (b : BReg) (ma : MReg) (s : State) : Result :=
  doneB s b (plain (blAppend (s.getB b) (s.getM ma)))

/-- BL.MUL (R204): the source's active factors are read before any write. -/
def execBlMul (bd bs : BReg) (s : State) : Result :=
  doneB s bd (plain (blAppendAll (s.getB bd) (activeFactors (s.getB bs))))

/-- BL.RCOMP (R205). -/
def execBlRcomp (b : BReg) (ma : MReg) (s : State) : Result := doneB s b (blRcomp (s.getB b) (s.getM ma))

/-- BL.LCOMP (R206). -/
def execBlLcomp (b : BReg) (ma : MReg) (s : State) : Result := doneB s b (blLcomp (s.getB b) (s.getM ma))

/-- BL.EVAL (R207). -/
def execBlEval (zd : ZReg) (b : BReg) (zs : ZReg) (s : State) : Result :=
  doneZ s zd (blEval (s.getB b) (s.getZ zs))

/-- BL.COUNT (R208). -/
def execBlCount (fd : FReg) (b : BReg) (s : State) : Result :=
  doneF s fd (plain (BitVec.ofNat 32 (s.getB b).count))

/-- BL.GETF (R209): inactive factors too, with their stored `isId`. -/
def execBlGetf (md : MReg) (b : BReg) (k : Fin 6) (s : State) : Result :=
  doneM s md (plain (s.getB b).factor[k])

/-- BL.FRAME (R210). -/
def execBlFrame (md : MReg) (b : BReg) (s : State) : Result := doneM s md (plain (s.getB b).frame)

end Sys2Proof.Machine
end

