-- ==== Sys2Proof/Machine/Sampler.lean ====
section
/-! DEFINITION. The bilinear interpolator and the boundary-policy sampler, with PX.BLEND and PX.SAMPLE
(44_sampler.md). -/

namespace Sys2Proof.Machine

/-! ## The blend (44_sampler.md R220, R221) -/

/-- Channel `c` of a pixel: 0 blue, 1 green, 2 red, 3 alpha (20_memory.md R61). -/
def chan (p : Word) (c : Nat) : Nat := (p.extractLsb' (8 * c) 8).toNat

/-- A corner's weight from its two opposite distances, truncated to 16 fractional bits (R220). -/
def cornerWeight (x y : Nat) : Nat := x * y / 2 ^ 16

/-- One channel of `px_blend` (R221): the weighted sum, rounded half up and clamped to 255. -/
def blendChan (p00 p10 p01 p11 : Word) (fx fy c : Nat) : Nat :=
  let gx := 0x10000 - fx
  let gy := 0x10000 - fy
  let acc := chan p00 c * cornerWeight gx gy + chan p10 c * cornerWeight fx gy
    + chan p01 c * cornerWeight gx fy + chan p11 c * cornerWeight fx fy
  min 255 ((acc + 0x8000) / 2 ^ 16)

/-- `px_blend` (R221), for weights below 0x10000. -/
def pxBlend (p00 p10 p01 p11 : Word) (fx fy : Nat) : Word :=
  BitVec.ofNat 8 (blendChan p00 p10 p01 p11 fx fy 3) ++ BitVec.ofNat 8 (blendChan p00 p10 p01 p11 fx fy 2)
    ++ BitVec.ofNat 8 (blendChan p00 p10 p01 p11 fx fy 1)
    ++ BitVec.ofNat 8 (blendChan p00 p10 p01 p11 fx fy 0)

/-! ## The sampler (44_sampler.md R222) -/

/-- Step 4 of `px_sample` (R222): base indices, +1 neighbours, fractional weights. -/
structure SamplePoint where
  bx : Nat
  bY : Nat
  bx1 : Nat
  bY1 : Nat
  fx : Nat
  fy : Nat
  deriving DecidableEq, Repr

/-- Step 2 (R222): the boundary policy, giving an unsigned Q16.16 in [0, 0x10000]. -/
def policyCoord (p : Policy) (u : Word) : Nat :=
  match p with
  | .tile => u.toNat % 2 ^ 16
  | .clamp => (min (max u.toInt 0) 0x10000).toNat

/-- The "+1" neighbour of an index under the policy (R222 step 4). -/
def nextIndex (p : Policy) (b n : Nat) : Nat :=
  match p with
  | .tile => (b + 1) % n
  | .clamp => min (b + 1) (n - 1)

/-- Steps 1 to 4 of `px_sample` (R222); only the two multiplies of step 1 set a flag. At ONE_C under clamp with
ASPECT 1.0 this is pixel (W−1, 0); 45_render.md R240's corner case says (W−1, H−1), and the pseudocode is followed
(DEDUCED, log 22). -/
def samplePoint (v : View) (w : Cx) : Flagged SamplePoint :=
  let ur := fxMul w.re v.aspectX
  let vr := fxMul w.im v.aspectY
  let x := policyCoord v.policy ur.val * (v.srcW.toNat - 1)
  let y := policyCoord v.policy vr.val * (v.srcH.toNat - 1)
  let bx := x / 2 ^ 16
  let bY := y / 2 ^ 16
  ⟨{ bx := bx, bY := bY
     bx1 := nextIndex v.policy bx v.srcW.toNat, bY1 := nextIndex v.policy bY v.srcH.toNat
     fx := x % 2 ^ 16, fy := y % 2 ^ 16 }, ur.flags.or vr.flags⟩

/-- The address of source pixel (x, y) (10_state.md R34, 44_sampler.md R222 step 5). -/
def srcAddr (v : View) (x y : Nat) : Word :=
  BitVec.ofNat 32 (v.srcBase.toNat + 4 * (y * v.srcW.toNat + x))

/-- The addresses of the four reads, performed always (R222 step 5). -/
def sampleAddrs (v : View) (w : Cx) : List Word :=
  let g := (samplePoint v w).val
  [srcAddr v g.bx g.bY, srcAddr v g.bx1 g.bY, srcAddr v g.bx g.bY1, srcAddr v g.bx1 g.bY1]

/-- All four reads are admitted (20_memory.md R64). -/
def sampleAdmitted (p : Platform) (v : View) (w : Cx) : Bool := (sampleAddrs v w).all (memAdmit p)

/-- `px_sample` (R222), for a sample whose reads are admitted. -/
def pxSample (m : Memory) (v : View) (w : Cx) : Flagged Word :=
  let g := samplePoint v w
  let px := fun x y => readWord m (srcAddr v x y)
  ⟨pxBlend (px g.val.bx g.val.bY) (px g.val.bx1 g.val.bY) (px g.val.bx g.val.bY1)
      (px g.val.bx1 g.val.bY1) g.val.fx g.val.fy, g.flags⟩

/-! ## Commands (44_sampler.md section 2) -/

/-- PX.BLEND (R224): four registers from `fa` on, wrapping; the low halves of `fx` and `fy` as weights. -/
def execPxBlend (fd fa fx fy : FReg) (s : State) : Result :=
  doneF s fd (plain (pxBlend (s.getF (groupReg fa 0)) (s.getF (groupReg fa 1)) (s.getF (groupReg fa 2))
    (s.getF (groupReg fa 3)) (weightOf (s.getF fx)) (weightOf (s.getF fy))))

/-- PX.SAMPLE (R225), with the configuration check of R223 first; a fault changes no register and no
flag (60_exceptions.md R286). -/
def execPxSample (fd : FReg) (zs : ZReg) (s : State) : Result :=
  if !s.view.srcOk then faulted s .badConfig
  else if !aligned s.view.srcBase then faulted s .misaligned
  else if !sampleAdmitted s.platform s.view (s.getZ zs) then faulted s .busError
  else doneF s fd (pxSample s.mem s.view (s.getZ zs))

end Sys2Proof.Machine
end

