-- ==== Sys2Proof/Machine/Flow.lean ====
section
/-! DEFINITION. Which places a command reads and writes, and how data flows from place to place in a run: what
93_implementation_defined.md U9 means by "computed from" (log 9). No command's meaning is here. -/

namespace Sys2Proof.Machine

/-! ## The places of a command (10_state.md R24 and the operands of each command) -/

/-- The register or CSR a command writes. -/
def targetOf : Instr → Option Place
  | .nop => none
  | .halt => none
  | .csrr fd _ => some (.f fd)
  | .csrw c _ => some (.csr c)
  | .ldW fd _ => some (.f fd)
  | .pxOrw _ _ => none
  | .fxAdd fd _ _ => some (.f fd)
  | .fxSub fd _ _ => some (.f fd)
  | .fxMul fd _ _ => some (.f fd)
  | .fxDiv fd _ _ => some (.f fd)
  | .fxNeg fd _ => some (.f fd)
  | .fxFrac fd _ => some (.f fd)
  | .fxInt fd _ => some (.f fd)
  | .fxCmp fd _ _ => some (.f fd)
  | .fxNot fd _ => some (.f fd)
  | .fxTou fd _ => some (.f fd)
  | .fxFromi fd _ => some (.f fd)
  | .fxLih fd _ => some (.f fd)
  | .fxLil fd _ => some (.f fd)
  | .cxAdd zd _ _ => some (.z zd)
  | .cxSub zd _ _ => some (.z zd)
  | .cxMul zd _ _ => some (.z zd)
  | .cxDiv zd _ _ => some (.z zd)
  | .cxConj zd _ => some (.z zd)
  | .cxGuard zd _ => some (.z zd)
  | .cxPack zd _ _ => some (.z zd)
  | .cxRe fd _ => some (.f fd)
  | .cxIm fd _ => some (.f fd)
  | .mobSet md _ _ _ _ => some (.m md)
  | .mobId md => some (.m md)
  | .mobHyp md _ => some (.m md)
  | .mobComp md _ _ => some (.m md)
  | .mobInv md _ => some (.m md)
  | .mobApply zd _ _ => some (.z zd)
  | .mobGet zd _ _ => some (.z zd)
  | .mobIsid fd _ => some (.f fd)
  | .blClr b => some (.bl b)
  | .blAppend b _ => some (.bl b)
  | .blMul bd _ => some (.bl bd)
  | .blRcomp b _ => some (.bl b)
  | .blLcomp b _ => some (.bl b)
  | .blEval zd _ _ => some (.z zd)
  | .blCount fd _ => some (.f fd)
  | .blGetf md _ _ => some (.m md)
  | .blFrame md _ => some (.m md)
  | .pxBlend fd _ _ _ => some (.f fd)
  | .pxSample fd _ => some (.f fd)
  | .render _ => none

/-- The view CSRs that the sampler reads (10_state.md R34 to R37), and those of the renderer (R38 to R41). -/
def samplerPlaces : List Place := [.srcBase, .srcW, .srcH, .aspectX, .aspectY, .policy].map .csr
def rendererPlaces : List Place := [.dstBase, .dstW, .dstH, .u0, .v0, .du, .dv].map .csr

/-- The places a command computes from: its operands, an address among them, and what it reads from memory. For
FX.LIH and FX.LIL that is the command word, which holds their immediate; for RENDER the source words of a pixel
come to these (`pixelSources`). -/
def sourcesOf (s : State) : Instr → List Place
  | .nop => []
  | .halt => []
  | .csrr _ c => [.csr c]
  | .csrw _ fs => [.f fs]
  | .ldW _ fa => [.word (s.getF fa), .f fa]
  | .pxOrw fv fa => [.f fv, .f fa]
  | .fxAdd _ fa fb => [.f fa, .f fb]
  | .fxSub _ fa fb => [.f fa, .f fb]
  | .fxMul _ fa fb => [.f fa, .f fb]
  | .fxDiv _ fa fb => [.f fa, .f fb]
  | .fxNeg _ fa => [.f fa]
  | .fxFrac _ fa => [.f fa]
  | .fxInt _ fa => [.f fa]
  | .fxCmp _ fa fb => [.f fa, .f fb]
  | .fxNot _ fa => [.f fa]
  | .fxTou _ fa => [.f fa]
  | .fxFromi _ fa => [.f fa]
  | .fxLih _ _ => [.word s.pc]
  | .fxLil fd _ => [.f fd, .word s.pc]
  | .cxAdd _ za zb => [.z za, .z zb]
  | .cxSub _ za zb => [.z za, .z zb]
  | .cxMul _ za zb => [.z za, .z zb]
  | .cxDiv _ za zb => [.z za, .z zb]
  | .cxConj _ za => [.z za]
  | .cxGuard _ za => [.z za]
  | .cxPack _ fre fim => [.f fre, .f fim]
  | .cxRe _ za => [.z za]
  | .cxIm _ za => [.z za]
  | .mobSet _ za zb zc zd => [.z za, .z zb, .z zc, .z zd]
  | .mobId _ => []
  | .mobHyp _ zs => [.z zs]
  | .mobComp _ ma mb => [.m ma, .m mb]
  | .mobInv _ ma => [.m ma]
  | .mobApply _ ma zs => [.m ma, .z zs]
  | .mobGet _ ma _ => [.m ma]
  | .mobIsid _ ma => [.m ma]
  | .blClr _ => []
  | .blAppend b ma => [.bl b, .m ma]
  | .blMul bd bs => [.bl bd, .bl bs]
  | .blRcomp b ma => [.bl b, .m ma]
  | .blLcomp b ma => [.bl b, .m ma]
  | .blEval _ b zs => [.bl b, .z zs]
  | .blCount _ b => [.bl b]
  | .blGetf _ b _ => [.bl b]
  | .blFrame _ b => [.bl b]
  | .pxBlend _ fa fx fy => ([0, 1, 2, 3].map fun n => .f (groupReg fa n)) ++ [.f fx, .f fy]
  | .pxSample _ zs => .z zs :: samplerPlaces ++ (sampleAddrs s.view (s.getZ zs)).map .word
  | .render b => .bl b :: samplerPlaces ++ rendererPlaces

/-- The command puts a pixel in an F register: it makes one (PX.SAMPLE, PX.BLEND) or loads a word of memory. -/
def putsPixel : Instr → Bool
  | .ldW _ _ | .pxBlend _ _ _ _ | .pxSample _ _ => true
  | _ => false

/-- The command may set a sticky flag when it executes (10_state.md R26); RENDER's pixels do so in their own
steps. -/
def setsFlags : Instr → Bool
  | .fxAdd _ _ _ | .fxSub _ _ _ | .fxMul _ _ _ | .fxDiv _ _ _ | .fxNeg _ _ | .fxFromi _ _ => true
  | .cxAdd _ _ _ | .cxSub _ _ _ | .cxMul _ _ _ | .cxDiv _ _ _ | .cxConj _ _ => true
  | .mobHyp _ _ | .mobComp _ _ _ | .mobInv _ _ | .mobApply _ _ _ => true
  | .blRcomp _ _ | .blLcomp _ _ | .blEval _ _ _ => true
  | .pxSample _ _ => true
  | _ => false

/-! ## Marks -/

/-- The words that are marked. -/
def Marks.words (ms : Marks) : List Word := ms.filterMap fun | .word a => some a | _ => none

/-- The marks on other places. -/
def Marks.drop (ms : Marks) (p : Place) : Marks := ms.filter (· != p)

/-- The marks after a transfer: a place computed from a marked one is marked, and a register written otherwise is
no longer. A word is ORed into, so it stays marked, and so do the sticky flags. -/
def carry (e : Transfer) (ms : Marks) : Marks :=
  match e with
  | .reg t src _ => if src.any ms.contains then t :: ms.drop t else ms.drop t
  | .flags src => if src.any ms.contains then Place.csr .status :: ms.drop (.csr .status) else ms
  | .word a src _ => if src.any ms.contains then Place.word a :: ms.drop (.word a) else ms

/-- The marks at the end of a flow that begins with `ms`: the newest transfer stands first. -/
def spread (flow : List Transfer) (ms : Marks) : Marks := flow.foldr carry ms

/-- A word and everything computed from it, directly or through another place (U9). -/
def computedFrom (flow : List Transfer) (w : Word) : Marks := spread flow [.word w]

/-- The value in F register `r` is a pixel: the last command of the run that wrote it put one there. -/
def holdsPixel (flow : List Transfer) (r : FReg) : Bool :=
  (flow.findSome? fun | .reg t _ pixel => if t = .f r then some pixel else none | _ => none) = some true

end Sys2Proof.Machine
end

