-- ==== Sys2Proof/Machine/Render.lean ====
section
/-! DEFINITION. The parallel row processor (45_render.md): RENDER's fork, one pixel step of a worker, and the
join; with the overlap premise (20_memory.md R76, U8) and the bus error (R248, U10, U11). -/

namespace Sys2Proof.Machine

/-! ## Workers (45_render.md R242 to R246) -/

/-- The partition: worker `k` of `n` at the start of its rows of a destination of `h` rows; the last one
also takes the remainder (R242). -/
def forkWorkers (n h : Nat) : List Worker :=
  (List.range n).map fun k =>
    { index := k, row := k * (h / n), rowEnd := if k + 1 = n then h else (k + 1) * (h / n), col := 0 }

/-- A worker with pixels left (R244). -/
def Worker.live (x : Worker) : Bool := decide (x.row < x.rowEnd)

/-- The worker at its next pixel, row-major in a destination of `w` columns (R244). -/
def Worker.next (w : Nat) (x : Worker) : Worker :=
  if x.col + 1 < w then { x with col := x.col + 1 } else { x with row := x.row + 1, col := 0 }

/-- The workers after worker number `k` of the list has become `x`: it leaves when it has no pixels left. -/
def putWorker (k : Nat) (x : Worker) (ws : List Worker) : List Worker :=
  if x.live then ws.set k x else ws.eraseIdx k

/-- The pixels (column, row) a worker still has to do, in its own order (R244). -/
def workerPixels (dstW : Nat) (x : Worker) : List (Nat × Nat) :=
  ((List.range (x.rowEnd - x.row)).flatMap fun r =>
    (List.range dstW).map fun i => (i, x.row + r)).drop x.col

/-! ## The overlap premise (20_memory.md R76) -/

/-- How many words a source or destination has (10_state.md R34, R38). -/
def srcWords (v : View) : Nat := v.srcW.toNat * v.srcH.toNat
def dstWords (v : View) : Nat := v.dstW.toNat * v.dstH.toNat

/-- Two aligned ranges of `na` and `nb` words, which may wrap, share a word (20_memory.md R66, R76). -/
def rangesMeet (a : Word) (na : Nat) (b : Word) (nb : Nat) : Bool :=
  decide (0 < na) && decide (0 < nb) && (decide ((b - a).toNat < 4 * na) || decide ((a - b).toNat < 4 * nb))

/-- A run ends at this word whatever the registers hold: it is not admitted, it is no command, or it is
HALT (46_system.md R260, R266). -/
def endsRun (s : State) (a : Word) : Bool :=
  !memAdmit s.platform a || (match decode (readWord s.mem a) with
    | .ok i => decide (i = .halt)
    | .error _ => true)

/-- The words among which the first one that ends the run is found: those of the listed bytes, since an
unlisted word is NOP, and those behind the admitted ranges. -/
def endCandidates (s : State) : List Word :=
  s.mem.map (fun c => wordOf (BitVec.ofNat 32 c.1)) ++
    s.platform.admitRanges.map fun r => BitVec.ofNat 32 (4 * ((r.2 + 3) / 4))

/-- How many words the command list still has from the word at `a` on, the one that ends it included: 00_scope.md
R14, "the words from `CMD_PC` onward, up to a HALT" (log 6). -/
def wordsFrom (s : State) (a : Word) : Nat :=
  (endCandidates s).foldl (fun n e => if endsRun s e then min n ((e - a).toNat / 4 + 1) else n) (2 ^ 30)

/-- The command list behind a command that has been fetched (log 6). -/
def wordsAhead (s : State) : Nat := wordsFrom s (s.pc + 4#32)

/-- The destination meets this range. -/
def dstMeets (s : State) (r : Word × Nat) : Bool := rangesMeet s.view.dstBase (dstWords s.view) r.1 r.2

/-- The overlap premise fails at a RENDER: its destination meets its source, or the command words of the
run, which are those it has fetched, the rest of its command list, and every word it comes to fetch (R76
conditions 1 and 2, log 6). -/
def overlapBroken (s : State) : Bool :=
  dstMeets s (s.view.srcBase, srcWords s.view) || dstMeets s (s.run.start, s.run.fetched + wordsAhead s)
    || dstMeets s (s.run.start, s.run.reach)

/-! ## The per-pixel step (45_render.md R241, R247) -/

/-- The plane coordinate of pixel (i, j) (R241): no flags, wrapping. -/
def pixelCoord (v : View) (i j : Nat) : Cx :=
  ⟨BitVec.ofInt 32 (v.u0.toInt + i * v.du.toInt), BitVec.ofInt 32 (v.v0.toInt + j * v.dv.toInt)⟩

/-- The address of destination pixel (i, j) (10_state.md R38, 45_render.md R247). -/
def dstAddr (v : View) (i j : Nat) : Word :=
  BitVec.ofNat 32 (v.dstBase.toNat + 4 * (j * v.dstW.toNat + i))

/-- What one pixel step does (R247): the word it ORs into, the words it reads, the pixel p(i, j), the flags
of its map and sample, and whether its reads and its `MemOr` are admitted. -/
structure PixelStep where
  addr : Word
  sources : List Word
  value : Word
  flags : Flags
  readsAdmitted : Bool
  writeAdmitted : Bool
  deriving DecidableEq, Repr

/-- The step of pixel (i, j) with slot `b` (R247). An empty slot gives ONE_C, that is (1.0, 0), so under clamp with
ASPECT 1.0 every pixel samples (W−1, 0): R201 and R222 as they compute it, not the (W−1, H−1) of R240's corner
case (DEDUCED, log 22). -/
def pixelStep (s : State) (b : BReg) (i j : Nat) : PixelStep :=
  let w := blEval (s.getB b) (pixelCoord s.view i j)
  let p := pxSample s.mem s.view w.val
  { addr := dstAddr s.view i j, sources := sampleAddrs s.view w.val, value := p.val
    flags := w.flags.or p.flags, readsAdmitted := sampleAdmitted s.platform s.view w.val
    writeAdmitted := memAdmit s.platform (dstAddr s.view i j) }

/-- The places a pixel is computed from: the slot, the view and the four source words (R247). -/
def pixelSources (s : State) (b : BReg) (p : PixelStep) : List Place :=
  sourcesOf s (.render b) ++ p.sources.map .word

/-- The pixel writes a word, or is computed from one, that a host write has raced with: it is any value (U9). -/
def pixelRaced (s : State) (b : BReg) (p : PixelStep) : Bool :=
  (.word p.addr :: pixelSources s b p).any s.run.tainted.contains

/-- The memory after the `MemOr` of a pixel (R247), which is any value where the overlap premise fails (U8)
or a host write has raced (U9). -/
def pixelMem (r : Rendering) (s : State) (p : PixelStep) : Memory :=
  if r.overlap || pixelRaced s r.slot p then writeWord s.mem p.addr (Config.freeWord s.freeCount 0)
  else orWord s.mem p.addr p.value

/-- What a pixel does to the data of the run. -/
def pixelTransfers (r : Rendering) (s : State) (p : PixelStep) : List Transfer :=
  [.word p.addr (pixelSources s r.slot p) (readWord s.mem p.addr), .flags (pixelSources s r.slot p)]

/-- The record of the run with further transfers. -/
def RunLog.add (l : RunLog) (es : List Transfer) : RunLog :=
  { l with flow := es ++ l.flow, tainted := spread es l.tainted }

/-- The flags collected for the join after a pixel was computed; after a bus error no more are (U11). DESIGN CHOICE
(log 7): a pixel of another worker counts as computed before the fault when its whole step comes before the step that
fails first, so not one that has read its source by then and whose `MemOr` is still to come (20_memory.md R71). -/
def Rendering.collect (r : Rendering) (x : Flags) : Flags := if r.broken then r.flags else r.flags.or x

/-- Worker number `k`, which stands at `x`, does its pixel. An access that is not admitted is not
performed: the worker stops, and the RENDER is broken (R248). -/
def pixelMove (r : Rendering) (s : State) (k : Nat) (x : Worker) : State :=
  let p := pixelStep s r.slot x.col x.row
  if p.readsAdmitted && p.writeAdmitted then
    { s with
        mem := pixelMem r s p
        run := s.run.add (pixelTransfers r s p)
        rendering := some { r with
          workers := putWorker k (x.next s.view.dstW.toNat) r.workers, flags := r.collect p.flags } }
  else
    { s with rendering := some { r with
        workers := r.workers.eraseIdx k, broken := true
        flags := if p.readsAdmitted then r.collect p.flags else r.flags } }

/-- One worker moves (70_reset_and_hazards.md R330): any live one (U13). After a bus error it may stop at
this pixel boundary instead (R248). -/
def moveWorker (r : Rendering) (s : State) : State :=
  let k := choose (Config.nextWorker s.freeCount) r.workers.length
  match r.workers[k]? with
  | none => s
  | some x =>
    if r.broken && Config.workerStops s.freeCount then
      { s with rendering := some { r with workers := r.workers.eraseIdx k } }
    else pixelMove r s k x

/-! ## The end of a RENDER -/

/-- The flags that a RENDER ended by a bus error leaves, of those the pixels before it had set: any of them
(R248, U11; draw `d`). -/
def flagsSeen (d : Nat) (x : Flags) : Flags := ⟨x.ov && Config.ovSeen d, x.dz && Config.dzSeen d⟩

/-- The workers are gone. Where the overlap premise fails, every destination word holds any value (U8). -/
def State.endRender (s : State) (r : Rendering) : State :=
  { s with
      rendering := none
      mem := if r.overlap then freeWords s.freeCount s.mem (rangeWords (s.view.dstBase, dstWords s.view)) else s.mem
      freeCount := s.freeCount + 1 }

/-- The join of a RENDER (R246): completion with the flags of every pixel (R249), or BUS_ERROR (R248). -/
def join (r : Rendering) (s : State) : Result :=
  let t := s.endRender r
  if r.broken then faulted (t.addFlags (flagsSeen s.freeCount r.flags)) .busError
  else complete (t.addFlags r.flags)

/-- The join, once no worker is live (R246); until then the RENDER goes on. -/
def joinWhenDone (s : State) : Result :=
  match s.rendering with
  | none => .next s
  | some r => if r.workers.isEmpty then join r s else .next s

/-- One step of a RENDER that is running. -/
def workerStep (r : Rendering) (s : State) : Result :=
  joinWhenDone { moveWorker r s with freeCount := s.freeCount + 1 }

/-! ## The command (45_render.md R240) -/

/-- The cause of the first upfront check that fails, in their order (R240, 60_exceptions.md R282). -/
def renderCheck (v : View) : Option Cause :=
  if !(v.srcOk && v.dstOk) then some .badConfig
  else if !(aligned v.srcBase && aligned v.dstBase) then some .misaligned
  else none

/-- The RENDER that the fork of R240 starts: the workers that own rows, at their first pixels. -/
def forkRender (b : BReg) (s : State) : Rendering :=
  { slot := b, workers := (forkWorkers s.platform.numWorkers.toNat s.view.dstH.toNat).filter Worker.live
    flags := .none, overlap := overlapBroken s, broken := false }

/-- The state after the fork of R240: `pc` stays until the join (R246). -/
def State.fork (s : State) (b : BReg) : State := { s with rendering := some (forkRender b s) }

/-- RENDER (R240): its checks and its fork; the pixels and the join are the steps after it
(70_reset_and_hazards.md R330). A platform record without workers is outside 00_scope.md R5 (log 11). -/
def execRender (b : BReg) (s : State) : Result :=
  match renderCheck s.view with
  | some c => faulted s c
  | none => if s.platform.numWorkers = 0#8 then .fault .noWorkers else .next (s.fork b)

end Sys2Proof.Machine
end

