-- ==== Sys2Proof/Machine/System.lean ====
section
/-! DEFINITION. The system commands: NOP, HALT, CSRR, CSRW, LD.W, PX.ORW (46_system.md). -/

namespace Sys2Proof.Machine

/-- NOP (R261). -/
def execNop (s : State) : Result := complete s

/-- HALT (R262): `pc` advances, DONE is set, the run ends. -/
def execHalt (s : State) : Result :=
  .next { s.advance with status := { s.status with done := true, busy := false } }

/-- CSRR (R263). -/
def execCsrr (fd : FReg) (csr : Csr) (s : State) : Result := doneF s fd (plain (readCsr s csr))

/-- CSRW (R264). A CSR that commands may not write has no encoding here; the word faults with ILLEGAL_CSR
(30_encoding.md R98), and so does the ill-formed instruction. -/
def execCsrw (csr : Csr) (fs : FReg) (s : State) : Result :=
  if csr.writable then complete (s.setView (writeView s.view csr (s.getF fs))) else faulted s .illegalCsr

/-- LD.W (R265). -/
def execLdW (fd fa : FReg) (s : State) : Result :=
  match accessCheck s (s.getF fa) with
  | some c => faulted s c
  | none => doneF s fd (plain (readWord s.mem (s.getF fa)))

/-- PX.ORW (R267). -/
def execPxOrw (fv fa : FReg) (s : State) : Result :=
  match accessCheck s (s.getF fa) with
  | some c => faulted s c
  | none => complete (s.setMem (orWord s.mem (s.getF fa) (s.getF fv)))

end Sys2Proof.Machine
end

