-- ==== Sys2Proof/Machine/Race.lean ====
section
/-! DEFINITION. What a host access to memory during a run leaves open (20_memory.md R72, R76 condition 3,
93_implementation_defined.md U9, log 9). No command's meaning is here: the step keeps the record. -/

namespace Sys2Proof.Machine

/-! ## What a run uses -/

/-- The ranges a command uses if its checks let it (R72, R76): of PX.SAMPLE the whole source, of RENDER the whole
source and destination (U9: "source or destination"). -/
def usedBy (s : State) : Instr → List (Word × Nat)
  | .ldW _ fa => if (accessCheck s (s.getF fa)).isNone then [(s.getF fa, 1)] else []
  | .pxOrw _ fa => if (accessCheck s (s.getF fa)).isNone then [(s.getF fa, 1)] else []
  | .pxSample _ _ =>
    if s.view.srcOk && aligned s.view.srcBase then [(s.view.srcBase, srcWords s.view)] else []
  | .render _ =>
    if (renderCheck s.view).isNone then
      [(s.view.srcBase, srcWords s.view), (s.view.dstBase, dstWords s.view)] else []
  | _ => []

/-- The command list of the run: the words fetched, and those from the next command on up to a HALT (log 6). -/
def commandList (s : State) : Word × Nat :=
  (s.run.start, s.run.fetched + if s.rendering.isSome then wordsAhead s else wordsFrom s s.pc)

/-- The rest of the command list has a word that decodes to such a command; an unlisted word is NOP. -/
def listHas (s : State) (p : Instr → Bool) : Bool :=
  let next := if s.rendering.isSome then s.pc + 4#32 else s.pc
  s.mem.any fun c =>
    let a := wordOf (BitVec.ofNat 32 c.1)
    rangeHas a (next, wordsFrom s next) &&
      match decode (readWord s.mem a) with
      | .ok i => p i
      | .error _ => false

/-- The source and destination that the rest of the command list is about to use, as the view has them now. -/
def buffersAhead (s : State) : List (Word × Nat) :=
  (if listHas s (fun | .render _ => true | _ => false) then usedBy s (.render 0) else []) ++
    if listHas s (fun | .pxSample _ _ => true | _ => false) then usedBy s (.pxSample 0 0) else []

/-- The run uses this word (U9: "the command list, source or destination"): a command has used it or comes to use
it, by the record `final` that the run has at its end, or it lies in the command list or in a buffer that the list
would use with the view as it is. -/
def State.isUsed (s : State) (final : State → RunLog) (a : Word) : Bool :=
  (commandList s :: (buffersAhead s ++ s.run.used)).any (rangeHas a) || (final s).used.any (rangeHas a)

/-! ## What a host write makes any value -/

/-- Words that the host has written and the run uses: they and every word of memory computed from them hold any
value (U9). -/
def State.spoil (s : State) (ws : List Word) : State :=
  let ms : Marks := ws.flatMap (computedFrom s.run.flow)
  { s with
      mem := freeWords s.freeCount s.mem ms.words
      freeCount := s.freeCount + 1
      run := { s.run with
        flow := ms.words.map (fun a => .word a [] (readWord s.mem a)) ++ s.run.flow
        raced := s.run.raced.filter fun w => !ws.contains w
        tainted := ms ++ s.run.tainted } }

/-- The F registers that hold a pixel computed from one of these words hold any value (U9). -/
def State.spoilPixels (s : State) (ws : List Word) : State :=
  let ms : Marks := ws.flatMap (computedFrom s.run.flow)
  let hit := (List.finRange 16).filter fun r => ms.contains (.f r) && holdsPixel s.run.flow r
  { hit.foldl (fun t r => t.setF r (Config.freeWord s.freeCount r.val)) s with freeCount := s.freeCount + 1 }

/-- The run uses these ranges: words in them that the host has written during the run hold any value. -/
def State.use (s : State) (rs : List (Word × Nat)) : State :=
  let hit := s.run.raced.filter fun w => rs.any (rangeHas w)
  let t := if hit.isEmpty then s else s.spoil hit
  { t with run := { t.run with used := rs ++ t.run.used } }

/-- A host write to a byte during a run. Where the run uses the word it touches, that word holds any value, and so
does every pixel computed from it, in memory or in a register; else the byte is written (U9). `final` is the record
of the run at its end; should the run use the word all the same, it holds any value from then on. -/
def raceWrite (s : State) (final : State → RunLog) (a : Word) (v : Byte) : State :=
  if s.isUsed final (wordOf a) then (s.spoilPixels [wordOf a]).spoil [wordOf a]
  else { s with mem := writeByte s.mem a.toNat v, run := { s.run with raced := wordOf a :: s.run.raced } }

/-! ## The record of a command -/

/-- A place whose data a host write has raced with is among these (U9). -/
def State.anyTainted (s : State) (ps : List Place) : Bool := ps.any s.run.tainted.contains

/-- What a command is about to do to the data of the run. The pixels of RENDER have their own steps
(`pixelTransfers`). -/
def transfersOf (s : State) (i : Instr) : List Transfer :=
  (match i with
    | .pxOrw _ fa => [.word (s.getF fa) (sourcesOf s i) (readWord s.mem (s.getF fa))]
    | _ => ((targetOf i).map fun p => Transfer.reg p (sourcesOf s i) (putsPixel i)).toList) ++
    if setsFlags i then [.flags (sourcesOf s i)] else []

/-- What the step records before a command executes. -/
def noteUse (i : Instr) (s : State) : State :=
  let t := s.use (usedBy s i)
  { t with run := t.run.add (transfersOf t i) }

/-- The result of a command that computes a pixel from data that a host write has raced with: the word that PX.ORW
wrote and the pixel that PX.SAMPLE or PX.BLEND made are any value (U9). `s` is the state before the command,
`t` the one after. -/
def raceResult (i : Instr) (s t : State) : State :=
  match i with
  | .pxOrw _ fa =>
    if t.status.busy && s.anyTainted [.word (s.getF fa)] then
      { t with mem := writeWord t.mem (s.getF fa) (Config.freeWord t.freeCount 0), freeCount := t.freeCount + 1 }
    else t
  | .pxSample fd _ | .pxBlend fd _ _ _ =>
    if t.status.busy && s.anyTainted [.f fd] then
      { t.setF fd (Config.freeWord t.freeCount 0) with freeCount := t.freeCount + 1 }
    else t
  | _ => t

/-! ## Host reads -/

/-- The values a word has held during the run, without repeats of the one it holds (U9). -/
def heldValues (s : State) (a : Word) : List Word :=
  let v := readWord s.mem a
  v :: s.run.flow.filterMap fun | .word b _ old => if b = a && old != v then some old else none | _ => none

/-- What a host read of a word during a run gets: one of the values it has held (U9). -/
def raceRead (s : State) (a : Word) : Word :=
  let vs := heldValues s a
  vs.getD (choose (Config.heldValue s.freeCount) vs.length) (readWord s.mem a)

end Sys2Proof.Machine
end

