-- ==== Sys2Proof/Machine/Fetch.lean ====
section
/-! DEFINITION. Command fetch (46_system.md R260, 60_exceptions.md R284): its causes, and its record. -/

namespace Sys2Proof.Machine

/-- The cause of a decode error (30_encoding.md R98, 60_exceptions.md R280). A fetch gives four bytes, so
it is never truncated. -/
def causeOf : DecodeError → Cause
  | .illegalOpcode => .illegalOpcode
  | .illegalOperand => .illegalOperand
  | .illegalCsr => .illegalCsr
  | .truncated => .illegalOpcode

/-- What the step records before it fetches the word at `pc`. -/
def State.noteFetch (s : State) : State :=
  let t := s.use [(s.pc, 1)]
  { t with run := { t.run with fetched := t.run.fetched + 1 } }

end Sys2Proof.Machine
end

