-- ==== Sys2Proof/Machine/HostPort.lean ====
section
/-! DEFINITION. What the host does to the block and to memory between two steps of the block: the MMIO
window (10_state.md R27 to R43, 60_exceptions.md R293 to R296), memory (20_memory.md R62, R72), and reset
(70_reset_and_hazards.md R320, R321). -/

namespace Sys2Proof.Machine

/-! ## The MMIO window -/

/-- What an aligned offset of the window reaches (10_state.md R27, R43). -/
inductive MmioTarget where
  | csr (c : Csr)
  | f (r : FReg)
  | zRe (r : ZReg)
  | zIm (r : ZReg)
  | unmapped
  deriving DecidableEq, Repr

/-- Decode a byte offset of the window: CSRs at 4 × number, F at 0x100 + 4i, Z at 0x200 + 8i (R27, R43). -/
def mmioTarget (o : Nat) : MmioTarget :=
  if o < 0x100 then
    match csrOfNumber (BitVec.ofNat 16 (o / 4)) with
    | some c => .csr c
    | none => .unmapped
  else if h : (o - 0x100) / 4 < 16 then .f ⟨(o - 0x100) / 4, h⟩
  else if o < 0x200 then .unmapped
  else if h : (o - 0x200) / 8 < 16 then
    if o % 8 = 0 then .zRe ⟨(o - 0x200) / 8, h⟩ else .zIm ⟨(o - 0x200) / 8, h⟩
  else .unmapped

/-- The offset of a bus address in the 1 KiB window at MMIO_BASE; none outside it (R27, 60_exceptions.md
R293). DESIGN CHOICE (log 20): the spec gives neither the width of the host's bus nor an alignment of
MMIO_BASE; here bus addresses have 32 bits, the window may wrap modulo 2^32, and the alignment of an access
is that of its offset. -/
def mmioOffset (p : Platform) (a : Word) : Option Nat :=
  let o := (a - p.mmioBase).toNat
  if o < 1024 then some o else none

/-- A host read of the window (10_state.md R42, R43, 60_exceptions.md R294): the current value. -/
def mmioValue (s : State) : MmioTarget → Word
  | .csr c => readCsr s c
  | .f r => s.getF r
  | .zRe r => (s.getZ r).re
  | .zIm r => (s.getZ r).im
  | .unmapped => 0#32

/-- A host write to CTRL (10_state.md R28, 60_exceptions.md R295): bit 1 sets IE in either case, bit 0
starts a run. -/
def writeCtrl (s : State) (w : Word) : State :=
  let t := { s with ie := w.getLsbD 1 }
  if w.getLsbD 0 then t.start else t

/-- A host write while the block is idle (10_state.md R27). -/
def mmioWriteIdle (s : State) (w : Word) : MmioTarget → State
  | .csr .ctrl => writeCtrl s w
  | .csr .status => s.clearStatus w
  | .csr .errpc => s
  | .csr .id => s
  | .csr .cmdPc => { s with pc := w }
  | .csr c => s.setView (writeView s.view c w)
  | .f r => s.setF r w
  | .zRe r => s.setZ r ⟨w, (s.getZ r).im⟩
  | .zIm r => s.setZ r ⟨(s.getZ r).re, w⟩
  | .unmapped => s

/-- A host write of the window: while BUSY = 1 only a write to CTRL has an effect (60_exceptions.md
R296). -/
def mmioWrite (s : State) (w : Word) (t : MmioTarget) : State :=
  if s.status.busy then (if t = .csr .ctrl then writeCtrl s w else s) else mmioWriteIdle s w t

/-- An aligned access of the window, a refused misaligned one (U5, log 10), or an access of another
device, which does nothing here. -/
def mmioAccess (s : State) (a : Word) (k : MmioTarget → State) : Result :=
  match mmioOffset s.platform a with
  | none => .next s
  | some o => if o % 4 = 0 then .next (k (mmioTarget o)) else .refused .hostMmioMisaligned

/-! ## Memory, from the host's side -/

/-- A host read of a byte; while BUSY = 1 it gets a value that the word held during the run (20_memory.md
R72, U9, log 9). DESIGN CHOICE (log 21): every host access to memory is one byte, so a host that reads a word does
four reads, each with a value of its own that the word held. MEM_ADMIT does not bind the host (DEDUCED, log 16). -/
def hostRead (s : State) (a : Word) : State :=
  if s.status.busy then
    { s with hostData := (byteOfWord (raceRead s (wordOf a)) (a.toNat % 4)).zeroExtend 32
             freeCount := s.freeCount + 1 }
  else { s with hostData := (readByte s.mem a.toNat).zeroExtend 32 }

/-- A host write of a byte; while BUSY = 1 it may race with the run, whose record at its end is `final` (20_memory.md
R72, U9, log 9). DESIGN CHOICE (log 21): a host that writes a word does four writes, between which the block may
move. MEM_ADMIT does not bind the host (DEDUCED, log 16). -/
def hostWrite (s : State) (final : State → RunLog) (a : Word) (v : Byte) : State :=
  if s.status.busy then raceWrite s final a v else { s with mem := writeByte s.mem a.toNat v }

/-! ## Reset -/

/-- The reset values of everything in the block (10_state.md R45), over a memory, a platform and the
model's own fields that reset does not touch. -/
def State.afterReset (s : State) : State :=
  { State.reset with
      mem := s.mem, platform := s.platform, inbox := s.inbox, hostData := s.hostData
      freeCount := s.freeCount }

/-- The reset input (70_reset_and_hazards.md R320, R321). The pixels that a RENDER has done so far stay in
memory, and the others are not done (U12, log 8); where its overlap premise fails, its destination words hold
any value (U8). -/
def hostReset (s : State) : State :=
  match s.rendering with
  | none => s.afterReset
  | some r => (s.endRender r).afterReset

/-! ## The host's move -/

/-- One host operation; `wait` is the block's own move and does nothing here. `final` gives the record that a
run has at its end. -/
def hostMove (op : HostOp) (final : State → RunLog) (s : State) : Result :=
  match op with
  | .wait => .next s
  | .mmioRead a => mmioAccess s a fun t => { s with hostData := mmioValue s t }
  | .mmioWrite a w => mmioAccess s a fun t => mmioWrite s w t
  | .memRead a => .next (hostRead s a)
  | .memWrite a v => .next (hostWrite s final a v)
  | .reset => .next (hostReset s)

end Sys2Proof.Machine
end

