-- ==== Sys2Proof/Machine/Dispatch.lean ====
section
/-! DEFINITION. The dispatch: one arm per constructor of `Instr`, each one call of its meaning. -/

namespace Sys2Proof.Machine

def exec (i : Instr) (s : State) : Host.Outcome State Fault Refusal :=
  match i with
  | .nop => Sys2Proof.Machine.execNop s
  | .halt => Sys2Proof.Machine.execHalt s
  | .csrr fd csr => Sys2Proof.Machine.execCsrr fd csr s
  | .csrw csr fs => Sys2Proof.Machine.execCsrw csr fs s
  | .ldW fd fa => Sys2Proof.Machine.execLdW fd fa s
  | .pxOrw fv fa => Sys2Proof.Machine.execPxOrw fv fa s
  | .fxAdd fd fa fb => Sys2Proof.Machine.execFxAdd fd fa fb s
  | .fxSub fd fa fb => Sys2Proof.Machine.execFxSub fd fa fb s
  | .fxMul fd fa fb => Sys2Proof.Machine.execFxMul fd fa fb s
  | .fxDiv fd fa fb => Sys2Proof.Machine.execFxDiv fd fa fb s
  | .fxNeg fd fa => Sys2Proof.Machine.execFxNeg fd fa s
  | .fxFrac fd fa => Sys2Proof.Machine.execFxFrac fd fa s
  | .fxInt fd fa => Sys2Proof.Machine.execFxInt fd fa s
  | .fxCmp fd fa fb => Sys2Proof.Machine.execFxCmp fd fa fb s
  | .fxNot fd fa => Sys2Proof.Machine.execFxNot fd fa s
  | .fxTou fd fa => Sys2Proof.Machine.execFxTou fd fa s
  | .fxFromi fd fa => Sys2Proof.Machine.execFxFromi fd fa s
  | .fxLih fd imm => Sys2Proof.Machine.execFxLih fd imm s
  | .fxLil fd imm => Sys2Proof.Machine.execFxLil fd imm s
  | .cxAdd zd za zb => Sys2Proof.Machine.execCxAdd zd za zb s
  | .cxSub zd za zb => Sys2Proof.Machine.execCxSub zd za zb s
  | .cxMul zd za zb => Sys2Proof.Machine.execCxMul zd za zb s
  | .cxDiv zd za zb => Sys2Proof.Machine.execCxDiv zd za zb s
  | .cxConj zd za => Sys2Proof.Machine.execCxConj zd za s
  | .cxGuard zd za => Sys2Proof.Machine.execCxGuard zd za s
  | .cxPack zd fre fim => Sys2Proof.Machine.execCxPack zd fre fim s
  | .cxRe fd za => Sys2Proof.Machine.execCxRe fd za s
  | .cxIm fd za => Sys2Proof.Machine.execCxIm fd za s
  | .mobSet md za zb zc zd => Sys2Proof.Machine.execMobSet md za zb zc zd s
  | .mobId md => Sys2Proof.Machine.execMobId md s
  | .mobHyp md zs => Sys2Proof.Machine.execMobHyp md zs s
  | .mobComp md ma mb => Sys2Proof.Machine.execMobComp md ma mb s
  | .mobInv md ma => Sys2Proof.Machine.execMobInv md ma s
  | .mobApply zd ma zs => Sys2Proof.Machine.execMobApply zd ma zs s
  | .mobGet zd ma k => Sys2Proof.Machine.execMobGet zd ma k s
  | .mobIsid fd ma => Sys2Proof.Machine.execMobIsid fd ma s
  | .blClr b => Sys2Proof.Machine.execBlClr b s
  | .blAppend b ma => Sys2Proof.Machine.execBlAppend b ma s
  | .blMul bd bs => Sys2Proof.Machine.execBlMul bd bs s
  | .blRcomp b ma => Sys2Proof.Machine.execBlRcomp b ma s
  | .blLcomp b ma => Sys2Proof.Machine.execBlLcomp b ma s
  | .blEval zd b zs => Sys2Proof.Machine.execBlEval zd b zs s
  | .blCount fd b => Sys2Proof.Machine.execBlCount fd b s
  | .blGetf md b k => Sys2Proof.Machine.execBlGetf md b k s
  | .blFrame md b => Sys2Proof.Machine.execBlFrame md b s
  | .pxBlend fd fa fx fy => Sys2Proof.Machine.execPxBlend fd fa fx fy s
  | .pxSample fd zs => Sys2Proof.Machine.execPxSample fd zs s
  | .render b => Sys2Proof.Machine.execRender b s

end Sys2Proof.Machine
end

