-- ==== Sys2Proof/Machine/Sequencer.lean ====
section
/-! DEFINITION. The moves of the machine (46_system.md R260, 70_reset_and_hazards.md R322, R330): the sequencer's,
the workers' and the host's, and where a run that goes on from a state ends. -/

namespace Sys2Proof.Machine

/-! ## Moves

20_memory.md R76 and 93_implementation_defined.md U9 speak of all that a run fetches and uses, what is still to come
too, so a move takes `final`: the record that the run has at its end when it goes on from a state (logs 6 and 9). -/

/-- Before a RENDER the step records how many words the run fetches in all if that RENDER is well-defined, which is
what condition 2 of the overlap premise is about (20_memory.md R76, log 6). -/
def noteReach (final : State → RunLog) (i : Instr) (s : State) : State :=
  match i with
  | .render _ =>
    let reach := match exec i { s with run := { s.run with reach := 0 } } with
      | .next t => if t.status.busy then (final t).fetched else 0
      | .fault _ => 0
      | .refused _ => 0
    { s with run := { s.run with reach := reach } }
  | _ => s

/-- What the step records before a command executes. -/
def noteCommand (final : State → RunLog) (i : Instr) (s : State) : State := noteReach final i (noteUse i s)

/-- A command executes, with the record the step keeps of the run before it, and what a raced host write
does to its result after it (U9). -/
def runInstr (final : State → RunLog) (i : Instr) (s : State) : Result :=
  match exec i (noteCommand final i s) with
  | .next t => .next (raceResult i (noteCommand final i s) t)
  | .fault f => .fault f
  | .refused r => .refused r

/-- The word at `pc`, which has been fetched, is decoded and executed (46_system.md R260). -/
def runWord (final : State → RunLog) (s : State) : Result :=
  match decode (readWord s.mem s.pc) with
  | .error e => faulted s (causeOf e)
  | .ok i => runInstr final i s

/-- The sequencer's move while BUSY = 1 (46_system.md R260): check the fetch (60_exceptions.md R284), fetch,
decode, execute. -/
def runCommand (final : State → RunLog) (s : State) : Result :=
  match accessCheck s s.pc with
  | some c => faulted s c
  | none => runWord final s.noteFetch

/-- The block's move: idle, it does nothing (70_reset_and_hazards.md R322); while BUSY = 1 it runs a command,
or one pixel of the RENDER that is running (R330). -/
def blockMove (final : State → RunLog) (s : State) : Result :=
  if s.status.busy then
    match s.rendering with
    | some r => workerStep r s
    | none => runCommand final s
  else .next s

/-- The next move: the first operation of the host's list, or the block's own move. -/
def move (final : State → RunLog) (s : State) : Result :=
  match s.inbox with
  | [] => blockMove final s
  | .wait :: rest => blockMove final { s with inbox := rest }
  | op :: rest => hostMove op final { s with inbox := rest }

/-! ## The end of a run -/

/-- The record that the run of `s` has at its end, which is a HALT, a fault, the reset input or a stop; after `n`
moves without an end the run has come round to every word (46_system.md R266: `pc` moves on by 4 alone). -/
def endOfRun : Nat → State → RunLog
  | 0, s => { s.run with fetched := 2 ^ 30, used := [(0#32, 2 ^ 30)] }
  | n + 1, s =>
    if s.inbox.head? = some .reset then s.run
    else match move (endOfRun n) s with
      | .next t => if t.status.busy then endOfRun n t else t.run
      | .fault _ => s.run
      | .refused _ => s.run

/-- Moves enough for a run to come round to every word: 2^30 commands of at most 2^30 pixels each, besides the
host's operations, and as many again for each RENDER among them, whose own record looks ahead. -/
def movesAhead (s : State) : Nat := 2 ^ 92 + s.inbox.length

/-- The record of the run at its end. -/
def finalRecord (s : State) : RunLog := endOfRun (movesAhead s) s

end Sys2Proof.Machine
end

