-- ==== Sys2Proof/Machine/Step.lean ====
section
/-! DEFINITION. One step of the machine (46_system.md R260, 70_reset_and_hazards.md R322, R330), and the
placing of a word where the next step fetches it. -/

namespace Sys2Proof.Machine

/-- One step: the first operation of the host's list, or the block's own move. -/
def step (s : State) : Host.Outcome State Fault Refusal := move finalRecord s

/-- `s` with the table word `w` stored at CMD_PC and a run begun there as START begins one
(60_exceptions.md R295), so that the next step fetches and runs it; it stands for the host's load of a
program (log 4). `pc` must be aligned and admitted, as it is at reset. -/
def State.withFetchWord (s : State) (nbits w : Nat) : State :=
  { s with
      mem := writeWord s.mem s.pc (BitVec.ofNat 32 (w % 2 ^ nbits))
      status := { s.status with busy := true, done := false }
      inbox := [], rendering := none, run := .fresh s.pc }

end Sys2Proof.Machine
end

