-- ==== Sys2Proof/Safety.lean ====
section
/-! DEFINITION. The terms in which claims about the machine are made: what a command leaves unchanged,
how it completes or faults, which register it may write, and the invariant of the machine. -/

namespace Sys2Proof.Machine

/-! ## Frames -/

/-- Every byte of memory reads as before. -/
def MemSame (s t : State) : Prop := ∀ a : Nat, readByte t.mem a = readByte s.mem a

/-- Every byte of memory outside the word at `a` reads as before. -/
def MemSameOutside (s t : State) (a : Word) : Prop :=
  ∀ x : Nat, x ∉ wordBytes a → readByte t.mem x = readByte s.mem x

/-- The four register files are as before (10_state.md R20 to R23). -/
structure FilesSame (s t : State) : Prop where
  f : ∀ q, t.getF q = s.getF q
  z : ∀ q, t.getZ q = s.getZ q
  m : ∀ q, t.getM q = s.getM q
  bl : ∀ q, t.getB q = s.getB q

/-- What no completing command changes: the run's status but for the sticky flags, the registers of the
host's side, the workers, the platform and the model's own fields. -/
structure Kept (s t : State) : Prop where
  busy : t.status.busy = s.status.busy
  doneBit : t.status.done = s.status.done
  err : t.status.err = s.status.err
  errcode : t.status.errcode = s.status.errcode
  ie : t.ie = s.ie
  errpc : t.errpc = s.errpc
  rendering : t.rendering = s.rendering
  platform : t.platform = s.platform
  inbox : t.inbox = s.inbox
  hostData : t.hostData = s.hostData
  run : t.run = s.run
  freeCount : t.freeCount = s.freeCount

/-- The sticky flags after a command that sets OV if `ov` and DZ if `dz` (10_state.md R26). -/
structure FlagsSet (s t : State) (ov dz : Bool) : Prop where
  ov : t.status.ov = (s.status.ov || ov)
  dz : t.status.dz = (s.status.dz || dz)

/-- `t` is `s` after a command that completed: `pc` advanced (10_state.md R25), the flags set, the view
CSRs and memory as before, and everything else kept. The register files are said separately. -/
structure Completed (s t : State) (ov dz : Bool) : Prop where
  pc : t.pc = s.pc + 4#32
  flags : FlagsSet s t ov dz
  view : t.view = s.view
  mem : MemSame s t
  kept : Kept s t

/-- The command completes: F register `r` takes `v`, OV and DZ are set as said, nothing else changes. -/
def CompletesF (i : Instr) (s : State) (r : FReg) (v : Word) (ov dz : Bool) : Prop :=
  ∃ t, exec i s = .next t ∧ t.getF r = v ∧ (∀ q, q ≠ r → t.getF q = s.getF q) ∧
    (∀ q, t.getZ q = s.getZ q) ∧ (∀ q, t.getM q = s.getM q) ∧ (∀ q, t.getB q = s.getB q) ∧
    Completed s t ov dz

/-- The command completes: Z register `r` takes `v`, OV and DZ are set as said, nothing else changes. -/
def CompletesZ (i : Instr) (s : State) (r : ZReg) (v : Cx) (ov dz : Bool) : Prop :=
  ∃ t, exec i s = .next t ∧ t.getZ r = v ∧ (∀ q, q ≠ r → t.getZ q = s.getZ q) ∧
    (∀ q, t.getF q = s.getF q) ∧ (∀ q, t.getM q = s.getM q) ∧ (∀ q, t.getB q = s.getB q) ∧
    Completed s t ov dz

/-- The command completes: M register `r` takes `v`, OV and DZ are set as said, nothing else changes. -/
def CompletesM (i : Instr) (s : State) (r : MReg) (v : Mob) (ov dz : Bool) : Prop :=
  ∃ t, exec i s = .next t ∧ t.getM r = v ∧ (∀ q, q ≠ r → t.getM q = s.getM q) ∧
    (∀ q, t.getF q = s.getF q) ∧ (∀ q, t.getZ q = s.getZ q) ∧ (∀ q, t.getB q = s.getB q) ∧
    Completed s t ov dz

/-- The command completes: slot `r` takes `v`, OV and DZ are set as said, nothing else changes. -/
def CompletesB (i : Instr) (s : State) (r : BReg) (v : Slot) (ov dz : Bool) : Prop :=
  ∃ t, exec i s = .next t ∧ t.getB r = v ∧ (∀ q, q ≠ r → t.getB q = s.getB q) ∧
    (∀ q, t.getF q = s.getF q) ∧ (∀ q, t.getZ q = s.getZ q) ∧ (∀ q, t.getM q = s.getM q) ∧
    Completed s t ov dz

/-! ## Faults -/

/-- `t` is `s` after the fault entry with code `c` (60_exceptions.md R285), with nothing committed (R286). The
model's record of the run is left out: the step writes it when it fetches. -/
structure FaultEntry (s t : State) (c : BitVec 4) : Prop where
  err : t.status.err = true
  errcode : t.status.errcode = c
  errpc : t.errpc = s.pc
  busy : t.status.busy = false
  pc : t.pc = s.pc
  doneBit : t.status.done = s.status.done
  ov : t.status.ov = s.status.ov
  dz : t.status.dz = s.status.dz
  files : FilesSame s t
  view : t.view = s.view
  ie : t.ie = s.ie
  mem : MemSame s t
  rendering : t.rendering = s.rendering
  platform : t.platform = s.platform
  inbox : t.inbox = s.inbox
  hostData : t.hostData = s.hostData
  freeCount : t.freeCount = s.freeCount

/-- The command takes the fault with code `c`. -/
def Faults (i : Instr) (s : State) (c : BitVec 4) : Prop :=
  ∃ t, exec i s = .next t ∧ FaultEntry s t c ∧ t.run = s.run

/-- The exact result is outside RANGE = [−2^31, 2^31) (40_fixed_point.md section 1). -/
def outOfRange (r : Int) : Bool := decide (r < -(2 ^ 31)) || decide (2 ^ 31 ≤ r)

/-- The command completes by writing the view CSRs; nothing else changes (46_system.md R264). -/
def CompletesView (i : Instr) (s : State) (v : View) : Prop :=
  ∃ t, exec i s = .next t ∧ t.view = v ∧ FilesSame s t ∧ t.pc = s.pc + 4#32 ∧ FlagsSet s t false false ∧
    MemSame s t ∧ Kept s t

/-! ## Fetching and decoding -/

/-- The block runs the word `w` next: the host has nothing to do, BUSY is 1, no RENDER is running, `pc` is a
word address that memory admits and that no host write during the run has written, and memory holds `w` there. -/
structure FetchesWord (s : State) (w : Word) : Prop where
  inbox : s.inbox = []
  busy : s.status.busy = true
  idleWorkers : s.rendering = none
  onWord : aligned s.pc = true
  admitted : memAdmit s.platform s.pc = true
  unraced : ∀ a ∈ s.run.raced, rangeHas a (s.pc, 1) = false
  word : readWord s.mem s.pc = w

/-- No host write has raced with the run (20_memory.md R72, R76 condition 3). -/
def Undisturbed (s : State) : Prop := s.run.raced = [] ∧ s.run.tainted = []

/-- The next step takes the fault with code `c`. -/
def StepFaults (s : State) (c : BitVec 4) : Prop := ∃ t, step s = .next t ∧ FaultEntry s t c

/-- When `p` fails, the decoder refuses the word with ILLEGAL_OPERAND (30_encoding.md R93), and a block that fetches
it takes that fault, with code 2 (R98). -/
def RefusedUnless (p : Prop) (w : Word) : Prop :=
  ¬p → decode w = .error .illegalOperand ∧ ∀ s, FetchesWord s w → StepFaults s 2#4

/-! ## Several steps -/

/-- The machine after `n` steps, if each of them answers a next state. -/
def steps : Nat → State → Host.Outcome State Fault Refusal
  | 0, s => .next s
  | n + 1, s =>
    match step s with
    | .next t => steps n t
    | .fault f => .fault f
    | .refused r => .refused r

/-! ## Which register a command may write (10_state.md R24 and the operands of each command) -/

/-- The F register a command writes. -/
def destF (i : Instr) : Option FReg := match targetOf i with | some (.f r) => some r | _ => none

/-- The Z register a command writes. -/
def destZ (i : Instr) : Option ZReg := match targetOf i with | some (.z r) => some r | _ => none

/-- The M register a command writes. -/
def destM (i : Instr) : Option MReg := match targetOf i with | some (.m r) => some r | _ => none

/-- The slot a command writes. -/
def destB (i : Instr) : Option BReg := match targetOf i with | some (.bl r) => some r | _ => none

/-! ## RENDER, in the terms of 45_render.md -/

/-- (i, j) is a destination pixel (45_render.md R241). -/
def InDst (v : View) (i j : Nat) : Prop := i < v.dstW.toNat ∧ j < v.dstH.toNat

/-- The point at which pixel (i, j) is sampled: `bl_eval(BL[b], z(i, j))` (45_render.md R247). -/
def mapPoint (s : State) (b : BReg) (i j : Nat) : Flagged Cx := blEval (s.getB b) (pixelCoord s.view i j)

/-- The pixel p(i, j) (45_render.md R247). -/
def pixelAt (s : State) (b : BReg) (i j : Nat) : Word :=
  (pxSample s.mem s.view (mapPoint s b i j).val).val

/-- The flags of pixel (i, j): those of its map and of its sample (45_render.md R249). -/
def pixelFlags (s : State) (b : BReg) (i j : Nat) : Flags :=
  (mapPoint s b i j).flags.or (pxSample s.mem s.view (mapPoint s b i j).val).flags

/-- Every access of pixel (i, j) is admitted: its four reads and its `MemOr` (20_memory.md R64). -/
def PixelAdmitted (s : State) (b : BReg) (i j : Nat) : Prop :=
  sampleAdmitted s.platform s.view (mapPoint s b i j).val = true ∧
    memAdmit s.platform (dstAddr s.view i j) = true

/-- Conditions 1 and 2 of the overlap premise (20_memory.md R76): no destination word is a source word, nor a
command word of the run, which are those it has fetched, the rest of its command list, and every word that it comes
to fetch, as many as `noteReach` has recorded before this RENDER (log 6). -/
def NoOverlap (s : State) : Prop :=
  (∀ n k, n < dstWords s.view → k < srcWords s.view →
    s.view.dstBase + BitVec.ofNat 32 (4 * n) ≠ s.view.srcBase + BitVec.ofNat 32 (4 * k)) ∧
  (∀ n k, n < dstWords s.view → k < s.run.fetched + wordsAhead s →
    s.view.dstBase + BitVec.ofNat 32 (4 * n) ≠ s.run.start + BitVec.ofNat 32 (4 * k)) ∧
  (∀ n k, n < dstWords s.view → k < s.run.reach →
    s.view.dstBase + BitVec.ofNat 32 (4 * n) ≠ s.run.start + BitVec.ofNat 32 (4 * k))

/-- A RENDER that passes its upfront checks (45_render.md R240) on a platform of the spec (00_scope.md R5), in a
run that the host leaves to itself (20_memory.md R76 condition 3) and that began at a word address, with the
other two conditions of the overlap premise. -/
structure RenderPremise (s : State) : Prop where
  srcOk : s.view.srcOk = true
  dstOk : s.view.dstOk = true
  srcAligned : aligned s.view.srcBase = true
  dstAligned : aligned s.view.dstBase = true
  workers : s.platform.numWorkers ≠ 0#8
  busy : s.status.busy = true
  inbox : s.inbox = []
  undisturbed : Undisturbed s
  startAligned : aligned s.run.start = true
  noOverlap : NoOverlap s

/-- Every pixel's accesses are admitted. -/
def AllAdmitted (s : State) (b : BReg) : Prop := ∀ i j, InDst s.view i j → PixelAdmitted s b i j

/-- A byte address outside the destination. -/
def OutsideDst (v : View) (x : Nat) : Prop := ∀ i j, InDst v i j → x ∉ wordBytes (dstAddr v i j)

/-- A word of the destination holds its old value or `old | p(i, j)`: what 45_render.md R248 and
70_reset_and_hazards.md R321 leave it. -/
def OldOrOred (s t : State) (b : BReg) (i j : Nat) : Prop :=
  readWord t.mem (dstAddr s.view i j) = readWord s.mem (dstAddr s.view i j) ∨
    readWord t.mem (dstAddr s.view i j) = readWord s.mem (dstAddr s.view i j) ||| pixelAt s b i j

/-- Pixel (i, j) is computed before any access has failed (93_implementation_defined.md U11): after some steps of the
RENDER that `s` forks a worker stands at it, no access has failed yet, and the next step is that worker's, so that
(i, j) is then none of the pixels still to do. Before and after are those of whole pixel steps (DESIGN CHOICE, log
7). -/
def ComputedBeforeFault (s : State) (b : BReg) (i j : Nat) : Prop :=
  ∃ n u r x, steps n (s.fork b) = .next u ∧ u.rendering = some r ∧ r.broken = false ∧ x ∈ r.workers ∧
    x.col = i ∧ x.row = j ∧ ∀ t q, step u = .next t → t.rendering = some q →
      (i, j) ∉ q.workers.flatMap (workerPixels s.view.dstW.toNat)

/-- The steps of all destination pixels, row by row (45_render.md R241, R244). -/
def dstSteps (s : State) (b : BReg) : List PixelStep :=
  ((List.range s.view.dstH.toNat).flatMap fun j => (List.range s.view.dstW.toNat).map fun i => (i, j)).map
    fun q => pixelStep s b q.1 q.2

/-- The `MemOr`s of pixel steps, in the order of the list (45_render.md R247). -/
def orPixels (m : Memory) (ps : List PixelStep) : Memory := ps.foldl (fun m p => orWord m p.addr p.value) m

/-- The OR of the flags of pixel steps (45_render.md R249). -/
def renderFlags (ps : List PixelStep) : Flags := Flags.all (ps.map (·.flags))

/-- `t` is a state of the RENDER that `s` executes, or right after it: the registers, the view and the platform
are those of `s`, and so is every byte outside the destination. -/
structure RenderFrame (s t : State) : Prop where
  files : FilesSame s t
  view : t.view = s.view
  ie : t.ie = s.ie
  doneBit : t.status.done = s.status.done
  platform : t.platform = s.platform
  inbox : t.inbox = s.inbox
  hostData : t.hostData = s.hostData
  outside : ∀ x, OutsideDst s.view x → readByte t.mem x = readByte s.mem x

/-! ## The invariant of the machine -/

/-- A slot holds at most MAX_FACTORS active factors (10_state.md R23). -/
def Slot.ok (x : Slot) : Prop := x.count ≤ Config.maxFactors

/-- STATUS is consistent: while BUSY is 1 both DONE and ERR are 0, never are both 1 (60_exceptions.md
R292), and ERRCODE is 0 exactly when ERR is 0 and at most 6 (10_state.md R29, 60_exceptions.md R280). -/
structure StatusOk (x : Status) : Prop where
  busyClean : x.busy = true → x.done = false ∧ x.err = false
  notBoth : ¬(x.done = true ∧ x.err = true)
  codeZero : x.errcode = 0#4 ↔ x.err = false
  codeLegal : x.errcode.toNat ≤ 6

/-- A running RENDER has passed its checks, has a live worker (45_render.md R246), and every live worker stands
at a pixel of the destination (R242, R244). -/
structure RenderingOk (v : View) (r : Rendering) : Prop where
  checked : renderCheck v = none
  someLive : r.workers ≠ []
  inside : ∀ x ∈ r.workers, x.row < x.rowEnd ∧ x.rowEnd ≤ v.dstH.toNat ∧ x.col < v.dstW.toNat

/-- The invariant of the machine between steps: workers are live only while BUSY is 1 (45_render.md R246). -/
structure Invariant (s : State) : Prop where
  mem : Memory.wf s.mem = true
  slots : ∀ b, (s.getB b).ok
  status : StatusOk s.status
  rendering : ∀ r, s.rendering = some r → s.status.busy = true ∧ RenderingOk s.view r

end Sys2Proof.Machine
end

