-- ==== Sys2Proof/Certificates/Slice0/Obligations.lean ====
section
/-! DEFINITION. The statements about the machine, one `def` each, grouped by the unit they speak of. -/

open Sys2Proof Sys2Proof.Machine

/-! ## Encoding (30_encoding.md) -/

/-- A few words written out bit by bit from R91, R92 and R97, one of each format and unit. -/
def Obligations.DecoderReadsTheWrittenWords : Prop :=
  decode 0b00000001000000000000000000000000#32 = .ok .halt ∧
  decode 0b00000010000100000000000000000001#32 = .ok (.csrr 1 .status) ∧
  decode 0b00000011010100000000000000010001#32 = .ok (.csrw .srcW 5) ∧
  decode 0b00000101000100100000000000000000#32 = .ok (.pxOrw 1 2) ∧
  decode 0b00010010001100010010000000000000#32 = .ok (.fxMul 3 1 2) ∧
  decode 0b00011011000100000000000000000011#32 = .ok (.fxLih 1 3) ∧
  decode 0b00100110010001100101000000000000#32 = .ok (.cxPack 4 6 5) ∧
  decode 0b00110000010001010110011110000000#32 = .ok (.mobSet 4 5 6 7 8) ∧
  decode 0b01000111010100010100000000000000#32 = .ok (.blGetf 5 1 4) ∧
  decode 0b01010000000111101011010000000000#32 = .ok (.pxBlend 1 14 11 4) ∧
  decode 0b01100000000100000000000000000000#32 = .ok (.render 1)

/-- Decoding the word of an instruction gives the instruction back, for every command and every operand
that has an encoding (R92, R93, R95, R97). -/
def Obligations.DecodeOfEncode : Prop := ∀ i : Instr, i.wellFormed = true → decode (encode i) = .ok i

/-- Every word that decodes is the word of the instruction it decodes to, and that instruction is
well-formed: no two words mean one command, and no bit of a legal word is dropped (R98, R99). -/
def Obligations.EncodeOfDecode : Prop :=
  ∀ (w : Word) (i : Instr), decode w = .ok i → i.wellFormed = true ∧ encode i = w

/-- R99: the unallocated opcodes fault with ILLEGAL_OPCODE (code 1), an allocated opcode with a set
must-be-zero bit faults with ILLEGAL_OPERAND (code 2), and the all-zero word alone is NOP. -/
def Obligations.UnallocatedOpcodesAndMustBeZeroBits : Prop :=
  (∀ (s : State) (w : Word), FetchesWord s w →
    (let op := (w.extractLsb' 24 8).toNat;
      (0x06 ≤ op ∧ op ≤ 0x0F) ∨ (0x1D ≤ op ∧ op ≤ 0x1F) ∨ (0x29 ≤ op ∧ op ≤ 0x2F) ∨
        (0x38 ≤ op ∧ op ≤ 0x3F) ∨ (0x49 ≤ op ∧ op ≤ 0x4F) ∨ (0x52 ≤ op ∧ op ≤ 0x5F) ∨ 0x61 ≤ op) →
    decode w = .error .illegalOpcode ∧ StepFaults s 1#4) ∧
  (∀ (s : State) (w : Word) (i : Instr), FetchesWord s w → instrOpcode i = w.extractLsb' 24 8 →
    w &&& formatMask (instrFormat i) ≠ (w.extractLsb' 24 8) ++ 0#24 →
    decode w = .error .illegalOperand ∧ StepFaults s 2#4) ∧
  (∀ w : Word, decode w = .ok .nop ↔ w = 0x00000000#32)

/-- R93, R98: a field outside its operand's class is refused with ILLEGAL_OPERAND, and a block that fetches such a
word takes that fault (code 2), for every field of class m, b and k of the opcode map; the must-be-zero bits
are zero here. -/
def Obligations.FieldsOutsideTheirClass : Prop :=
  ∀ a b c d e : BitVec 4,
    RefusedUnless (a.toNat < 8) (0x30#8 ++ a ++ b ++ c ++ d ++ e ++ 0#4) ∧
    RefusedUnless (a.toNat < 8) (0x31#8 ++ a ++ 0#20) ∧
    RefusedUnless (a.toNat < 8) (0x32#8 ++ a ++ b ++ 0#16) ∧
    RefusedUnless (a.toNat < 8 ∧ b.toNat < 8 ∧ c.toNat < 8) (0x33#8 ++ a ++ b ++ c ++ 0#12) ∧
    RefusedUnless (a.toNat < 8 ∧ b.toNat < 8) (0x34#8 ++ a ++ b ++ 0#16) ∧
    RefusedUnless (b.toNat < 8) (0x35#8 ++ a ++ b ++ c ++ 0#12) ∧
    RefusedUnless (b.toNat < 8 ∧ c.toNat < 4) (0x36#8 ++ a ++ b ++ c ++ 0#12) ∧
    RefusedUnless (b.toNat < 8) (0x37#8 ++ a ++ b ++ 0#16) ∧
    RefusedUnless (a.toNat < 2) (0x40#8 ++ a ++ 0#20) ∧
    RefusedUnless (a.toNat < 2 ∧ b.toNat < 8) (0x41#8 ++ a ++ b ++ 0#16) ∧
    RefusedUnless (a.toNat < 2 ∧ b.toNat < 2) (0x42#8 ++ a ++ b ++ 0#16) ∧
    RefusedUnless (a.toNat < 2 ∧ b.toNat < 8) (0x43#8 ++ a ++ b ++ 0#16) ∧
    RefusedUnless (a.toNat < 2 ∧ b.toNat < 8) (0x44#8 ++ a ++ b ++ 0#16) ∧
    RefusedUnless (b.toNat < 2) (0x45#8 ++ a ++ b ++ c ++ 0#12) ∧
    RefusedUnless (b.toNat < 2) (0x46#8 ++ a ++ b ++ 0#16) ∧
    RefusedUnless (a.toNat < 8 ∧ b.toNat < 2 ∧ c.toNat < 6) (0x47#8 ++ a ++ b ++ c ++ 0#12) ∧
    RefusedUnless (a.toNat < 8 ∧ b.toNat < 2) (0x48#8 ++ a ++ b ++ 0#16) ∧
    RefusedUnless (a.toNat < 2) (0x60#8 ++ a ++ 0#20)

/-- R95: which CSR numbers CSRR and CSRW take; every other one faults with ILLEGAL_CSR (code 3). -/
def Obligations.CsrNumbers : Prop :=
  ∀ (a : BitVec 4) (n : BitVec 16),
    let view := (0x010 ≤ n.toNat ∧ n.toNat ≤ 0x015) ∨ (0x020 ≤ n.toNat ∧ n.toNat ≤ 0x026)
    let mapped := n.toNat ≤ 0x004 ∨ view
    (mapped → ∃ c, csrNumber c = n ∧ decode (0x02#8 ++ a ++ 0#4 ++ n) = .ok (.csrr a.toFin c)) ∧
    (view → ∃ c, csrNumber c = n ∧ decode (0x03#8 ++ a ++ 0#4 ++ n) = .ok (.csrw c a.toFin)) ∧
    (¬mapped → decode (0x02#8 ++ a ++ 0#4 ++ n) = .error .illegalCsr ∧
      ∀ s, FetchesWord s (0x02#8 ++ a ++ 0#4 ++ n) → StepFaults s 3#4) ∧
    (¬view → decode (0x03#8 ++ a ++ 0#4 ++ n) = .error .illegalCsr ∧
      ∀ s, FetchesWord s (0x03#8 ++ a ++ 0#4 ++ n) → StepFaults s 3#4)

/-! ## The sequencer (46_system.md R260, R266; 60_exceptions.md section 1 and 2) -/

/-- R260: a step runs the command that memory holds at `pc`; the host's `wait` is the block's own move. The step
also keeps the model's record of the run (logs 6 and 9), which only a RENDER's overlap test and the host's races
read; before a RENDER it records how many words the run fetches in all if that RENDER is well-defined (`reach`:
20_memory.md R76, log 6). The second clause is the model's: before a fetch it changes nothing but the record, unless
a host write has raced with the word fetched. While a RENDER runs, a step is one worker's (70_reset_and_hazards.md
R330). While BUSY is 0 the block does nothing (R322, 60_exceptions.md R305). -/
def Obligations.StepRunsTheFetchedCommand : Prop :=
  (∀ (s : State) (w : Word) (i : Instr), FetchesWord s w → decode w = .ok i → Undisturbed s →
    let runs := fun (u : State) (rest : List HostOp) => ∃ l : RunLog,
      l.start = s.run.start ∧ l.fetched = s.run.fetched + 1 ∧ l.raced = [] ∧ l.tainted = [] ∧
      ((∀ b, i ≠ .render b) → l.reach = s.run.reach) ∧
      (∀ b t, i = .render b → t.status.busy = true →
        exec i { s with inbox := rest, run := { l with reach := 0 } } = .next t →
        l.reach = (finalRecord t).fetched) ∧
      step u = exec i { s with inbox := rest, run := l }
    runs s [] ∧ ∀ rest, runs { s with inbox := .wait :: rest } rest) ∧
  (∀ s : State, s.inbox = [] → s.status.busy = true → s.rendering = none → aligned s.pc = true →
    memAdmit s.platform s.pc = true →
    step s = runWord finalRecord s.noteFetch ∧
      (∃ m l n, s.noteFetch = { s with mem := m, run := l, freeCount := n }) ∧
      ((∀ a ∈ s.run.raced, rangeHas a (s.pc, 1) = false) → ∃ l, s.noteFetch = { s with run := l })) ∧
  (∀ (s : State) (r : Rendering), s.inbox = [] → s.status.busy = true → s.rendering = some r →
    step s = workerStep r s) ∧
  (∀ s : State, s.inbox = [] → s.status.busy = false → step s = .next s)

/-- R284: the faults of a fetch, MISALIGNED (code 4) first and then BUS_ERROR (code 5), at the address that
failed; and, derived from R266 as R284 marks it, that `pc` stays aligned but for a host write to CMD_PC. -/
def Obligations.FetchFaults : Prop :=
  (∀ s : State, s.inbox = [] → s.status.busy = true → s.rendering = none →
    (s.pc.toNat % 4 ≠ 0 → StepFaults s 4#4) ∧
    (s.pc.toNat % 4 = 0 → memAdmit s.platform s.pc = false → StepFaults s 5#4)) ∧
  (∀ s t : State, (∀ a w, s.inbox.head? = some (.mmioWrite a w) → a ≠ s.platform.mmioBase + 0x00C#32) →
    s.pc.toNat % 4 = 0 → step s = .next t → t.pc.toNat % 4 = 0)

/-- 10_state.md R25, R26, 46_system.md R266, 60_exceptions.md R300: no command moves `pc` but by 4; one that does
not move it has taken a fault at its own address or is a RENDER, whose join moves it (45_render.md R246). None
clears a sticky flag, writes CTRL.IE, or changes the platform or the host's side. -/
def Obligations.PcMovesByFourAndFlagsStick : Prop :=
  (∀ (i : Instr) (s t : State), exec i s = .next t →
    ((t.pc = s.pc + 4#32 ∧ t.status.err = s.status.err ∧ t.errpc = s.errpc) ∨
      (t.pc = s.pc ∧ t.status.err = true ∧ t.errpc = s.pc) ∨
      ((∃ b, i = .render b) ∧ t.pc = s.pc ∧ t.status = s.status ∧ t.errpc = s.errpc ∧ t.rendering ≠ none)) ∧
    (s.status.ov = true → t.status.ov = true) ∧ (s.status.dz = true → t.status.dz = true) ∧
    t.ie = s.ie ∧ t.platform = s.platform ∧ t.inbox = s.inbox ∧ t.hostData = s.hostData ∧ t.run = s.run) ∧
  (∀ (r : Rendering) (s t : State), workerStep r s = .next t →
    ((t.pc = s.pc ∧ t.status = s.status ∧ t.errpc = s.errpc) ∨
      (t.pc = s.pc + 4#32 ∧ t.status.err = s.status.err ∧ t.errpc = s.errpc ∧ t.rendering = none) ∨
      (t.pc = s.pc ∧ t.status.err = true ∧ t.errpc = s.pc ∧ t.rendering = none)) ∧
    (s.status.ov = true → t.status.ov = true) ∧ (s.status.dz = true → t.status.dz = true) ∧
    t.ie = s.ie ∧ t.platform = s.platform ∧ t.inbox = s.inbox ∧ t.hostData = s.hostData)

/-- 46_system.md R266, 60_exceptions.md R285: BUSY falls only by HALT or by a fault, and not while a worker is live
(45_render.md R246). -/
def Obligations.RunEndsOnlyByHaltOrFault : Prop :=
  (∀ (i : Instr) (s t : State), exec i s = .next t → s.status.busy = true → t.status.busy = false →
    (i = .halt ∧ t.status.done = true ∧ t.status.err = s.status.err ∧ t.pc = s.pc + 4#32) ∨
    (t.status.err = true ∧ 1 ≤ t.status.errcode.toNat ∧ t.status.errcode.toNat ≤ 6 ∧ t.errpc = s.pc ∧
      t.pc = s.pc ∧ t.status.done = s.status.done)) ∧
  (∀ (r : Rendering) (s t : State), workerStep r s = .next t → s.status.busy = true → t.status.busy = false →
    t.rendering = none ∧ t.status.err = true ∧ t.status.errcode = 5#4 ∧ t.errpc = s.pc ∧ t.pc = s.pc ∧
      t.status.done = s.status.done)

/-- 60_exceptions.md R286: a command that faults when it executes has committed nothing. The BUS_ERROR of a RENDER
comes later, from a worker's step, and is the one imprecise fault (`RenderBusError`). ERR is 0 before, as it is
in every run (R292). -/
def Obligations.FaultsCommitNothing : Prop :=
  ∀ (i : Instr) (s t : State), s.status.err = false → exec i s = .next t → t.status.err = true →
    FaultEntry s t t.status.errcode ∧ t.run = s.run

/-- 60_exceptions.md R281: the commands that can fault after decode, and with which codes; a worker's step faults
with BUS_ERROR (code 5) alone. -/
def Obligations.WhichCommandsFault : Prop :=
  (∀ (i : Instr) (s t : State), i.wellFormed = true → s.status.err = false → exec i s = .next t →
    t.status.err = true →
    (∃ fd fa, i = .ldW fd fa ∧ (t.status.errcode = 4#4 ∨ t.status.errcode = 5#4)) ∨
    (∃ fv fa, i = .pxOrw fv fa ∧ (t.status.errcode = 4#4 ∨ t.status.errcode = 5#4)) ∨
    (∃ fd zs, i = .pxSample fd zs ∧
      (t.status.errcode = 6#4 ∨ t.status.errcode = 4#4 ∨ t.status.errcode = 5#4)) ∨
    (∃ b, i = .render b ∧ (t.status.errcode = 6#4 ∨ t.status.errcode = 4#4))) ∧
  (∀ (r : Rendering) (s t : State), s.status.err = false → workerStep r s = .next t → t.status.err = true →
    t.status.errcode = 5#4)

/-- 10_state.md R24, 20_memory.md R60: a command writes no register but its destination, no view CSR but by
CSRW, no byte of memory but by PX.ORW; the workers of a RENDER write memory, and no register and no view CSR
(45_render.md R245). -/
def Obligations.CommandsWriteOnlyTheirDestination : Prop :=
  (∀ (i : Instr) (s t : State), exec i s = .next t →
    (∀ q, destF i ≠ some q → t.getF q = s.getF q) ∧
    (∀ q, destZ i ≠ some q → t.getZ q = s.getZ q) ∧
    (∀ q, destM i ≠ some q → t.getM q = s.getM q) ∧
    (∀ q, destB i ≠ some q → t.getB q = s.getB q) ∧
    ((∀ c fs, i ≠ .csrw c fs) → t.view = s.view) ∧
    ((∀ fv fa, i ≠ .pxOrw fv fa) → MemSame s t)) ∧
  (∀ (r : Rendering) (s t : State), workerStep r s = .next t → FilesSame s t ∧ t.view = s.view)

/-- 42_mobius.md R184: an M register or a value of a slot has `isId = 1` after a command only if it had it,
or MOB.ID, a degenerate MOB.INV or BL.CLR made it, or it was copied from one that has it. -/
def Obligations.OnlyTheIdentityConstructorsSetIsId : Prop :=
  ∀ (i : Instr) (s t : State), exec i s = .next t →
    (∀ q, (t.getM q).isId = true →
      (destM i ≠ some q ∧ (s.getM q).isId = true) ∨ i = .mobId q ∨
      (∃ ma, i = .mobInv q ma ∧
        (cxSub (cxMul (s.getM ma).a (s.getM ma).d).val (cxMul (s.getM ma).b (s.getM ma).c).val).val = .zero) ∨
      (∃ (b : BReg) (k : Fin 6), i = .blGetf q b k ∧ (s.getB b).factor[k].isId = true) ∨
      (∃ b, i = .blFrame q b ∧ (s.getB b).frame.isId = true)) ∧
    (∀ (q : BReg) (k : Fin 6), (t.getB q).factor[k].isId = true →
      ((s.getB q).factor[k].isId = true ∧ ∀ ma, i = .blRcomp q ma → (s.getB q).count ≤ k.val) ∨ i = .blClr q ∨
      (∃ ma, i = .blAppend q ma ∧ (s.getM ma).isId = true) ∨
      (∃ (b : BReg) (j : Fin 6), i = .blMul q b ∧ (s.getB b).factor[j].isId = true)) ∧
    (∀ q : BReg, (t.getB q).frame.isId = true →
      ((s.getB q).frame.isId = true ∧ ∀ ma, i ≠ .blLcomp q ma) ∨ i = .blClr q)

/-! ## The invariant, reset and memory -/

/-- Every step keeps the invariant: memory in its canonical form, at most six active factors in a slot
(10_state.md R23), a consistent STATUS (60_exceptions.md R292, 10_state.md R29), and a running RENDER that passed
its checks, with BUSY = 1 and live workers that stand at destination pixels (45_render.md R242 to R246). -/
def Obligations.StepKeepsTheInvariant : Prop := ∀ s t : State, Invariant s → step s = .next t → Invariant t

/-- The state after reset has the invariant. -/
def Obligations.ResetHasTheInvariant : Prop := Invariant State.reset

/-- 10_state.md R45, 70_reset_and_hazards.md R320: what the reset input leaves, in any state. Memory stays; only
where it cuts off a RENDER whose overlap premise fails (log 6) may bytes of that RENDER's destination change (U8).
And R321, U12: reset after any number of steps of a RENDER leaves each destination word old or `old | p(i, j)`
and every other byte as it was (log 8). -/
def Obligations.ResetValues : Prop :=
  (∀ (s : State) (rest : List HostOp), s.inbox = .reset :: rest →
    ∃ t, step s = .next t ∧
      (∀ q, t.getF q = 0#32) ∧ (∀ q, t.getZ q = .zero) ∧
      (∀ q, t.getM q = ⟨.one, .zero, .zero, .one, true⟩) ∧
      (∀ q, (t.getB q).count = 0 ∧ (∀ k : Fin 6, (t.getB q).factor[k] = ⟨.one, .zero, .zero, .one, true⟩) ∧
        (t.getB q).frame = ⟨.one, .zero, .zero, .one, true⟩) ∧
      t.status.busy = false ∧ t.status.done = false ∧ t.status.err = false ∧ t.status.dz = false ∧
      t.status.ov = false ∧ t.status.errcode = 0#4 ∧ t.ie = false ∧ t.pc = 0#32 ∧ t.errpc = 0#32 ∧
      t.view.aspectX = 0x00010000#32 ∧ t.view.aspectY = 0x00010000#32 ∧ t.view.policy = .tile ∧
      t.view.srcBase = 0#32 ∧ t.view.srcW = 0#32 ∧ t.view.srcH = 0#32 ∧
      t.view.dstBase = 0#32 ∧ t.view.dstW = 0#32 ∧ t.view.dstH = 0#32 ∧
      t.view.u0 = 0#32 ∧ t.view.v0 = 0#32 ∧ t.view.du = 0#32 ∧ t.view.dv = 0#32 ∧
      t.irq = false ∧ t.rendering = none ∧
      (∀ x, OutsideDst s.view x → readByte t.mem x = readByte s.mem x) ∧
      ((∀ r, s.rendering = some r → r.overlap = false) → t.mem = s.mem)) ∧
  (∀ (s : State) (b : BReg) (n : Nat), RenderPremise s → n ≤ dstWords s.view →
    ∃ u t, steps n (s.fork b) = .next u ∧ step { u with inbox := [.reset] } = .next t ∧
      (∀ i j, InDst s.view i j → OldOrOred s t b i j) ∧
      ∀ x, OutsideDst s.view x → readByte t.mem x = readByte s.mem x)

/-- The canonical form is one form: two memories in it that read alike are equal data (20_memory.md R60). -/
def Obligations.MemoriesThatReadAlikeAreEqual : Prop :=
  ∀ m n : Memory, Memory.wf m = true → Memory.wf n = true →
    (∀ a : Nat, readByte m a = readByte n a) → m = n

/-! ## The fixed-point unit (40_fixed_point.md) -/

/-- R120, R121: FX.ADD and FX.SUB, the exact result wrapped, OV when it is out of range. -/
def Obligations.FxAddAndSub : Prop :=
  ∀ (s : State) (fd fa fb : FReg),
    let a := (s.getF fa).toInt
    let b := (s.getF fb).toInt
    CompletesF (.fxAdd fd fa fb) s fd (BitVec.ofInt 32 (a + b)) (outOfRange (a + b)) false ∧
    CompletesF (.fxSub fd fa fb) s fd (BitVec.ofInt 32 (a - b)) (outOfRange (a - b)) false

/-- R124, R125: FX.NEG sets OV for 0x80000000 alone and keeps it; FX.FROMI is the low half above zeros, with
OV outside [−32768, 32767]. -/
def Obligations.FxNegAndFromi : Prop :=
  ∀ (s : State) (fd fa : FReg),
    let a := s.getF fa
    CompletesF (.fxNeg fd fa) s fd (BitVec.ofInt 32 (-a.toInt)) (decide (a = 0x80000000#32)) false ∧
    (a = 0x80000000#32 → CompletesF (.fxNeg fd fa) s fd 0x80000000#32 true false) ∧
    BitVec.ofInt 32 (a.toInt * 2 ^ 16) = a.extractLsb' 0 16 ++ 0x0000#16 ∧
    CompletesF (.fxFromi fd fa) s fd (a.extractLsb' 0 16 ++ 0x0000#16)
      (decide (a.toInt < -32768) || decide (32767 < a.toInt)) false

/-- R122, R123: FX.MUL floors the exact product shifted back by 16; FX.DIV saturates toward the dividend's
sign and sets DZ, not OV, for a zero divisor, and else truncates the widened quotient. -/
def Obligations.FxMulAndDiv : Prop :=
  ∀ (s : State) (fd fa fb : FReg),
    let a := (s.getF fa).toInt
    let b := (s.getF fb).toInt
    CompletesF (.fxMul fd fa fb) s fd (BitVec.ofInt 32 (Int.fdiv (a * b) (2 ^ 16)))
      (outOfRange (Int.fdiv (a * b) (2 ^ 16))) false ∧
    (b = 0 → CompletesF (.fxDiv fd fa fb) s fd
      (if 0 ≤ a then 0x7FFFFFFF#32 else 0x80000000#32) false true) ∧
    (b ≠ 0 → CompletesF (.fxDiv fd fa fb) s fd (BitVec.ofInt 32 (Int.tdiv (a * 2 ^ 16) b))
      (outOfRange (Int.tdiv (a * 2 ^ 16) b)) false)

/-- R126, R127, R128: FX.FRAC is the value modulo 1.0, FX.INT its floor as an integer, FX.TOU the pattern
shifted right by 16; none sets a flag. -/
def Obligations.FxFracIntAndTou : Prop :=
  ∀ (s : State) (fd fa : FReg),
    let a := s.getF fa
    CompletesF (.fxFrac fd fa) s fd (BitVec.ofInt 32 (Int.fmod a.toInt (2 ^ 16))) false false ∧
    CompletesF (.fxInt fd fa) s fd (BitVec.ofInt 32 (Int.fdiv a.toInt (2 ^ 16))) false false ∧
    CompletesF (.fxTou fd fa) s fd (BitVec.ofNat 32 (a.toNat / 2 ^ 16)) false false

/-- R129, R130: FX.CMP is the signed comparison as −1, 0 or +1, FX.NOT is 1 exactly for the pattern 0;
neither sets a flag. -/
def Obligations.FxCmpAndNot : Prop :=
  ∀ (s : State) (fd fa fb : FReg),
    let a := s.getF fa
    let b := s.getF fb
    CompletesF (.fxCmp fd fa fb) s fd
      (if a.toInt < b.toInt then 0xFFFFFFFF#32 else if a.toInt = b.toInt then 0x00000000#32 else 0x00000001#32)
      false false ∧
    CompletesF (.fxNot fd fa) s fd (if a = 0x00000000#32 then 0x00000001#32 else 0x00000000#32) false false

/-- R142, R143: the encodings and the effects of FX.LIH and FX.LIL, and that the pair loads any pattern. -/
def Obligations.FxImmediates : Prop :=
  ∀ (s : State) (fd : FReg) (imm : BitVec 16),
    decode (0x1B#8 ++ BitVec.ofNat 4 fd.val ++ 0x0#4 ++ imm) = .ok (.fxLih fd imm) ∧
    CompletesF (.fxLih fd imm) s fd (imm ++ 0x0000#16) false false ∧
    decode (0x1C#8 ++ BitVec.ofNat 4 fd.val ++ 0x0#4 ++ imm) = .ok (.fxLil fd imm) ∧
    CompletesF (.fxLil fd imm) s fd ((s.getF fd).extractLsb' 16 16 ++ imm) false false ∧
    ∀ (v : Word) (t u : State), exec (.fxLih fd (v.extractLsb' 16 16)) s = .next t →
      exec (.fxLil fd (v.extractLsb' 0 16)) t = .next u → u.getF fd = v

/-- 30_encoding.md R101 and 40_fixed_point.md R127, R133, R141: negating twice is the identity; integer and
fractional part make the value again without overflow; every representable integer comes back; multiplying
by 1.0 is exact. -/
def Obligations.FxRoundTrips : Prop :=
  (∀ a : Word, (fxNeg (fxNeg a).val).val = a) ∧
  (∀ a : Word, (fxFromi (fxInt a)).flags.ov = false ∧
    (fxAdd (fxFromi (fxInt a)).val (fxFrac a)).val = a ∧
    (fxAdd (fxFromi (fxInt a)).val (fxFrac a)).flags.ov = false) ∧
  (∀ n : Word, -32768 ≤ n.toInt → n.toInt ≤ 32767 → fxInt (fxFromi n).val = n) ∧
  (∀ a : Word, (fxMul a oneFx).val = a ∧ (fxMul a oneFx).flags.ov = false)

/-- R144: `(a·b)/b` is within one ulp of `a` when |b| ≥ 1.0 and neither step overflows; and dividing −a gives
the negated quotient but at overflow and at a zero divisor. -/
def Obligations.FxQuotientOfProduct : Prop :=
  (∀ a b : Word, (b.toInt ≤ -(2 ^ 16) ∨ 2 ^ 16 ≤ b.toInt) → (fxMul a b).flags.ov = false →
    (fxDiv (fxMul a b).val b).flags.ov = false →
    (fxDiv (fxMul a b).val b).val.toInt - a.toInt ≤ 1 ∧
      -1 ≤ (fxDiv (fxMul a b).val b).val.toInt - a.toInt) ∧
  (∀ a b : Word, b ≠ 0#32 → (fxNeg a).flags.ov = false → (fxDiv a b).flags.ov = false →
    (fxDiv (fxNeg a).val b).val = (fxNeg (fxDiv a b).val).val)

/-! ## The complex unit (41_complex.md) -/

/-- R160, R161, R164: CX.ADD, CX.SUB and CX.CONJ, part by part, in FX functions. -/
def Obligations.CxAddSubAndConj : Prop :=
  ∀ (s : State) (zd za zb : ZReg),
    let x := s.getZ za
    let y := s.getZ zb
    CompletesZ (.cxAdd zd za zb) s zd ⟨(fxAdd x.re y.re).val, (fxAdd x.im y.im).val⟩
      ((fxAdd x.re y.re).flags.ov || (fxAdd x.im y.im).flags.ov) false ∧
    CompletesZ (.cxSub zd za zb) s zd ⟨(fxSub x.re y.re).val, (fxSub x.im y.im).val⟩
      ((fxSub x.re y.re).flags.ov || (fxSub x.im y.im).flags.ov) false ∧
    CompletesZ (.cxConj zd za) s zd ⟨x.re, (fxNeg x.im).val⟩ (decide (x.im = 0x80000000#32)) false

/-- R162: CX.MUL, four rounded products and two sums; it commutes, ONE_C is its exact unit on both sides
without flags, and it is not associative. -/
def Obligations.CxMulProduct : Prop :=
  (∀ (s : State) (zd za zb : ZReg),
    let x := s.getZ za
    let y := s.getZ zb
    let rr := fxMul x.re y.re
    let ii := fxMul x.im y.im
    let ri := fxMul x.re y.im
    let ir := fxMul x.im y.re
    CompletesZ (.cxMul zd za zb) s zd ⟨(fxSub rr.val ii.val).val, (fxAdd ri.val ir.val).val⟩
      (rr.flags.ov || ii.flags.ov || ri.flags.ov || ir.flags.ov || (fxSub rr.val ii.val).flags.ov ||
        (fxAdd ri.val ir.val).flags.ov) false) ∧
  (∀ x y : Cx, cxMul x y = cxMul y x) ∧
  (∀ x : Cx, cxMul .one x = ⟨x, .none⟩ ∧ cxMul x .one = ⟨x, .none⟩) ∧
  (∃ x y z : Cx, (cxMul (cxMul x y).val z).val ≠ (cxMul x (cxMul y z).val).val)

/-- R163, R176: CX.DIV divides both numerators by one shared `n`, without a guard; and a divisor with both
parts below 2^−8 sets DZ and gives saturated parts. -/
def Obligations.CxDivQuotient : Prop :=
  (∀ (s : State) (zd za zb : ZReg),
    let x := s.getZ za
    let y := s.getZ zb
    let n := fxAdd (fxMul y.re y.re).val (fxMul y.im y.im).val
    let p := fxAdd (fxMul x.re y.re).val (fxMul x.im y.im).val
    let q := fxSub (fxMul x.im y.re).val (fxMul x.re y.im).val
    CompletesZ (.cxDiv zd za zb) s zd ⟨(fxDiv p.val n.val).val, (fxDiv q.val n.val).val⟩
      ((fxMul y.re y.re).flags.ov || (fxMul y.im y.im).flags.ov || n.flags.ov ||
        (fxMul x.re y.re).flags.ov || (fxMul x.im y.im).flags.ov || (fxMul x.im y.re).flags.ov ||
        (fxMul x.re y.im).flags.ov || p.flags.ov || q.flags.ov || (fxDiv p.val n.val).flags.ov ||
        (fxDiv q.val n.val).flags.ov)
      (decide (n.val = 0#32))) ∧
  (∀ x y : Cx, -256 < y.re.toInt → y.re.toInt < 256 → -256 < y.im.toInt → y.im.toInt < 256 →
    (cxDiv x y).flags.dz = true ∧
    ((cxDiv x y).val.re = 0x7FFFFFFF#32 ∨ (cxDiv x y).val.re = 0x80000000#32) ∧
    ((cxDiv x y).val.im = 0x7FFFFFFF#32 ∨ (cxDiv x y).val.im = 0x80000000#32))

/-- R166, R172 to R175: CX.GUARD changes ZERO_C alone, to one ulp in each part; CX.PACK, CX.RE and CX.IM move
values between the files; no flags. -/
def Obligations.CxGuardPackReAndIm : Prop :=
  ∀ (s : State) (zd za : ZReg) (fd fre fim : FReg),
    CompletesZ (.cxGuard zd za) s zd
      (if (s.getZ za).re = 0#32 ∧ (s.getZ za).im = 0#32 then ⟨0x00000001#32, 0x00000001#32⟩ else s.getZ za)
      false false ∧
    CompletesZ (.cxPack zd fre fim) s zd ⟨s.getF fre, s.getF fim⟩ false false ∧
    CompletesF (.cxRe fd za) s fd (s.getZ za).re false false ∧
    CompletesF (.cxIm fd za) s fd (s.getZ za).im false false

/-! ## The Möbius unit (42_mobius.md) -/

/-- R183, R185, R186, R187: MOB.SET stores the four values with `isId = 0`, MOB.ID the identity singleton,
MOB.HYP the isometry (1, −ζ, −conj ζ, 1), with OV when a part of ζ is 0x80000000. -/
def Obligations.MobSetIdAndHyp : Prop :=
  ∀ (s : State) (md : MReg) (za zb zc zd zs : ZReg),
    let z := s.getZ zs
    CompletesM (.mobSet md za zb zc zd) s md ⟨s.getZ za, s.getZ zb, s.getZ zc, s.getZ zd, false⟩ false false ∧
    CompletesM (.mobId md) s md ⟨.one, .zero, .zero, .one, true⟩ false false ∧
    CompletesM (.mobHyp md zs) s md
      ⟨.one, ⟨(fxNeg z.re).val, (fxNeg z.im).val⟩, ⟨(fxNeg z.re).val, z.im⟩, .one, false⟩
      (decide (z.re = 0x80000000#32) || decide (z.im = 0x80000000#32)) false

/-- R181, R188: MOB.COMP is the matrix product with `isId = 0` always; composing with the identity, on either
side, keeps the coefficients exactly and sets no flag. -/
def Obligations.MobComposition : Prop :=
  (∀ (s : State) (md ma mb : MReg),
    let t := s.getM ma
    let u := s.getM mb
    let e := fun p q r v : Cx => cxAdd (cxMul p q).val (cxMul r v).val
    let o := fun p q r v : Cx => (cxMul p q).flags.ov || (cxMul r v).flags.ov || (e p q r v).flags.ov
    CompletesM (.mobComp md ma mb) s md
      ⟨(e t.a u.a t.b u.c).val, (e t.a u.b t.b u.d).val, (e t.c u.a t.d u.c).val, (e t.c u.b t.d u.d).val,
        false⟩
      (o t.a u.a t.b u.c || o t.a u.b t.b u.d || o t.c u.a t.d u.c || o t.c u.b t.d u.d) false) ∧
  (∀ t : Mob, mobCompose t .identity = ⟨⟨t.a, t.b, t.c, t.d, false⟩, .none⟩ ∧
    mobCompose .identity t = ⟨⟨t.a, t.b, t.c, t.d, false⟩, .none⟩)

/-- R182: MOB.INV tests the unguarded determinant: exactly zero gives the identity singleton, else the four
unguarded quotients with `isId = 0`; the determinant's flags stay set in both cases. -/
def Obligations.MobInversion : Prop :=
  ∀ (s : State) (md ma : MReg),
    let t := s.getM ma
    let ad := cxMul t.a t.d
    let bc := cxMul t.b t.c
    let det := cxSub ad.val bc.val
    let dov := ad.flags.ov || bc.flags.ov || det.flags.ov
    let a := cxDiv t.d det.val
    let b := cxDiv (cxNeg t.b).val det.val
    let c := cxDiv (cxNeg t.c).val det.val
    let d := cxDiv t.a det.val
    (det.val = .zero → CompletesM (.mobInv md ma) s md ⟨.one, .zero, .zero, .one, true⟩ dov false) ∧
    (det.val ≠ .zero → CompletesM (.mobInv md ma) s md ⟨a.val, b.val, c.val, d.val, false⟩
      (dov || (cxNeg t.b).flags.ov || (cxNeg t.c).flags.ov || a.flags.ov || b.flags.ov || c.flags.ov ||
        d.flags.ov)
      (a.flags.dz || b.flags.dz || c.flags.dz || d.flags.dz))

/-- R180, R190: MOB.APPLY divides `a·z + b` by the guarded `c·z + d`; the identity gives every point back
without flags; at a pole DZ is set and both parts are saturated. -/
def Obligations.MobApplication : Prop :=
  (∀ (s : State) (zd : ZReg) (ma : MReg) (zs : ZReg),
    let t := s.getM ma
    let z := s.getZ zs
    let num := cxAdd (cxMul t.a z).val t.b
    let den := cxAdd (cxMul t.c z).val t.d
    let q := cxDiv num.val (cxGuard den.val)
    CompletesZ (.mobApply zd ma zs) s zd q.val
      ((cxMul t.a z).flags.ov || num.flags.ov || (cxMul t.c z).flags.ov || den.flags.ov || q.flags.ov)
      q.flags.dz) ∧
  (∀ z : Cx, mobApply .identity z = ⟨z, .none⟩) ∧
  (∀ (t : Mob) (z : Cx), (cxAdd (cxMul t.c z).val t.d).val = .zero → (mobApply t z).flags.dz = true ∧
    ((mobApply t z).val.re = 0x7FFFFFFF#32 ∨ (mobApply t z).val.re = 0x80000000#32) ∧
    ((mobApply t z).val.im = 0x7FFFFFFF#32 ∨ (mobApply t z).val.im = 0x80000000#32))

/-- R191, R192: MOB.GET reads coefficient a, b, c or d, and MOB.ISID the stored flag as 1 or 0. -/
def Obligations.MobGetAndIsid : Prop :=
  ∀ (s : State) (zd : ZReg) (fd : FReg) (ma : MReg),
    CompletesZ (.mobGet zd ma 0) s zd (s.getM ma).a false false ∧
    CompletesZ (.mobGet zd ma 1) s zd (s.getM ma).b false false ∧
    CompletesZ (.mobGet zd ma 2) s zd (s.getM ma).c false false ∧
    CompletesZ (.mobGet zd ma 3) s zd (s.getM ma).d false false ∧
    CompletesF (.mobIsid fd ma) s fd (if (s.getM ma).isId then 0x00000001#32 else 0x00000000#32) false false

/-! ## The Blaschke engine (43_blaschke.md) -/

/-- R200, R202, R203: BL.CLR empties the slot; BL.APPEND puts the value, with its flag, at index `count`
below the capacity and changes nothing at it; eight appends to an empty slot leave the first six. -/
def Obligations.BlClearAndAppend : Prop :=
  (∀ (s : State) (b : BReg) (ma : MReg),
    let x := s.getB b
    CompletesB (.blClr b) s b ⟨Vector.replicate 6 ⟨.one, .zero, .zero, .one, true⟩, 0,
      ⟨.one, .zero, .zero, .one, true⟩⟩ false false ∧
    (x.count < 6 → ∃ y, CompletesB (.blAppend b ma) s b y false false ∧ y.count = x.count + 1 ∧
      y.frame = x.frame ∧
      ∀ k : Fin 6, y.factor[k] = if k.val = x.count then s.getM ma else x.factor[k]) ∧
    (6 ≤ x.count → CompletesB (.blAppend b ma) s b x false false)) ∧
  (∀ ts : List Mob, ts.length = 8 → (ts.foldl blAppend .empty).count = 6 ∧
    ∀ k : Fin 6, some (ts.foldl blAppend .empty).factor[k] = ts[k.val]?)

/-- R204: BL.MUL appends the source slot's active factors to the destination's, in order, up to the capacity,
and keeps the destination's frame; the two slots may be one. The counts are legal (10_state.md R23). -/
def Obligations.BlMultiplication : Prop :=
  ∀ (s : State) (bd bs : BReg),
    let x := s.getB bd
    let z := s.getB bs
    x.ok → z.ok → ∃ y, CompletesB (.blMul bd bs) s bd y false false ∧ y.count = min 6 (x.count + z.count) ∧
      y.frame = x.frame ∧
      (∀ k : Fin 6, k.val < x.count ∨ x.count + z.count ≤ k.val → y.factor[k] = x.factor[k]) ∧
      (∀ k j : Fin 6, k.val = x.count + j.val → j.val < z.count → y.factor[k] = z.factor[j])

/-- R205, R206: BL.RCOMP composes every active factor with M[ma] on the right and keeps the others and the
frame; BL.LCOMP composes the frame with M[ma] on the left and keeps the factors. -/
def Obligations.BlCompositions : Prop :=
  ∀ (s : State) (b : BReg) (ma : MReg),
    let x := s.getB b
    (∃ (y : Slot) (ov : Bool), CompletesB (.blRcomp b ma) s b y ov false ∧ y.count = x.count ∧
      y.frame = x.frame ∧
      (∀ k : Fin 6, y.factor[k] =
        if k.val < x.count then (mobCompose x.factor[k] (s.getM ma)).val else x.factor[k]) ∧
      (ov = true ↔ ∃ k : Fin 6, k.val < x.count ∧ (mobCompose x.factor[k] (s.getM ma)).flags.ov = true)) ∧
    CompletesB (.blLcomp b ma) s b ⟨x.factor, x.count, (mobCompose (s.getM ma) x.frame).val⟩
      (mobCompose (s.getM ma) x.frame).flags.ov false

/-- R201, R207: BL.EVAL multiplies the active factors' values at one point, from ONE_C, ascending, the running
product on the left, then applies the frame, with every step's flags; an empty slot is the frame at ONE_C,
and one factor in the identity frame is that factor. -/
def Obligations.BlEvaluation : Prop :=
  (∀ (s : State) (zd : ZReg) (b : BReg) (zs : ZReg),
    let x := s.getB b
    let z := s.getZ zs
    let p := (x.factor.toList.take x.count).foldl (fun (p : Flagged Cx) t =>
      let f := mobApply t z
      let q := cxMul p.val f.val
      ⟨q.val, ⟨p.flags.ov || f.flags.ov || q.flags.ov, p.flags.dz || f.flags.dz⟩⟩) ⟨.one, ⟨false, false⟩⟩
    let r := mobApply x.frame p.val
    CompletesZ (.blEval zd b zs) s zd r.val (p.flags.ov || r.flags.ov) (p.flags.dz || r.flags.dz)) ∧
  (∀ (x : Slot) (z : Cx), x.count = 0 → blEval x z = mobApply x.frame .one) ∧
  (∀ (x : Slot) (z : Cx), x.count = 1 → x.frame = .identity → blEval x z = mobApply x.factor[0] z)

/-- R208, R209, R210: BL.COUNT, BL.GETF (inactive factors too) and BL.FRAME read a slot, flags of the values
included. -/
def Obligations.BlCountGetfAndFrame : Prop :=
  ∀ (s : State) (fd : FReg) (md : MReg) (b : BReg) (k : Fin 6),
    CompletesF (.blCount fd b) s fd (BitVec.ofNat 32 (s.getB b).count) false false ∧
    CompletesM (.blGetf md b k) s md (s.getB b).factor[k] false false ∧
    CompletesM (.blFrame md b) s md (s.getB b).frame false false

/-! ## The pixel unit (44_sampler.md) -/

/-- R220, R221, R224: PX.BLEND reads four registers from `fa` on, wrapping, and the low halves of the weight
registers; each channel is the weighted sum rounded half up, and the clamp never takes effect. -/
def Obligations.PxBlendChannels : Prop :=
  ∀ (s : State) (fd fa fx fy : FReg),
    let p := fun n : Fin 4 => s.getF ⟨(fa.val + n.val) % 16, Nat.mod_lt _ (by decide)⟩
    let wx := (s.getF fx).toNat % 0x10000
    let wy := (s.getF fy).toNat % 0x10000
    let w00 := (0x10000 - wx) * (0x10000 - wy) / 2 ^ 16
    let w10 := wx * (0x10000 - wy) / 2 ^ 16
    let w01 := (0x10000 - wx) * wy / 2 ^ 16
    let w11 := wx * wy / 2 ^ 16
    (0xFFFD ≤ w00 + w10 + w01 + w11 ∧ w00 + w10 + w01 + w11 ≤ 0x10000) ∧
    (wx = 0 ∨ wy = 0 → w00 + w10 + w01 + w11 = 0x10000) ∧
    (wx = 0 ∧ wy = 0 → w00 = 0x10000 ∧ w10 = 0 ∧ w01 = 0 ∧ w11 = 0) ∧
    ∃ v, CompletesF (.pxBlend fd fa fx fy) s fd v false false ∧
      ∀ c : Fin 4, v.toNat / 2 ^ (8 * c.val) % 256 =
        ((p 0).toNat / 2 ^ (8 * c.val) % 256 * w00 + (p 1).toNat / 2 ^ (8 * c.val) % 256 * w10 +
          (p 2).toNat / 2 ^ (8 * c.val) % 256 * w01 + (p 3).toNat / 2 ^ (8 * c.val) % 256 * w11 + 0x8000) / 2 ^ 16

/-- R222, R225: PX.SAMPLE, step by step, when the configuration is legal and the four reads are admitted. -/
def Obligations.PxSampleCompletes : Prop :=
  ∀ (s : State) (fd : FReg) (zs : ZReg),
    let v := s.view
    let w := v.srcW.toNat
    let h := v.srcH.toNat
    let ur := fxMul (s.getZ zs).re v.aspectX
    let vr := fxMul (s.getZ zs).im v.aspectY
    let pol := fun u : Word => if v.policy = .tile then u.toNat % 0x10000 else (min (max u.toInt 0) 0x10000).toNat
    let x := pol ur.val * (w - 1)
    let y := pol vr.val * (h - 1)
    let bx := x / 2 ^ 16
    let bY := y / 2 ^ 16
    let bx1 := if v.policy = .tile then (bx + 1) % w else min (bx + 1) (w - 1)
    let bY1 := if v.policy = .tile then (bY + 1) % h else min (bY + 1) (h - 1)
    let at' := fun i j : Nat => BitVec.ofNat 32 (v.srcBase.toNat + 4 * (j * w + i))
    let px := fun i j : Nat => readWord s.mem (at' i j)
    2 ≤ w → w ≤ 32768 → 2 ≤ h → h ≤ 32768 → v.srcBase.toNat % 4 = 0 →
    (∀ i ∈ [bx, bx1], ∀ j ∈ [bY, bY1], memAdmit s.platform (at' i j) = true) →
    CompletesF (.pxSample fd zs) s fd
      (pxBlend (px bx bY) (px bx1 bY) (px bx bY1) (px bx1 bY1) (x % 2 ^ 16) (y % 2 ^ 16))
      (ur.flags.ov || vr.flags.ov) false

/-- R223, R225: PX.SAMPLE's faults in their order: BAD_CONFIG (code 6), MISALIGNED (code 4), BUS_ERROR
(code 5); none changes a register, a flag or memory. -/
def Obligations.PxSampleFaults : Prop :=
  ∀ (s : State) (fd : FReg) (zs : ZReg),
    let ok := 2 ≤ s.view.srcW.toNat ∧ s.view.srcW.toNat ≤ 32768 ∧
      2 ≤ s.view.srcH.toNat ∧ s.view.srcH.toNat ≤ 32768
    (¬ok → Faults (.pxSample fd zs) s 6#4) ∧
    (ok → s.view.srcBase.toNat % 4 ≠ 0 → Faults (.pxSample fd zs) s 4#4) ∧
    (ok → s.view.srcBase.toNat % 4 = 0 →
      (∃ a ∈ sampleAddrs s.view (s.getZ zs), memAdmit s.platform a = false) → Faults (.pxSample fd zs) s 5#4)

/-- R226 item 4: every read of the sampler is at a word of the source, under either policy, at any point. -/
def Obligations.SamplerReadsInsideTheSource : Prop :=
  ∀ (v : View) (w : Cx), v.srcOk = true → ∀ a ∈ sampleAddrs v w,
    ∃ k, k < v.srcW.toNat * v.srcH.toNat ∧ a = v.srcBase + BitVec.ofNat 32 (4 * k)

/-- R226 items 1, 2 and 3: zero weights give the pixel itself; under tile with an integer aspect a shift by
whole units changes nothing; under clamp every coordinate from 1.0 on gives the last column (row) and every one up to 0 the
first, with weight 0. -/
def Obligations.SamplerPolicies : Prop :=
  (∀ (m : Memory) (v : View) (w : Cx), (samplePoint v w).val.fx = 0 → (samplePoint v w).val.fy = 0 →
    (pxSample m v w).val = readWord m (srcAddr v (samplePoint v w).val.bx (samplePoint v w).val.bY)) ∧
  (∀ (m : Memory) (v : View) (w : Cx) (n k : Int), v.policy = .tile →
    (v.aspectX.toInt = k * 2 ^ 16 →
      (pxSample m v ⟨w.re + BitVec.ofInt 32 (n * 2 ^ 16), w.im⟩).val = (pxSample m v w).val) ∧
    (v.aspectY.toInt = k * 2 ^ 16 →
      (pxSample m v ⟨w.re, w.im + BitVec.ofInt 32 (n * 2 ^ 16)⟩).val = (pxSample m v w).val)) ∧
  (∀ (v : View) (w : Cx), v.policy = .clamp →
    let p := (samplePoint v w).val
    let ur := (fxMul w.re v.aspectX).val.toInt
    let vr := (fxMul w.im v.aspectY).val.toInt
    (2 ^ 16 ≤ ur → p.bx = v.srcW.toNat - 1 ∧ p.fx = 0) ∧ (ur ≤ 0 → p.bx = 0 ∧ p.fx = 0) ∧
    (2 ^ 16 ≤ vr → p.bY = v.srcH.toNat - 1 ∧ p.fy = 0) ∧ (vr ≤ 0 → p.bY = 0 ∧ p.fy = 0))

/-! ## The renderer (45_render.md) -/

/-- R240, 60_exceptions.md R282: RENDER's upfront checks: any illegal dimension is BAD_CONFIG (code 6), and
with all legal a misaligned base is MISALIGNED (code 4); nothing changes. -/
def Obligations.RenderChecks : Prop :=
  ∀ (s : State) (b : BReg),
    let legal := fun d : Word => 2 ≤ d.toNat ∧ d.toNat ≤ 32768
    let ok := legal s.view.srcW ∧ legal s.view.srcH ∧ legal s.view.dstW ∧ legal s.view.dstH
    (¬ok → Faults (.render b) s 6#4) ∧
    (ok → s.view.srcBase.toNat % 4 ≠ 0 ∨ s.view.dstBase.toNat % 4 ≠ 0 → Faults (.render b) s 4#4)

/-- R242, R243, R244: the workers' rows, and that every pixel of the destination is one worker's, once. -/
def Obligations.RowPartition : Prop :=
  ∀ n h w : Nat, 0 < n →
    (forkWorkers n h).length = n ∧
    (∀ k, k + 1 < n → (forkWorkers n h)[k]? = some ⟨k, k * (h / n), (k + 1) * (h / n), 0⟩) ∧
    (forkWorkers n h)[n - 1]? = some ⟨n - 1, (n - 1) * (h / n), h, 0⟩ ∧
    ((forkWorkers n h).flatMap (workerPixels w)).Nodup ∧
    ∀ i j, (i, j) ∈ (forkWorkers n h).flatMap (workerPixels w) ↔ i < w ∧ j < h

/-- R246, R247, R249, 70_reset_and_hazards.md R329, R330: a RENDER whose accesses are all admitted, under the
overlap premise (log 6 for its second condition): its own step forks the workers, and after exactly DST_W·DST_H
steps of the workers, in whatever order they move, it has completed: every destination word holds
`old | p(i, j)`, no other byte of memory changes, OV and DZ collect every pixel's flags, and no register
changes. Until then BUSY is 1 and `pc` and the flags stay. -/
def Obligations.RenderOrsEveryPixel : Prop :=
  ∀ (s : State) (b : BReg), RenderPremise s → AllAdmitted s b →
    ∃ t0, exec (.render b) s = .next t0 ∧ RenderFrame s t0 ∧ MemSame s t0 ∧ t0.pc = s.pc ∧ t0.status = s.status ∧
      (∀ n, n < dstWords s.view → ∃ u, steps n t0 = .next u ∧ RenderFrame s u ∧ u.pc = s.pc ∧
        u.status = s.status ∧ u.rendering ≠ none) ∧
      ∃ t, steps (dstWords s.view) t0 = .next t ∧ RenderFrame s t ∧
        (∀ i j, InDst s.view i j →
          readWord t.mem (dstAddr s.view i j) = readWord s.mem (dstAddr s.view i j) ||| pixelAt s b i j) ∧
        (t.status.ov = true ↔ s.status.ov = true ∨ ∃ i j, InDst s.view i j ∧ (pixelFlags s b i j).ov = true) ∧
        (t.status.dz = true ↔ s.status.dz = true ∨ ∃ i j, InDst s.view i j ∧ (pixelFlags s b i j).dz = true) ∧
        t.pc = s.pc + 4#32 ∧ t.status.busy = true ∧ t.status.err = s.status.err ∧
        t.status.errcode = s.status.errcode ∧ t.errpc = s.errpc ∧ t.rendering = none

/-- R250: under its premises (the overlap premise, log 6, and every access admitted) the number of workers changes
nothing of what a RENDER leaves but the number itself. -/
def Obligations.RenderIgnoresTheWorkerCount : Prop :=
  ∀ (s : State) (b : BReg) (n k : BitVec 8), n ≠ 0#8 → k ≠ 0#8 → RenderPremise s → AllAdmitted s b →
    let on := fun w : BitVec 8 => ({ s with platform := { s.platform with numWorkers := w } } : State)
    ∃ t u, steps (dstWords s.view) ((on n).fork b) = .next t ∧ steps (dstWords s.view) ((on k).fork b) = .next u ∧
      (∀ x, readByte t.mem x = readByte u.mem x) ∧ FilesSame t u ∧ u.view = t.view ∧ u.status = t.status ∧
      u.pc = t.pc ∧ u.errpc = t.errpc ∧ u.ie = t.ie ∧ t.rendering = none ∧ u.rendering = none

/-- R250, 20_memory.md R71: under the overlap premise (log 6) the order of the pixel steps cannot be seen. In any
order the `MemOr`s leave the same memory and the same flags, and after any of them every sample is what it
was at the start. -/
def Obligations.RenderOrderIsNotObservable : Prop :=
  ∀ (s : State) (b : BReg), RenderPremise s → ∀ qs : List PixelStep,
    (qs.Perm (dstSteps s b) →
      (∀ x, readByte (orPixels s.mem qs) x = readByte (orPixels s.mem (dstSteps s b)) x) ∧
      renderFlags qs = renderFlags (dstSteps s b)) ∧
    ((∀ p ∈ qs, p ∈ dstSteps s b) → ∀ w : Cx,
      pxSample (orPixels s.mem qs) s.view w = pxSample s.mem s.view w)

/-- R248, U10, U11: a RENDER with an access that is not admitted takes BUS_ERROR (code 5) at its own address; each
destination word holds its old value or `old | p(i, j)`, the old one if its `MemOr` is not admitted; no other byte
of memory and no register changes; each flag holds its old value or 1, and 1 only if some pixel computed before the
fault sets it. The model's own: that before the fault means before it by whole pixel steps (DESIGN CHOICE, log 7);
that this takes at most DST_W·DST_H steps of the workers (DEDUCED, R330 as logs 7 and 15 read it); and the last
clause (DEDUCED, log 7): with one worker, whose first read is not admitted, memory and flags stay, though `bl_eval`
of that pixel has run. The overlap premise is that of log 6. -/
def Obligations.RenderBusError : Prop :=
  ∀ (s : State) (b : BReg), RenderPremise s → ¬AllAdmitted s b →
    ∃ t0 t, exec (.render b) s = .next t0 ∧ steps (dstWords s.view) t0 = .next t ∧ RenderFrame s t ∧
      t.status.err = true ∧ t.status.errcode = 5#4 ∧ t.errpc = s.pc ∧ t.status.busy = false ∧ t.pc = s.pc ∧
      t.rendering = none ∧
      (∀ i j, InDst s.view i j → OldOrOred s t b i j ∧
        (memAdmit s.platform (dstAddr s.view i j) = false →
          readWord t.mem (dstAddr s.view i j) = readWord s.mem (dstAddr s.view i j))) ∧
      (t.status.ov = s.status.ov ∨
        t.status.ov = true ∧
          ∃ i j, InDst s.view i j ∧ ComputedBeforeFault s b i j ∧ (pixelFlags s b i j).ov = true) ∧
      (t.status.dz = s.status.dz ∨
        t.status.dz = true ∧
          ∃ i j, InDst s.view i j ∧ ComputedBeforeFault s b i j ∧ (pixelFlags s b i j).dz = true) ∧
      (s.platform.numWorkers = 1#8 → sampleAdmitted s.platform s.view (mapPoint s b 0 0).val = false →
        MemSame s t ∧ t.status.ov = s.status.ov ∧ t.status.dz = s.status.dz)

/-- R243, R248: RENDER's own step writes no memory, and whatever a step of its workers does (complete, fault, or with
a broken overlap premise), no byte outside the destination changes. -/
def Obligations.RenderWritesOnlyItsDestination : Prop :=
  (∀ (s t : State) (b : BReg), exec (.render b) s = .next t → MemSame s t) ∧
  (∀ (s t : State) (r : Rendering), Invariant s → s.rendering = some r → s.inbox = [] → step s = .next t →
    ∀ x, OutsideDst s.view x → readByte t.mem x = readByte s.mem x)

/-! ## The system commands (46_system.md) -/

/-- R261, R262: NOP changes nothing but `pc`; HALT advances `pc`, sets DONE and ends the run, keeping the sticky
flags and everything else, and IRQ is then CTRL.IE. -/
def Obligations.NopAndHalt : Prop :=
  ∀ s : State,
    (∃ t, exec .nop s = .next t ∧ FilesSame s t ∧ Completed s t false false) ∧
    (∃ t, exec .halt s = .next t ∧ t.pc = s.pc + 4#32 ∧ t.status.done = true ∧ t.status.busy = false ∧
      t.status.dz = s.status.dz ∧ t.status.ov = s.status.ov ∧ t.status.err = s.status.err ∧
      t.status.errcode = s.status.errcode ∧ t.errpc = s.errpc ∧ t.ie = s.ie ∧ t.irq = s.ie ∧
      FilesSame s t ∧ t.view = s.view ∧ MemSame s t ∧ t.rendering = s.rendering ∧ t.platform = s.platform)

/-- R263, 10_state.md R27 to R33: what CSRR reads from each CSR. STATUS is read in a run, where BUSY is 1 and DONE,
ERR and ERRCODE are 0. -/
def Obligations.CsrrReads : Prop :=
  ∀ (s : State) (fd : FReg),
    CompletesF (.csrr fd .ctrl) s fd (if s.ie then 0x00000002#32 else 0x00000000#32) false false ∧
    (s.status.busy = true → s.status.done = false → s.status.err = false → s.status.errcode = 0#4 →
      CompletesF (.csrr fd .status) s fd
        (0x00000001#32 + (if s.status.dz then 0x00000008#32 else 0#32) + (if s.status.ov then 0x00000010#32 else 0#32))
        false false) ∧
    CompletesF (.csrr fd .errpc) s fd s.errpc false false ∧
    CompletesF (.csrr fd .cmdPc) s fd s.pc false false ∧
    CompletesF (.csrr fd .id) s fd
      (0x01000000#32 ||| (s.platform.numWorkers.zeroExtend 32 <<< 16) ||| 0x00001006#32) false false ∧
    CompletesF (.csrr fd .srcBase) s fd s.view.srcBase false false ∧
    CompletesF (.csrr fd .srcW) s fd s.view.srcW false false ∧
    CompletesF (.csrr fd .srcH) s fd s.view.srcH false false ∧
    CompletesF (.csrr fd .aspectX) s fd s.view.aspectX false false ∧
    CompletesF (.csrr fd .aspectY) s fd s.view.aspectY false false ∧
    CompletesF (.csrr fd .policy) s fd (if s.view.policy = .clamp then 1#32 else 0#32) false false ∧
    CompletesF (.csrr fd .dstBase) s fd s.view.dstBase false false ∧
    CompletesF (.csrr fd .dstW) s fd s.view.dstW false false ∧
    CompletesF (.csrr fd .dstH) s fd s.view.dstH false false ∧
    CompletesF (.csrr fd .u0) s fd s.view.u0 false false ∧
    CompletesF (.csrr fd .v0) s fd s.view.v0 false false ∧
    CompletesF (.csrr fd .du) s fd s.view.du false false ∧
    CompletesF (.csrr fd .dv) s fd s.view.dv false false

/-- R264, 10_state.md R37: CSRW writes each view CSR, any value, and POLICY by its bit 0 alone; nothing else
changes. -/
def Obligations.CsrwWrites : Prop :=
  ∀ (s : State) (fs : FReg),
    let v := s.getF fs
    CompletesView (.csrw .srcBase fs) s { s.view with srcBase := v } ∧
    CompletesView (.csrw .srcW fs) s { s.view with srcW := v } ∧
    CompletesView (.csrw .srcH fs) s { s.view with srcH := v } ∧
    CompletesView (.csrw .aspectX fs) s { s.view with aspectX := v } ∧
    CompletesView (.csrw .aspectY fs) s { s.view with aspectY := v } ∧
    CompletesView (.csrw .policy fs) s
      { s.view with policy := if v &&& 1#32 = 1#32 then .clamp else .tile } ∧
    CompletesView (.csrw .dstBase fs) s { s.view with dstBase := v } ∧
    CompletesView (.csrw .dstW fs) s { s.view with dstW := v } ∧
    CompletesView (.csrw .dstH fs) s { s.view with dstH := v } ∧
    CompletesView (.csrw .u0 fs) s { s.view with u0 := v } ∧
    CompletesView (.csrw .v0 fs) s { s.view with v0 := v } ∧
    CompletesView (.csrw .du fs) s { s.view with du := v } ∧
    CompletesView (.csrw .dv fs) s { s.view with dv := v }

/-- R265, R267, 20_memory.md R62 to R65: LD.W reads, and PX.ORW ORs into, the little-endian word at an aligned and
admitted address; a misaligned one faults first (code 4), then one that is not admitted (code 5). -/
def Obligations.LoadWordAndOrWord : Prop :=
  ∀ (s : State) (fd fv fa : FReg),
    let a := (s.getF fa).toNat
    let old := readByte s.mem (a + 3) ++ readByte s.mem (a + 2) ++ readByte s.mem (a + 1) ++ readByte s.mem a
    (a % 4 = 0 → memAdmit s.platform (s.getF fa) = true →
      CompletesF (.ldW fd fa) s fd old false false ∧
      ∃ t, exec (.pxOrw fv fa) s = .next t ∧
        readByte t.mem (a + 3) ++ readByte t.mem (a + 2) ++ readByte t.mem (a + 1) ++ readByte t.mem a =
          old ||| s.getF fv ∧
        (∀ x, x < a ∨ a + 4 ≤ x → readByte t.mem x = readByte s.mem x) ∧
        FilesSame s t ∧ t.pc = s.pc + 4#32 ∧ FlagsSet s t false false ∧ t.view = s.view ∧
        Kept s t) ∧
    (a % 4 ≠ 0 → Faults (.ldW fd fa) s 4#4 ∧ Faults (.pxOrw fv fa) s 4#4) ∧
    (a % 4 = 0 → memAdmit s.platform (s.getF fa) = false →
      Faults (.ldW fd fa) s 5#4 ∧ Faults (.pxOrw fv fa) s 5#4)

/-! ## The host's side (60_exceptions.md section 4) -/

/-- R295: a host write to CTRL sets IE, and with bit 0 starts a run unless BUSY or ERR is 1; nothing else is
cleared. At an MMIO_BASE that is not a multiple of 4 this is the model's choice (log 20). -/
def Obligations.HostStart : Prop :=
  ∀ (s : State) (w : Word) (rest : List HostOp), s.inbox = .mmioWrite s.platform.mmioBase w :: rest →
    ∃ t, step s = .next t ∧ t.ie = w.getLsbD 1 ∧ t.inbox = rest ∧
      (w.getLsbD 0 = true ∧ s.status.busy = false ∧ s.status.err = false →
        t.status = { s.status with done := false, busy := true }) ∧
      (w.getLsbD 0 = false ∨ s.status.busy = true ∨ s.status.err = true → t.status = s.status) ∧
      t.pc = s.pc ∧ FilesSame s t ∧ t.view = s.view ∧ t.errpc = s.errpc ∧ t.mem = s.mem

/-- What the host writes while the block is idle (10_state.md R27 to R43, 60_exceptions.md R288) and what it does to
memory (20_memory.md R60, R62, R72): it clears the STATUS bits it writes 1 to, and ERRCODE with ERR; it writes
CMD_PC, the view CSRs (POLICY by bit 0), F and Z; writes to ERRPC, ID and unmapped offsets are ignored. A byte
of memory is written and read as it is while the block is idle, and, which is the model's reading of
93_implementation_defined.md U9 (log 9), also during a run where the run does not use the word or has not changed
its value. The model's own, of which the spec says nothing: offsets in a window that wraps or whose MMIO_BASE is
not a multiple of 4 (log 20, DESIGN CHOICE), memory at addresses that MEM_ADMIT refuses (log 16, DEDUCED), and
that a host access to memory is one byte (log 21, DESIGN CHOICE). -/
def Obligations.HostWritesAndMemory : Prop :=
  (∀ (s : State) (a w : Word) (rest : List HostOp), s.inbox = .mmioWrite a w :: rest → s.status.busy = false →
    let o := (a - s.platform.mmioBase).toNat
    let setsView := fun (t : State) (v : View) => t = { s with inbox := rest, view := v }
    o < 1024 → o % 4 = 0 → ∃ t, step s = .next t ∧
      (o = 0x004 → t = { s with inbox := rest, status := t.status } ∧ t.status.busy = false ∧
        t.status.done = (s.status.done && !w.getLsbD 1) ∧ t.status.err = (s.status.err && !w.getLsbD 2) ∧
        t.status.dz = (s.status.dz && !w.getLsbD 3) ∧ t.status.ov = (s.status.ov && !w.getLsbD 4) ∧
        t.status.errcode = (if w.getLsbD 2 then 0#4 else s.status.errcode)) ∧
      (o = 0x00C → t = { s with inbox := rest, pc := w }) ∧
      (o = 0x040 → setsView t { s.view with srcBase := w }) ∧ (o = 0x044 → setsView t { s.view with srcW := w }) ∧
      (o = 0x048 → setsView t { s.view with srcH := w }) ∧ (o = 0x04C → setsView t { s.view with aspectX := w }) ∧
      (o = 0x050 → setsView t { s.view with aspectY := w }) ∧
      (o = 0x054 → setsView t { s.view with policy := if w &&& 1#32 = 1#32 then .clamp else .tile }) ∧
      (o = 0x080 → setsView t { s.view with dstBase := w }) ∧ (o = 0x084 → setsView t { s.view with dstW := w }) ∧
      (o = 0x088 → setsView t { s.view with dstH := w }) ∧ (o = 0x08C → setsView t { s.view with u0 := w }) ∧
      (o = 0x090 → setsView t { s.view with v0 := w }) ∧ (o = 0x094 → setsView t { s.view with du := w }) ∧
      (o = 0x098 → setsView t { s.view with dv := w }) ∧
      (∀ r : FReg, o = 0x100 + 4 * r.val → t = { s with inbox := rest, f := t.f } ∧ t.getF r = w ∧
        ∀ q, q ≠ r → t.getF q = s.getF q) ∧
      (∀ r : ZReg, o = 0x200 + 8 * r.val → t = { s with inbox := rest, z := t.z } ∧
        t.getZ r = ⟨w, (s.getZ r).im⟩ ∧ ∀ q, q ≠ r → t.getZ q = s.getZ q) ∧
      (∀ r : ZReg, o = 0x204 + 8 * r.val → t = { s with inbox := rest, z := t.z } ∧
        t.getZ r = ⟨(s.getZ r).re, w⟩ ∧ ∀ q, q ≠ r → t.getZ q = s.getZ q) ∧
      (o = 0x008 ∨ (0x10 ≤ o ∧ o < 0x40) ∨ (0x58 ≤ o ∧ o < 0x80) ∨ (0x9C ≤ o ∧ o < 0x100) ∨
        (0x140 ≤ o ∧ o < 0x200) ∨ 0x280 ≤ o → t = { s with inbox := rest })) ∧
  (∀ (s : State) (a : Word) (v : Byte) (rest : List HostOp), s.inbox = .memWrite a v :: rest →
    (s.status.busy = true → { s with inbox := rest }.isUsed finalRecord (wordOf a) = false) →
    ∃ t, step s = .next t ∧ readByte t.mem a.toNat = v ∧
      (∀ x, x ≠ a.toNat → readByte t.mem x = readByte s.mem x) ∧
      t = { s with inbox := rest, mem := t.mem, run := t.run } ∧ (s.status.busy = false → t.run = s.run)) ∧
  (∀ (s : State) (a : Word) (rest : List HostOp), s.inbox = .memRead a :: rest →
    (s.status.busy = true → ∀ src v, .word (wordOf a) src v ∈ s.run.flow → v = readWord s.mem (wordOf a)) →
    ∃ t, step s = .next t ∧ t.hostData = (readByte s.mem a.toNat).zeroExtend 32 ∧
      t = { s with inbox := rest, hostData := t.hostData, freeCount := t.freeCount })

/-- R296: while BUSY is 1 every aligned host write of the register window is ignored, but for bit 1 (IE) of a
write to CTRL. In a window that wraps or whose MMIO_BASE is not a multiple of 4 this is the model's choice
(log 20). -/
def Obligations.HostWritesWhileBusyAreIgnored : Prop :=
  ∀ (s : State) (a w : Word) (rest : List HostOp), s.inbox = .mmioWrite a w :: rest → s.status.busy = true →
    (a - s.platform.mmioBase).toNat < 1024 → (a - s.platform.mmioBase).toNat % 4 = 0 →
    (a = s.platform.mmioBase → step s = .next { s with inbox := rest, ie := w.getLsbD 1 }) ∧
    (a ≠ s.platform.mmioBase → step s = .next { s with inbox := rest })

/-- R294, 10_state.md R29, R42, R43: a host read of the register window has no side effect; F and Z registers and the
CSRs (whose values `CsrrReads` spells out) are at their offsets, an unmapped offset reads 0, and STATUS has its
fields in their places, in any state. In a window that wraps or whose MMIO_BASE is not a multiple of 4 the offsets
are the model's choice (log 20, DESIGN CHOICE). -/
def Obligations.HostReadsTheRegisters : Prop :=
  ∀ (s : State) (a : Word) (rest : List HostOp), s.inbox = .mmioRead a :: rest →
    let o := (a - s.platform.mmioBase).toNat
    o < 1024 → o % 4 = 0 →
    ∃ v, step s = .next { s with inbox := rest, hostData := v } ∧
      (∀ r : FReg, o = 0x100 + 4 * r.val → v = s.getF r) ∧
      (∀ r : ZReg, o = 0x200 + 8 * r.val → v = (s.getZ r).re) ∧
      (∀ r : ZReg, o = 0x204 + 8 * r.val → v = (s.getZ r).im) ∧
      (∀ c : Csr, o = 4 * (csrNumber c).toNat → v = readCsr s c) ∧
      (o = 0x004 → v.getLsbD 0 = s.status.busy ∧ v.getLsbD 1 = s.status.done ∧ v.getLsbD 2 = s.status.err ∧
        v.getLsbD 3 = s.status.dz ∧ v.getLsbD 4 = s.status.ov ∧ v.extractLsb' 8 4 = s.status.errcode ∧
        v &&& 0xFFFFF0E0#32 = 0#32) ∧
      ((0x14 ≤ o ∧ o < 0x40) ∨ (0x58 ≤ o ∧ o < 0x80) ∨ (0x9C ≤ o ∧ o < 0x100) ∨ (0x140 ≤ o ∧ o < 0x200) ∨
        0x280 ≤ o → v = 0#32)
end

