-- ==== Sys2Proof/Laws/Decode.lean ====
section
/-! SUPPORT. The fields of the words that the encoder writes (30_encoding.md R91, R92), and the small
lemmas of the decoder's checks. -/

namespace Sys2Proof

variable (op : BitVec 8) (a b c d e : BitVec 4) (imm : BitVec 16)

theorem regWord_toNat : (regWord op a b c d e).toNat =
    op.toNat * 2 ^ 24 + a.toNat * 2 ^ 20 + b.toNat * 2 ^ 16 + c.toNat * 2 ^ 12 + d.toNat * 2 ^ 8
      + e.toNat * 2 ^ 4 := by
  have ha := a.isLt
  have hb := b.isLt
  have hc := c.isLt
  have hd := d.isLt
  have he := e.isLt
  simp only [regWord, BitVec.toNat_append, BitVec.toNat_ofNat]
  rw [← Nat.shiftLeft_add_eq_or_of_lt ha, ← Nat.shiftLeft_add_eq_or_of_lt hb,
    ← Nat.shiftLeft_add_eq_or_of_lt hc, ← Nat.shiftLeft_add_eq_or_of_lt hd,
    ← Nat.shiftLeft_add_eq_or_of_lt he, ← Nat.shiftLeft_add_eq_or_of_lt (by decide)]
  simp only [Nat.shiftLeft_eq]
  omega

theorem immWord_toNat : (immWord op a imm).toNat = op.toNat * 2 ^ 24 + a.toNat * 2 ^ 20 + imm.toNat := by
  have ha := a.isLt
  have hi := imm.isLt
  simp only [immWord, BitVec.toNat_append, BitVec.toNat_ofNat]
  rw [← Nat.shiftLeft_add_eq_or_of_lt ha, ← Nat.shiftLeft_add_eq_or_of_lt (b := 0 % 2 ^ 4) (i := 4) (by decide),
    ← Nat.shiftLeft_add_eq_or_of_lt hi]
  simp only [Nat.shiftLeft_eq]
  omega

/-! The fields of the encoder's words -/

theorem extract_toNat (w : Word) (i n : Nat) : (w.extractLsb' i n).toNat = w.toNat / 2 ^ i % 2 ^ n := by
  simp [BitVec.extractLsb'_toNat, Nat.shiftRight_eq_div_pow]

@[simp] theorem fieldOp_regWord : fieldOp (regWord op a b c d e) = op := by
  apply BitVec.eq_of_toNat_eq
  rw [fieldOp, extract_toNat, regWord_toNat]
  have := op.isLt
  have := a.isLt
  have := b.isLt
  have := c.isLt
  have := d.isLt
  have := e.isLt
  omega

@[simp] theorem fieldA_regWord : fieldA (regWord op a b c d e) = a := by
  apply BitVec.eq_of_toNat_eq
  rw [fieldA, extract_toNat, regWord_toNat]
  have := a.isLt
  have := b.isLt
  have := c.isLt
  have := d.isLt
  have := e.isLt
  omega

@[simp] theorem fieldB_regWord : fieldB (regWord op a b c d e) = b := by
  apply BitVec.eq_of_toNat_eq
  rw [fieldB, extract_toNat, regWord_toNat]
  have := b.isLt
  have := c.isLt
  have := d.isLt
  have := e.isLt
  omega

@[simp] theorem fieldC_regWord : fieldC (regWord op a b c d e) = c := by
  apply BitVec.eq_of_toNat_eq
  rw [fieldC, extract_toNat, regWord_toNat]
  have := c.isLt
  have := d.isLt
  have := e.isLt
  omega

@[simp] theorem fieldD_regWord : fieldD (regWord op a b c d e) = d := by
  apply BitVec.eq_of_toNat_eq
  rw [fieldD, extract_toNat, regWord_toNat]
  have := d.isLt
  have := e.isLt
  omega

@[simp] theorem fieldE_regWord : fieldE (regWord op a b c d e) = e := by
  apply BitVec.eq_of_toNat_eq
  rw [fieldE, extract_toNat, regWord_toNat]
  have := e.isLt
  omega

@[simp] theorem fieldOp_immWord : fieldOp (immWord op a imm) = op := by
  apply BitVec.eq_of_toNat_eq
  rw [fieldOp, extract_toNat, immWord_toNat]
  have := op.isLt
  have := a.isLt
  have := imm.isLt
  omega

@[simp] theorem fieldA_immWord : fieldA (immWord op a imm) = a := by
  apply BitVec.eq_of_toNat_eq
  rw [fieldA, extract_toNat, immWord_toNat]
  have := a.isLt
  have := imm.isLt
  omega

@[simp] theorem fieldImm_immWord : fieldImm (immWord op a imm) = imm := by
  apply BitVec.eq_of_toNat_eq
  rw [fieldImm, extract_toNat, immWord_toNat]
  have := imm.isLt
  omega

/-! The must-be-zero bits of the encoder's words (30_encoding.md R92) -/

theorem mask_N : regWord op 0#4 0#4 0#4 0#4 0#4 &&& formatMask .N = matchWord op := by
  apply BitVec.eq_of_getLsbD_eq
  intro i hi
  simp only [regWord, matchWord, formatMask, BitVec.getLsbD_and, BitVec.getLsbD_append]
  interval_cases i <;> simp

theorem mask_R1 : regWord op a 0#4 0#4 0#4 0#4 &&& formatMask .R1 = matchWord op := by
  apply BitVec.eq_of_getLsbD_eq
  intro i hi
  simp only [regWord, matchWord, formatMask, BitVec.getLsbD_and, BitVec.getLsbD_append]
  interval_cases i <;> simp

theorem mask_R2 : regWord op a b 0#4 0#4 0#4 &&& formatMask .R2 = matchWord op := by
  apply BitVec.eq_of_getLsbD_eq
  intro i hi
  simp only [regWord, matchWord, formatMask, BitVec.getLsbD_and, BitVec.getLsbD_append]
  interval_cases i <;> simp

theorem mask_R3 : regWord op a b c 0#4 0#4 &&& formatMask .R3 = matchWord op := by
  apply BitVec.eq_of_getLsbD_eq
  intro i hi
  simp only [regWord, matchWord, formatMask, BitVec.getLsbD_and, BitVec.getLsbD_append]
  interval_cases i <;> simp

theorem mask_R4 : regWord op a b c d 0#4 &&& formatMask .R4 = matchWord op := by
  apply BitVec.eq_of_getLsbD_eq
  intro i hi
  simp only [regWord, matchWord, formatMask, BitVec.getLsbD_and, BitVec.getLsbD_append]
  interval_cases i <;> simp

theorem mask_R5 : regWord op a b c d e &&& formatMask .R5 = matchWord op := by
  apply BitVec.eq_of_getLsbD_eq
  intro i hi
  simp only [regWord, matchWord, formatMask, BitVec.getLsbD_and, BitVec.getLsbD_append]
  interval_cases i <;> simp

theorem mask_I : immWord op a imm &&& formatMask .I = matchWord op := by
  apply BitVec.eq_of_getLsbD_eq
  intro i hi
  simp only [immWord, matchWord, formatMask, BitVec.getLsbD_and, BitVec.getLsbD_append]
  interval_cases i <;> simp

/-! The decoder's checks -/

theorem withFormat_ok {fm : Format} {w : Word} {k : Decoded} (h : w &&& formatMask fm = matchWord (fieldOp w)) :
    withFormat fm w k = k := if_pos h

theorem withFormat_bad {fm : Format} {w : Word} {k : Decoded} (h : w &&& formatMask fm ≠ matchWord (fieldOp w)) :
    withFormat fm w k = .error .illegalOperand := if_neg h

/-- A checked format answers an instruction only when the bits are right. -/
theorem withFormat_eq_ok {fm : Format} {w : Word} {k : Decoded} {i : Instr} :
    withFormat fm w k = .ok i ↔ w &&& formatMask fm = matchWord (fieldOp w) ∧ k = .ok i := by
  unfold withFormat; split <;> simp [*]

theorem withClass_ok {n : Nat} {x : BitVec 4} {k : Fin n → Decoded} (h : x.toNat < n) :
    withClass n x k = k ⟨x.toNat, h⟩ := dif_pos h

theorem withClass_bad {n : Nat} {x : BitVec 4} {k : Fin n → Decoded} (h : ¬x.toNat < n) :
    withClass n x k = .error .illegalOperand := dif_neg h

/-- A field that was written from an operand reads back as it. -/
@[simp] theorem regOf_fld (r : Fin 16) : regOf (fld r) = r := by
  apply Fin.ext
  simp [regOf, fld]

theorem fld_toNat {n : Nat} (r : Fin n) (hn : n ≤ 16) : (fld r).toNat = r.val := by
  have := r.isLt
  simp [fld]
  omega

@[simp] theorem withClass_fld {n : Nat} (r : Fin n) (hn : n ≤ 16) (k : Fin n → Decoded) :
    withClass n (fld r) k = k r := by
  have h : (fld r).toNat < n := by rw [fld_toNat r hn]; exact r.isLt
  rw [withClass_ok h]
  congr 1
  exact Fin.ext (fld_toNat r hn)

/-- The numbers of the CSRs read back (10_state.md R27). -/
@[simp] theorem csrOfNumber_csrNumber (x : Csr) : csrOfNumber (csrNumber x) = some x := by
  cases x <;> rfl

end Sys2Proof
end

