-- ==== Sys2Proof/Laws/Memory.lean ====
section
/-! SUPPORT. What the memory operations of Machine/Ops.lean do: reading after writing, leaving every
other byte alone, and keeping the canonical form (20_memory.md R60 to R65). -/

namespace Sys2Proof.Machine

/-! ## One byte -/

theorem readByte_eraseByte_self (m : Memory) (a : Nat) :
    readByte (eraseByte m a) a = Config.unwrittenByte := by
  induction m with
  | nil => rfl
  | cons c m ih =>
    by_cases h : c.1 = a
    · simpa [eraseByte, h] using ih
    · simpa [eraseByte, h, readByte] using ih

theorem readByte_eraseByte_ne (m : Memory) {a x : Nat} (h : x ≠ a) :
    readByte (eraseByte m a) x = readByte m x := by
  induction m with
  | nil => rfl
  | cons c m ih =>
    by_cases hc : c.1 = a
    · have hx : c.1 ≠ x := fun e => h (e.symm.trans hc)
      simpa [eraseByte, hc, readByte, hx, Ne.symm h] using ih
    · simp [eraseByte, hc, readByte]
      split
      · rfl
      · simpa [eraseByte] using ih

/-- An address that the memory does not list. -/
def Memory.free (m : Memory) (a : Nat) : Prop := ∀ c ∈ m, c.1 ≠ a

theorem eraseByte_free (m : Memory) (a : Nat) : Memory.free (eraseByte m a) a := by
  intro c hc
  simpa [eraseByte] using (List.mem_filter.mp hc).2

theorem readByte_insertByte_self {m : Memory} {a : Nat} (b : Byte) (h : Memory.free m a) :
    readByte (insertByte m a b) a = b := by
  induction m with
  | nil => simp [insertByte, readByte]
  | cons c m ih =>
    have hc : c.1 ≠ a := h c (by simp)
    have hm : Memory.free m a := fun d hd => h d (by simp [hd])
    unfold insertByte
    split
    · simp [readByte]
    · simp [readByte, hc, ih hm]

theorem readByte_insertByte_ne (m : Memory) {a x : Nat} (b : Byte) (h : x ≠ a) :
    readByte (insertByte m a b) x = readByte m x := by
  induction m with
  | nil => simp [insertByte, readByte, Ne.symm h]
  | cons c m ih =>
    unfold insertByte
    split
    · simp [readByte, Ne.symm h]
    · simp [readByte, ih]

/-- Reading the byte just written. -/
@[simp] theorem readByte_writeByte_self (m : Memory) (a : Nat) (b : Byte) :
    readByte (writeByte m a b) a = b := by
  unfold writeByte
  split
  · rename_i h; rw [readByte_eraseByte_self, h]
  · exact readByte_insertByte_self b (eraseByte_free m a)

/-- A write leaves every other byte alone. -/
theorem readByte_writeByte_ne (m : Memory) {a x : Nat} (b : Byte) (h : x ≠ a) :
    readByte (writeByte m a b) x = readByte m x := by
  unfold writeByte
  split
  · exact readByte_eraseByte_ne m h
  · rw [readByte_insertByte_ne _ b h, readByte_eraseByte_ne m h]

/-! ## One word -/

/-- A word write leaves every byte outside the word alone. -/
theorem readByte_writeWord_outside (m : Memory) (a v : Word) {x : Nat} (h : x ∉ wordBytes a) :
    readByte (writeWord m a v) x = readByte m x := by
  simp only [wordBytes, List.mem_cons, List.not_mem_nil, or_false, not_or] at h
  obtain ⟨h0, h1, h2, h3⟩ := h
  rw [writeWord, readByte_writeByte_ne _ _ h3, readByte_writeByte_ne _ _ h2, readByte_writeByte_ne _ _ h1,
    readByte_writeByte_ne _ _ h0]

/-- The bytes of a word are the four that make it (20_memory.md R62). -/
theorem wordOfBytes_byteOfWord (v : Word) :
    wordOfBytes (byteOfWord v 0) (byteOfWord v 1) (byteOfWord v 2) (byteOfWord v 3) = v := by
  apply BitVec.eq_of_toNat_eq
  simp only [wordOfBytes, byteOfWord, BitVec.toNat_append, BitVec.extractLsb'_toNat, Nat.mul_zero, Nat.mul_one,
    Nat.shiftRight_eq_div_pow]
  have hv := v.isLt
  rw [← Nat.shiftLeft_add_eq_or_of_lt (by omega), ← Nat.shiftLeft_add_eq_or_of_lt (by omega),
    ← Nat.shiftLeft_add_eq_or_of_lt (by omega)]
  simp only [Nat.shiftLeft_eq]
  omega

theorem wordBytes_distinct (a : Word) :
    (a + 1#32).toNat ≠ a.toNat ∧ (a + 2#32).toNat ≠ a.toNat ∧ (a + 3#32).toNat ≠ a.toNat ∧
    (a + 2#32).toNat ≠ (a + 1#32).toNat ∧ (a + 3#32).toNat ≠ (a + 1#32).toNat ∧
    (a + 3#32).toNat ≠ (a + 2#32).toNat := by
  have ha := a.isLt
  simp only [BitVec.toNat_add, BitVec.toNat_ofNat]
  omega

/-- Reading the word just written, at any address. -/
@[simp] theorem readWord_writeWord_self (m : Memory) (a v : Word) : readWord (writeWord m a v) a = v := by
  obtain ⟨h1, h2, h3, h4, h5, h6⟩ := wordBytes_distinct a
  have e0 : readByte (writeWord m a v) a.toNat = byteOfWord v 0 := by
    rw [writeWord, readByte_writeByte_ne _ _ h3.symm, readByte_writeByte_ne _ _ h2.symm,
      readByte_writeByte_ne _ _ h1.symm, readByte_writeByte_self]
  have e1 : readByte (writeWord m a v) (a + 1#32).toNat = byteOfWord v 1 := by
    rw [writeWord, readByte_writeByte_ne _ _ h5.symm, readByte_writeByte_ne _ _ h4.symm,
      readByte_writeByte_self]
  have e2 : readByte (writeWord m a v) (a + 2#32).toNat = byteOfWord v 2 := by
    rw [writeWord, readByte_writeByte_ne _ _ h6.symm, readByte_writeByte_self]
  have e3 : readByte (writeWord m a v) (a + 3#32).toNat = byteOfWord v 3 := by
    rw [writeWord, readByte_writeByte_self]
  rw [readWord, e0, e1, e2, e3, wordOfBytes_byteOfWord]

/-- A word reads the same where its four bytes read the same. -/
theorem readWord_congr {m n : Memory} {a : Word} (h : ∀ x ∈ wordBytes a, readByte m x = readByte n x) :
    readWord m a = readWord n a := by
  simp only [wordBytes, List.mem_cons, List.not_mem_nil, or_false, forall_eq_or_imp, forall_eq] at h
  obtain ⟨h0, h1, h2, h3⟩ := h
  rw [readWord, readWord, h0, h1, h2, h3]

/-- `aligned` says that the address is a multiple of four. -/
theorem aligned_iff (a : Word) : aligned a = true ↔ a.toNat % 4 = 0 := by
  have : (a.extractLsb' 0 2).toNat = a.toNat % 4 := by simp [BitVec.extractLsb'_toNat]
  rw [aligned, beq_iff_eq, ← BitVec.toNat_inj, this]
  rfl

/-- The bytes of two different aligned words are different. -/
theorem wordBytes_disjoint {a b : Word} (ha : aligned a = true) (hb : aligned b = true) (h : a ≠ b) :
    ∀ x ∈ wordBytes a, x ∉ wordBytes b := by
  rw [aligned_iff] at ha hb
  have hne : a.toNat ≠ b.toNat := fun e => h (BitVec.eq_of_toNat_eq e)
  have hA := a.isLt
  have hB := b.isLt
  intro x hx hy
  simp only [wordBytes, List.mem_cons, List.not_mem_nil, or_false, BitVec.toNat_add, BitVec.toNat_ofNat] at hx hy
  omega

/-- A word write leaves every other aligned word alone. -/
theorem readWord_writeWord_ne (m : Memory) {a b : Word} (v : Word) (ha : aligned a = true)
    (hb : aligned b = true) (h : b ≠ a) : readWord (writeWord m a v) b = readWord m b :=
  readWord_congr fun _ hx => readByte_writeWord_outside m a v (wordBytes_disjoint hb ha h _ hx)

/-! ## `MemOr` (00_scope.md R11) -/

@[simp] theorem readWord_orWord_self (m : Memory) (a v : Word) :
    readWord (orWord m a v) a = readWord m a ||| v := by simp [orWord]

theorem readByte_orWord_outside (m : Memory) (a v : Word) {x : Nat} (h : x ∉ wordBytes a) :
    readByte (orWord m a v) x = readByte m x := readByte_writeWord_outside m a _ h

theorem readWord_orWord_ne (m : Memory) {a b : Word} (v : Word) (ha : aligned a = true)
    (hb : aligned b = true) (h : b ≠ a) : readWord (orWord m a v) b = readWord m b :=
  readWord_writeWord_ne m _ ha hb h

/-! ## The canonical form -/

/-- The lower bound of `wfAbove` as a proposition. -/
def aboveLo : Option Nat → Nat → Prop
  | none, _ => True
  | some l, k => l < k

theorem wfAbove_cons (lo : Option Nat) (k : Nat) (v : Byte) (m : Memory) :
    wfAbove lo ((k, v) :: m) = true ↔
      aboveLo lo k ∧ k < 2 ^ 32 ∧ v ≠ Config.unwrittenByte ∧ wfAbove (some k) m = true := by
  cases lo <;> simp [wfAbove, aboveLo, and_assoc]

theorem wfAbove_mono {lo lo' : Option Nat} {m : Memory} (h : wfAbove lo m = true)
    (hl : ∀ k, aboveLo lo k → aboveLo lo' k) : wfAbove lo' m = true := by
  cases m with
  | nil => rfl
  | cons c m =>
    obtain ⟨k, v⟩ := c
    rw [wfAbove_cons] at h ⊢
    exact ⟨hl _ h.1, h.2⟩

theorem wfAbove_eraseByte {lo : Option Nat} {m : Memory} (a : Nat) (h : wfAbove lo m = true) :
    wfAbove lo (eraseByte m a) = true := by
  induction m generalizing lo with
  | nil => rfl
  | cons c m ih =>
    obtain ⟨k, v⟩ := c
    rw [wfAbove_cons] at h
    by_cases hk : k = a
    · have : eraseByte ((k, v) :: m) a = eraseByte m a := by simp [eraseByte, hk]
      rw [this]
      refine ih (wfAbove_mono h.2.2.2 fun x hx => ?_)
      cases lo with
      | none => trivial
      | some l => exact lt_trans h.1 hx
    · have : eraseByte ((k, v) :: m) a = (k, v) :: eraseByte m a := by simp [eraseByte, hk]
      rw [this, wfAbove_cons]
      exact ⟨h.1, h.2.1, h.2.2.1, ih h.2.2.2⟩

theorem wfAbove_insertByte {lo : Option Nat} {m : Memory} {a : Nat} {b : Byte} (h : wfAbove lo m = true)
    (hlo : aboveLo lo a) (ha : a < 2 ^ 32) (hb : b ≠ Config.unwrittenByte) (hf : Memory.free m a) :
    wfAbove lo (insertByte m a b) = true := by
  induction m generalizing lo with
  | nil => simpa [insertByte, wfAbove_cons] using ⟨hlo, ha, hb, rfl⟩
  | cons c m ih =>
    obtain ⟨k, v⟩ := c
    rw [wfAbove_cons] at h
    unfold insertByte
    split
    · rename_i hak
      rw [wfAbove_cons, wfAbove_cons]
      exact ⟨hlo, ha, hb, hak, h.2⟩
    · rename_i hak
      have hne : k ≠ a := hf (k, v) (by simp)
      rw [wfAbove_cons]
      exact ⟨h.1, h.2.1, h.2.2.1, ih h.2.2.2 (show k < a by omega) fun c hc => hf c (by simp [hc])⟩

/-- Writing a byte of the address space keeps the canonical form. -/
theorem wf_writeByte {m : Memory} {a : Nat} (b : Byte) (h : Memory.wf m = true) (ha : a < 2 ^ 32) :
    Memory.wf (writeByte m a b) = true := by
  unfold writeByte
  split
  · exact wfAbove_eraseByte a h
  · rename_i hb
    exact wfAbove_insertByte (wfAbove_eraseByte a h) trivial ha hb (eraseByte_free m a)

/-- Writing a word keeps the canonical form. -/
theorem wf_writeWord {m : Memory} (a v : Word) (h : Memory.wf m = true) : Memory.wf (writeWord m a v) = true :=
  wf_writeByte _ (wf_writeByte _ (wf_writeByte _ (wf_writeByte _ h a.isLt) (a + 1#32).isLt) (a + 2#32).isLt)
    (a + 3#32).isLt

/-- `MemOr` keeps the canonical form. -/
theorem wf_orWord {m : Memory} (a v : Word) (h : Memory.wf m = true) : Memory.wf (orWord m a v) = true :=
  wf_writeWord a _ h

/-- The `MemOr`s of pixel steps keep the canonical form. -/
theorem wf_orPixels {m : Memory} (ps : List PixelStep) (h : Memory.wf m = true) :
    Memory.wf (orPixels m ps) = true := by
  induction ps generalizing m with
  | nil => exact h
  | cons p ps ih => exact ih (wf_orWord p.addr p.value h)

/-! ## Free words (93_implementation_defined.md U8, U9) -/

/-- Free words, word by word from the draw's number `k` on. -/
theorem freeWords_step (d : Nat) (m : Memory) (ws : List Word) (P : Memory → Prop) (h : P m)
    (hw : ∀ (n : Memory) (a v : Word), a ∈ ws → P n → P (writeWord n a v)) : P (freeWords d m ws) := by
  have key : ∀ (ps : List (Word × Nat)) (m : Memory), P m → (∀ p ∈ ps, p.1 ∈ ws) →
      P (ps.foldl (fun m p => writeWord m p.1 (Config.freeWord d p.2)) m) := by
    intro ps
    induction ps with
    | nil => exact fun _ hm _ => hm
    | cons p ps ih => exact fun m hm hp => ih _ (hw _ _ _ (hp p (by simp)) hm) fun q hq => hp q (by simp [hq])
  exact key _ m h fun p hp => by
    have := List.mem_zipIdx hp
    rw [this.2.2]
    exact List.getElem_mem _

/-- Free words keep the canonical form. -/
theorem wf_freeWords (d : Nat) {m : Memory} (ws : List Word) (h : Memory.wf m = true) :
    Memory.wf (freeWords d m ws) = true :=
  freeWords_step d m ws (fun n => Memory.wf n = true) h fun _ a v _ hn => wf_writeWord a v hn

/-- Free words leave alone every byte outside them. -/
theorem readByte_freeWords_outside (d : Nat) {m : Memory} {ws : List Word} {x : Nat}
    (h : ∀ a ∈ ws, x ∉ wordBytes a) : readByte (freeWords d m ws) x = readByte m x :=
  freeWords_step d m ws (fun n => readByte n x = readByte m x) rfl fun _ a v ha hn =>
    (readByte_writeWord_outside _ a v (h a ha)).trans hn

/-- The words of a range are its first word and those that follow. -/
theorem mem_rangeWords {r : Word × Nat} {a : Word} :
    a ∈ rangeWords r ↔ ∃ k, k < r.2 ∧ a = r.1 + BitVec.ofNat 32 (4 * k) := by
  simp [rangeWords, eq_comm]

/-- The reset state's memory has the canonical form. -/
theorem wf_reset : Memory.wf State.reset.mem = true := rfl

end Sys2Proof.Machine
end

