-- ==== Sys2Proof/Laws/State.lean ====
section
/-! SUPPORT. One lemma per field per update of State, true by rfl, so that no proof unfolds a record
update; and reading a register file after a write. -/

namespace Sys2Proof.Machine

variable (s : State)

/-! `setF` -/

@[simp] theorem State.setF_f (r : FReg) (v : Word) : (s.setF r v).f = s.f.set r v := rfl
@[simp] theorem State.setF_z (r : FReg) (v : Word) : (s.setF r v).z = s.z := rfl
@[simp] theorem State.setF_m (r : FReg) (v : Word) : (s.setF r v).m = s.m := rfl
@[simp] theorem State.setF_bl (r : FReg) (v : Word) : (s.setF r v).bl = s.bl := rfl
@[simp] theorem State.setF_pc (r : FReg) (v : Word) : (s.setF r v).pc = s.pc := rfl
@[simp] theorem State.setF_status (r : FReg) (v : Word) : (s.setF r v).status = s.status := rfl
@[simp] theorem State.setF_ie (r : FReg) (v : Word) : (s.setF r v).ie = s.ie := rfl
@[simp] theorem State.setF_errpc (r : FReg) (v : Word) : (s.setF r v).errpc = s.errpc := rfl
@[simp] theorem State.setF_view (r : FReg) (v : Word) : (s.setF r v).view = s.view := rfl
@[simp] theorem State.setF_rendering (r : FReg) (v : Word) : (s.setF r v).rendering = s.rendering := rfl
@[simp] theorem State.setF_mem (r : FReg) (v : Word) : (s.setF r v).mem = s.mem := rfl
@[simp] theorem State.setF_platform (r : FReg) (v : Word) : (s.setF r v).platform = s.platform := rfl
@[simp] theorem State.setF_inbox (r : FReg) (v : Word) : (s.setF r v).inbox = s.inbox := rfl
@[simp] theorem State.setF_hostData (r : FReg) (v : Word) : (s.setF r v).hostData = s.hostData := rfl
@[simp] theorem State.setF_run (r : FReg) (v : Word) : (s.setF r v).run = s.run := rfl
@[simp] theorem State.setF_freeCount (r : FReg) (v : Word) : (s.setF r v).freeCount = s.freeCount := rfl

/-! `setZ` -/

@[simp] theorem State.setZ_f (r : ZReg) (v : Cx) : (s.setZ r v).f = s.f := rfl
@[simp] theorem State.setZ_z (r : ZReg) (v : Cx) : (s.setZ r v).z = s.z.set r v := rfl
@[simp] theorem State.setZ_m (r : ZReg) (v : Cx) : (s.setZ r v).m = s.m := rfl
@[simp] theorem State.setZ_bl (r : ZReg) (v : Cx) : (s.setZ r v).bl = s.bl := rfl
@[simp] theorem State.setZ_pc (r : ZReg) (v : Cx) : (s.setZ r v).pc = s.pc := rfl
@[simp] theorem State.setZ_status (r : ZReg) (v : Cx) : (s.setZ r v).status = s.status := rfl
@[simp] theorem State.setZ_ie (r : ZReg) (v : Cx) : (s.setZ r v).ie = s.ie := rfl
@[simp] theorem State.setZ_errpc (r : ZReg) (v : Cx) : (s.setZ r v).errpc = s.errpc := rfl
@[simp] theorem State.setZ_view (r : ZReg) (v : Cx) : (s.setZ r v).view = s.view := rfl
@[simp] theorem State.setZ_rendering (r : ZReg) (v : Cx) : (s.setZ r v).rendering = s.rendering := rfl
@[simp] theorem State.setZ_mem (r : ZReg) (v : Cx) : (s.setZ r v).mem = s.mem := rfl
@[simp] theorem State.setZ_platform (r : ZReg) (v : Cx) : (s.setZ r v).platform = s.platform := rfl
@[simp] theorem State.setZ_inbox (r : ZReg) (v : Cx) : (s.setZ r v).inbox = s.inbox := rfl
@[simp] theorem State.setZ_hostData (r : ZReg) (v : Cx) : (s.setZ r v).hostData = s.hostData := rfl
@[simp] theorem State.setZ_run (r : ZReg) (v : Cx) : (s.setZ r v).run = s.run := rfl
@[simp] theorem State.setZ_freeCount (r : ZReg) (v : Cx) : (s.setZ r v).freeCount = s.freeCount := rfl

/-! `setM` -/

@[simp] theorem State.setM_f (r : MReg) (v : Mob) : (s.setM r v).f = s.f := rfl
@[simp] theorem State.setM_z (r : MReg) (v : Mob) : (s.setM r v).z = s.z := rfl
@[simp] theorem State.setM_m (r : MReg) (v : Mob) : (s.setM r v).m = s.m.set r v := rfl
@[simp] theorem State.setM_bl (r : MReg) (v : Mob) : (s.setM r v).bl = s.bl := rfl
@[simp] theorem State.setM_pc (r : MReg) (v : Mob) : (s.setM r v).pc = s.pc := rfl
@[simp] theorem State.setM_status (r : MReg) (v : Mob) : (s.setM r v).status = s.status := rfl
@[simp] theorem State.setM_ie (r : MReg) (v : Mob) : (s.setM r v).ie = s.ie := rfl
@[simp] theorem State.setM_errpc (r : MReg) (v : Mob) : (s.setM r v).errpc = s.errpc := rfl
@[simp] theorem State.setM_view (r : MReg) (v : Mob) : (s.setM r v).view = s.view := rfl
@[simp] theorem State.setM_rendering (r : MReg) (v : Mob) : (s.setM r v).rendering = s.rendering := rfl
@[simp] theorem State.setM_mem (r : MReg) (v : Mob) : (s.setM r v).mem = s.mem := rfl
@[simp] theorem State.setM_platform (r : MReg) (v : Mob) : (s.setM r v).platform = s.platform := rfl
@[simp] theorem State.setM_inbox (r : MReg) (v : Mob) : (s.setM r v).inbox = s.inbox := rfl
@[simp] theorem State.setM_hostData (r : MReg) (v : Mob) : (s.setM r v).hostData = s.hostData := rfl
@[simp] theorem State.setM_run (r : MReg) (v : Mob) : (s.setM r v).run = s.run := rfl
@[simp] theorem State.setM_freeCount (r : MReg) (v : Mob) : (s.setM r v).freeCount = s.freeCount := rfl

/-! `setB` -/

@[simp] theorem State.setB_f (r : BReg) (v : Slot) : (s.setB r v).f = s.f := rfl
@[simp] theorem State.setB_z (r : BReg) (v : Slot) : (s.setB r v).z = s.z := rfl
@[simp] theorem State.setB_m (r : BReg) (v : Slot) : (s.setB r v).m = s.m := rfl
@[simp] theorem State.setB_bl (r : BReg) (v : Slot) : (s.setB r v).bl = s.bl.set r v := rfl
@[simp] theorem State.setB_pc (r : BReg) (v : Slot) : (s.setB r v).pc = s.pc := rfl
@[simp] theorem State.setB_status (r : BReg) (v : Slot) : (s.setB r v).status = s.status := rfl
@[simp] theorem State.setB_ie (r : BReg) (v : Slot) : (s.setB r v).ie = s.ie := rfl
@[simp] theorem State.setB_errpc (r : BReg) (v : Slot) : (s.setB r v).errpc = s.errpc := rfl
@[simp] theorem State.setB_view (r : BReg) (v : Slot) : (s.setB r v).view = s.view := rfl
@[simp] theorem State.setB_rendering (r : BReg) (v : Slot) : (s.setB r v).rendering = s.rendering := rfl
@[simp] theorem State.setB_mem (r : BReg) (v : Slot) : (s.setB r v).mem = s.mem := rfl
@[simp] theorem State.setB_platform (r : BReg) (v : Slot) : (s.setB r v).platform = s.platform := rfl
@[simp] theorem State.setB_inbox (r : BReg) (v : Slot) : (s.setB r v).inbox = s.inbox := rfl
@[simp] theorem State.setB_hostData (r : BReg) (v : Slot) : (s.setB r v).hostData = s.hostData := rfl
@[simp] theorem State.setB_run (r : BReg) (v : Slot) : (s.setB r v).run = s.run := rfl
@[simp] theorem State.setB_freeCount (r : BReg) (v : Slot) : (s.setB r v).freeCount = s.freeCount := rfl

/-! `setMem` -/

@[simp] theorem State.setMem_f (x : Memory) : (s.setMem x).f = s.f := rfl
@[simp] theorem State.setMem_z (x : Memory) : (s.setMem x).z = s.z := rfl
@[simp] theorem State.setMem_m (x : Memory) : (s.setMem x).m = s.m := rfl
@[simp] theorem State.setMem_bl (x : Memory) : (s.setMem x).bl = s.bl := rfl
@[simp] theorem State.setMem_pc (x : Memory) : (s.setMem x).pc = s.pc := rfl
@[simp] theorem State.setMem_status (x : Memory) : (s.setMem x).status = s.status := rfl
@[simp] theorem State.setMem_ie (x : Memory) : (s.setMem x).ie = s.ie := rfl
@[simp] theorem State.setMem_errpc (x : Memory) : (s.setMem x).errpc = s.errpc := rfl
@[simp] theorem State.setMem_view (x : Memory) : (s.setMem x).view = s.view := rfl
@[simp] theorem State.setMem_rendering (x : Memory) : (s.setMem x).rendering = s.rendering := rfl
@[simp] theorem State.setMem_mem (x : Memory) : (s.setMem x).mem = x := rfl
@[simp] theorem State.setMem_platform (x : Memory) : (s.setMem x).platform = s.platform := rfl
@[simp] theorem State.setMem_inbox (x : Memory) : (s.setMem x).inbox = s.inbox := rfl
@[simp] theorem State.setMem_hostData (x : Memory) : (s.setMem x).hostData = s.hostData := rfl
@[simp] theorem State.setMem_run (x : Memory) : (s.setMem x).run = s.run := rfl
@[simp] theorem State.setMem_freeCount (x : Memory) : (s.setMem x).freeCount = s.freeCount := rfl

/-! `setView` -/

@[simp] theorem State.setView_f (v : View) : (s.setView v).f = s.f := rfl
@[simp] theorem State.setView_z (v : View) : (s.setView v).z = s.z := rfl
@[simp] theorem State.setView_m (v : View) : (s.setView v).m = s.m := rfl
@[simp] theorem State.setView_bl (v : View) : (s.setView v).bl = s.bl := rfl
@[simp] theorem State.setView_pc (v : View) : (s.setView v).pc = s.pc := rfl
@[simp] theorem State.setView_status (v : View) : (s.setView v).status = s.status := rfl
@[simp] theorem State.setView_ie (v : View) : (s.setView v).ie = s.ie := rfl
@[simp] theorem State.setView_errpc (v : View) : (s.setView v).errpc = s.errpc := rfl
@[simp] theorem State.setView_view (v : View) : (s.setView v).view = v := rfl
@[simp] theorem State.setView_rendering (v : View) : (s.setView v).rendering = s.rendering := rfl
@[simp] theorem State.setView_mem (v : View) : (s.setView v).mem = s.mem := rfl
@[simp] theorem State.setView_platform (v : View) : (s.setView v).platform = s.platform := rfl
@[simp] theorem State.setView_inbox (v : View) : (s.setView v).inbox = s.inbox := rfl
@[simp] theorem State.setView_hostData (v : View) : (s.setView v).hostData = s.hostData := rfl
@[simp] theorem State.setView_run (v : View) : (s.setView v).run = s.run := rfl
@[simp] theorem State.setView_freeCount (v : View) : (s.setView v).freeCount = s.freeCount := rfl

/-! `advance` -/

@[simp] theorem State.advance_f : (s.advance).f = s.f := rfl
@[simp] theorem State.advance_z : (s.advance).z = s.z := rfl
@[simp] theorem State.advance_m : (s.advance).m = s.m := rfl
@[simp] theorem State.advance_bl : (s.advance).bl = s.bl := rfl
@[simp] theorem State.advance_pc : (s.advance).pc = s.pc + 4#32 := rfl
@[simp] theorem State.advance_status : (s.advance).status = s.status := rfl
@[simp] theorem State.advance_ie : (s.advance).ie = s.ie := rfl
@[simp] theorem State.advance_errpc : (s.advance).errpc = s.errpc := rfl
@[simp] theorem State.advance_view : (s.advance).view = s.view := rfl
@[simp] theorem State.advance_rendering : (s.advance).rendering = s.rendering := rfl
@[simp] theorem State.advance_mem : (s.advance).mem = s.mem := rfl
@[simp] theorem State.advance_platform : (s.advance).platform = s.platform := rfl
@[simp] theorem State.advance_inbox : (s.advance).inbox = s.inbox := rfl
@[simp] theorem State.advance_hostData : (s.advance).hostData = s.hostData := rfl
@[simp] theorem State.advance_run : (s.advance).run = s.run := rfl
@[simp] theorem State.advance_freeCount : (s.advance).freeCount = s.freeCount := rfl

/-! `addFlags` -/

@[simp] theorem State.addFlags_f (x : Flags) : (s.addFlags x).f = s.f := rfl
@[simp] theorem State.addFlags_z (x : Flags) : (s.addFlags x).z = s.z := rfl
@[simp] theorem State.addFlags_m (x : Flags) : (s.addFlags x).m = s.m := rfl
@[simp] theorem State.addFlags_bl (x : Flags) : (s.addFlags x).bl = s.bl := rfl
@[simp] theorem State.addFlags_pc (x : Flags) : (s.addFlags x).pc = s.pc := rfl
@[simp] theorem State.addFlags_status (x : Flags) : (s.addFlags x).status = { s.status with ov := s.status.ov || x.ov, dz := s.status.dz || x.dz } := rfl
@[simp] theorem State.addFlags_ie (x : Flags) : (s.addFlags x).ie = s.ie := rfl
@[simp] theorem State.addFlags_errpc (x : Flags) : (s.addFlags x).errpc = s.errpc := rfl
@[simp] theorem State.addFlags_view (x : Flags) : (s.addFlags x).view = s.view := rfl
@[simp] theorem State.addFlags_rendering (x : Flags) : (s.addFlags x).rendering = s.rendering := rfl
@[simp] theorem State.addFlags_mem (x : Flags) : (s.addFlags x).mem = s.mem := rfl
@[simp] theorem State.addFlags_platform (x : Flags) : (s.addFlags x).platform = s.platform := rfl
@[simp] theorem State.addFlags_inbox (x : Flags) : (s.addFlags x).inbox = s.inbox := rfl
@[simp] theorem State.addFlags_hostData (x : Flags) : (s.addFlags x).hostData = s.hostData := rfl
@[simp] theorem State.addFlags_run (x : Flags) : (s.addFlags x).run = s.run := rfl
@[simp] theorem State.addFlags_freeCount (x : Flags) : (s.addFlags x).freeCount = s.freeCount := rfl

/-! `takeFault` -/

@[simp] theorem State.takeFault_f (c : Cause) : (s.takeFault c).f = s.f := rfl
@[simp] theorem State.takeFault_z (c : Cause) : (s.takeFault c).z = s.z := rfl
@[simp] theorem State.takeFault_m (c : Cause) : (s.takeFault c).m = s.m := rfl
@[simp] theorem State.takeFault_bl (c : Cause) : (s.takeFault c).bl = s.bl := rfl
@[simp] theorem State.takeFault_pc (c : Cause) : (s.takeFault c).pc = s.pc := rfl
@[simp] theorem State.takeFault_status (c : Cause) : (s.takeFault c).status = { s.status with err := true, errcode := causeCode c, busy := false } := rfl
@[simp] theorem State.takeFault_ie (c : Cause) : (s.takeFault c).ie = s.ie := rfl
@[simp] theorem State.takeFault_errpc (c : Cause) : (s.takeFault c).errpc = s.pc := rfl
@[simp] theorem State.takeFault_view (c : Cause) : (s.takeFault c).view = s.view := rfl
@[simp] theorem State.takeFault_rendering (c : Cause) : (s.takeFault c).rendering = s.rendering := rfl
@[simp] theorem State.takeFault_mem (c : Cause) : (s.takeFault c).mem = s.mem := rfl
@[simp] theorem State.takeFault_platform (c : Cause) : (s.takeFault c).platform = s.platform := rfl
@[simp] theorem State.takeFault_inbox (c : Cause) : (s.takeFault c).inbox = s.inbox := rfl
@[simp] theorem State.takeFault_hostData (c : Cause) : (s.takeFault c).hostData = s.hostData := rfl
@[simp] theorem State.takeFault_run (c : Cause) : (s.takeFault c).run = s.run := rfl
@[simp] theorem State.takeFault_freeCount (c : Cause) : (s.takeFault c).freeCount = s.freeCount := rfl

/-! `fork` -/

@[simp] theorem State.fork_f (b : BReg) : (s.fork b).f = s.f := rfl
@[simp] theorem State.fork_z (b : BReg) : (s.fork b).z = s.z := rfl
@[simp] theorem State.fork_m (b : BReg) : (s.fork b).m = s.m := rfl
@[simp] theorem State.fork_bl (b : BReg) : (s.fork b).bl = s.bl := rfl
@[simp] theorem State.fork_pc (b : BReg) : (s.fork b).pc = s.pc := rfl
@[simp] theorem State.fork_status (b : BReg) : (s.fork b).status = s.status := rfl
@[simp] theorem State.fork_ie (b : BReg) : (s.fork b).ie = s.ie := rfl
@[simp] theorem State.fork_errpc (b : BReg) : (s.fork b).errpc = s.errpc := rfl
@[simp] theorem State.fork_view (b : BReg) : (s.fork b).view = s.view := rfl
@[simp] theorem State.fork_rendering (b : BReg) : (s.fork b).rendering = some (forkRender b s) := rfl
@[simp] theorem State.fork_mem (b : BReg) : (s.fork b).mem = s.mem := rfl
@[simp] theorem State.fork_platform (b : BReg) : (s.fork b).platform = s.platform := rfl
@[simp] theorem State.fork_inbox (b : BReg) : (s.fork b).inbox = s.inbox := rfl
@[simp] theorem State.fork_hostData (b : BReg) : (s.fork b).hostData = s.hostData := rfl
@[simp] theorem State.fork_run (b : BReg) : (s.fork b).run = s.run := rfl
@[simp] theorem State.fork_freeCount (b : BReg) : (s.fork b).freeCount = s.freeCount := rfl

/-! `endRender` -/

@[simp] theorem State.endRender_f (r : Rendering) : (s.endRender r).f = s.f := rfl
@[simp] theorem State.endRender_z (r : Rendering) : (s.endRender r).z = s.z := rfl
@[simp] theorem State.endRender_m (r : Rendering) : (s.endRender r).m = s.m := rfl
@[simp] theorem State.endRender_bl (r : Rendering) : (s.endRender r).bl = s.bl := rfl
@[simp] theorem State.endRender_pc (r : Rendering) : (s.endRender r).pc = s.pc := rfl
@[simp] theorem State.endRender_status (r : Rendering) : (s.endRender r).status = s.status := rfl
@[simp] theorem State.endRender_ie (r : Rendering) : (s.endRender r).ie = s.ie := rfl
@[simp] theorem State.endRender_errpc (r : Rendering) : (s.endRender r).errpc = s.errpc := rfl
@[simp] theorem State.endRender_view (r : Rendering) : (s.endRender r).view = s.view := rfl
@[simp] theorem State.endRender_rendering (r : Rendering) : (s.endRender r).rendering = none := rfl
@[simp] theorem State.endRender_platform (r : Rendering) : (s.endRender r).platform = s.platform := rfl
@[simp] theorem State.endRender_inbox (r : Rendering) : (s.endRender r).inbox = s.inbox := rfl
@[simp] theorem State.endRender_hostData (r : Rendering) : (s.endRender r).hostData = s.hostData := rfl
@[simp] theorem State.endRender_run (r : Rendering) : (s.endRender r).run = s.run := rfl
@[simp] theorem State.endRender_freeCount (r : Rendering) : (s.endRender r).freeCount = s.freeCount + 1 := rfl

/-! `clearStatus` -/

@[simp] theorem State.clearStatus_f (w : Word) : (s.clearStatus w).f = s.f := rfl
@[simp] theorem State.clearStatus_z (w : Word) : (s.clearStatus w).z = s.z := rfl
@[simp] theorem State.clearStatus_m (w : Word) : (s.clearStatus w).m = s.m := rfl
@[simp] theorem State.clearStatus_bl (w : Word) : (s.clearStatus w).bl = s.bl := rfl
@[simp] theorem State.clearStatus_pc (w : Word) : (s.clearStatus w).pc = s.pc := rfl
@[simp] theorem State.clearStatus_ie (w : Word) : (s.clearStatus w).ie = s.ie := rfl
@[simp] theorem State.clearStatus_errpc (w : Word) : (s.clearStatus w).errpc = s.errpc := rfl
@[simp] theorem State.clearStatus_view (w : Word) : (s.clearStatus w).view = s.view := rfl
@[simp] theorem State.clearStatus_rendering (w : Word) : (s.clearStatus w).rendering = s.rendering := rfl
@[simp] theorem State.clearStatus_mem (w : Word) : (s.clearStatus w).mem = s.mem := rfl
@[simp] theorem State.clearStatus_platform (w : Word) : (s.clearStatus w).platform = s.platform := rfl
@[simp] theorem State.clearStatus_inbox (w : Word) : (s.clearStatus w).inbox = s.inbox := rfl
@[simp] theorem State.clearStatus_hostData (w : Word) : (s.clearStatus w).hostData = s.hostData := rfl
@[simp] theorem State.clearStatus_run (w : Word) : (s.clearStatus w).run = s.run := rfl
@[simp] theorem State.clearStatus_freeCount (w : Word) : (s.clearStatus w).freeCount = s.freeCount := rfl

/-! Reading a register file after an update of something else -/

@[simp] theorem State.getF_setZ (r : ZReg) (v : Cx) (q : FReg) : (s.setZ r v).getF q = s.getF q := rfl
@[simp] theorem State.getF_setM (r : MReg) (v : Mob) (q : FReg) : (s.setM r v).getF q = s.getF q := rfl
@[simp] theorem State.getF_setB (r : BReg) (v : Slot) (q : FReg) : (s.setB r v).getF q = s.getF q := rfl
@[simp] theorem State.getF_setMem (x : Memory) (q : FReg) : (s.setMem x).getF q = s.getF q := rfl
@[simp] theorem State.getF_setView (v : View) (q : FReg) : (s.setView v).getF q = s.getF q := rfl
@[simp] theorem State.getF_advance (q : FReg) : (s.advance).getF q = s.getF q := rfl
@[simp] theorem State.getF_addFlags (x : Flags) (q : FReg) : (s.addFlags x).getF q = s.getF q := rfl
@[simp] theorem State.getF_takeFault (c : Cause) (q : FReg) : (s.takeFault c).getF q = s.getF q := rfl
@[simp] theorem State.getF_fork (b : BReg) (q : FReg) : (s.fork b).getF q = s.getF q := rfl
@[simp] theorem State.getF_endRender (r : Rendering) (q : FReg) : (s.endRender r).getF q = s.getF q := rfl
@[simp] theorem State.getF_clearStatus (w : Word) (q : FReg) : (s.clearStatus w).getF q = s.getF q := rfl
@[simp] theorem State.getZ_setF (r : FReg) (v : Word) (q : ZReg) : (s.setF r v).getZ q = s.getZ q := rfl
@[simp] theorem State.getZ_setM (r : MReg) (v : Mob) (q : ZReg) : (s.setM r v).getZ q = s.getZ q := rfl
@[simp] theorem State.getZ_setB (r : BReg) (v : Slot) (q : ZReg) : (s.setB r v).getZ q = s.getZ q := rfl
@[simp] theorem State.getZ_setMem (x : Memory) (q : ZReg) : (s.setMem x).getZ q = s.getZ q := rfl
@[simp] theorem State.getZ_setView (v : View) (q : ZReg) : (s.setView v).getZ q = s.getZ q := rfl
@[simp] theorem State.getZ_advance (q : ZReg) : (s.advance).getZ q = s.getZ q := rfl
@[simp] theorem State.getZ_addFlags (x : Flags) (q : ZReg) : (s.addFlags x).getZ q = s.getZ q := rfl
@[simp] theorem State.getZ_takeFault (c : Cause) (q : ZReg) : (s.takeFault c).getZ q = s.getZ q := rfl
@[simp] theorem State.getZ_fork (b : BReg) (q : ZReg) : (s.fork b).getZ q = s.getZ q := rfl
@[simp] theorem State.getZ_endRender (r : Rendering) (q : ZReg) : (s.endRender r).getZ q = s.getZ q := rfl
@[simp] theorem State.getZ_clearStatus (w : Word) (q : ZReg) : (s.clearStatus w).getZ q = s.getZ q := rfl
@[simp] theorem State.getM_setF (r : FReg) (v : Word) (q : MReg) : (s.setF r v).getM q = s.getM q := rfl
@[simp] theorem State.getM_setZ (r : ZReg) (v : Cx) (q : MReg) : (s.setZ r v).getM q = s.getM q := rfl
@[simp] theorem State.getM_setB (r : BReg) (v : Slot) (q : MReg) : (s.setB r v).getM q = s.getM q := rfl
@[simp] theorem State.getM_setMem (x : Memory) (q : MReg) : (s.setMem x).getM q = s.getM q := rfl
@[simp] theorem State.getM_setView (v : View) (q : MReg) : (s.setView v).getM q = s.getM q := rfl
@[simp] theorem State.getM_advance (q : MReg) : (s.advance).getM q = s.getM q := rfl
@[simp] theorem State.getM_addFlags (x : Flags) (q : MReg) : (s.addFlags x).getM q = s.getM q := rfl
@[simp] theorem State.getM_takeFault (c : Cause) (q : MReg) : (s.takeFault c).getM q = s.getM q := rfl
@[simp] theorem State.getM_fork (b : BReg) (q : MReg) : (s.fork b).getM q = s.getM q := rfl
@[simp] theorem State.getM_endRender (r : Rendering) (q : MReg) : (s.endRender r).getM q = s.getM q := rfl
@[simp] theorem State.getM_clearStatus (w : Word) (q : MReg) : (s.clearStatus w).getM q = s.getM q := rfl
@[simp] theorem State.getB_setF (r : FReg) (v : Word) (q : BReg) : (s.setF r v).getB q = s.getB q := rfl
@[simp] theorem State.getB_setZ (r : ZReg) (v : Cx) (q : BReg) : (s.setZ r v).getB q = s.getB q := rfl
@[simp] theorem State.getB_setM (r : MReg) (v : Mob) (q : BReg) : (s.setM r v).getB q = s.getB q := rfl
@[simp] theorem State.getB_setMem (x : Memory) (q : BReg) : (s.setMem x).getB q = s.getB q := rfl
@[simp] theorem State.getB_setView (v : View) (q : BReg) : (s.setView v).getB q = s.getB q := rfl
@[simp] theorem State.getB_advance (q : BReg) : (s.advance).getB q = s.getB q := rfl
@[simp] theorem State.getB_addFlags (x : Flags) (q : BReg) : (s.addFlags x).getB q = s.getB q := rfl
@[simp] theorem State.getB_takeFault (c : Cause) (q : BReg) : (s.takeFault c).getB q = s.getB q := rfl
@[simp] theorem State.getB_fork (b : BReg) (q : BReg) : (s.fork b).getB q = s.getB q := rfl
@[simp] theorem State.getB_endRender (r : Rendering) (q : BReg) : (s.endRender r).getB q = s.getB q := rfl
@[simp] theorem State.getB_clearStatus (w : Word) (q : BReg) : (s.clearStatus w).getB q = s.getB q := rfl

/-! Reading a register after writing one (10_state.md R20 to R23) -/

@[simp] theorem State.getF_setF_self (r : FReg) (v : Word) : (s.setF r v).getF r = v := by
  simp [State.getF, State.setF]

theorem State.getF_setF_ne {r q : FReg} (v : Word) (h : q ≠ r) : (s.setF r v).getF q = s.getF q := by
  have hv : r.val ≠ q.val := fun e => h (Fin.ext e.symm)
  simp [State.getF, State.setF, hv]

@[simp] theorem State.getZ_setZ_self (r : ZReg) (v : Cx) : (s.setZ r v).getZ r = v := by
  simp [State.getZ, State.setZ]

theorem State.getZ_setZ_ne {r q : ZReg} (v : Cx) (h : q ≠ r) : (s.setZ r v).getZ q = s.getZ q := by
  have hv : r.val ≠ q.val := fun e => h (Fin.ext e.symm)
  simp [State.getZ, State.setZ, hv]

@[simp] theorem State.getM_setM_self (r : MReg) (v : Mob) : (s.setM r v).getM r = v := by
  simp [State.getM, State.setM]

theorem State.getM_setM_ne {r q : MReg} (v : Mob) (h : q ≠ r) : (s.setM r v).getM q = s.getM q := by
  have hv : r.val ≠ q.val := fun e => h (Fin.ext e.symm)
  simp [State.getM, State.setM, hv]

@[simp] theorem State.getB_setB_self (r : BReg) (v : Slot) : (s.setB r v).getB r = v := by
  simp [State.getB, State.setB]

theorem State.getB_setB_ne {r q : BReg} (v : Slot) (h : q ≠ r) : (s.setB r v).getB q = s.getB q := by
  have hv : r.val ≠ q.val := fun e => h (Fin.ext e.symm)
  simp [State.getB, State.setB, hv]

end Sys2Proof.Machine
end

