-- ==== Sys2Proof/Laws/Ops.lean ====
section
/-! SUPPORT. For each shared operation, once, everything it can do; and the inversion of `exec`: every
way in which a command can answer a next state. -/

namespace Sys2Proof.Machine

/-! ## Flags (10_state.md R26, 40_fixed_point.md section 1) -/

@[simp] theorem narrow_val (r : Int) : (narrow r).val = BitVec.ofInt 32 r := rfl
@[simp] theorem narrow_ov (r : Int) : (narrow r).flags.ov = !inRange r := rfl
@[simp] theorem narrow_dz (r : Int) : (narrow r).flags.dz = false := rfl
@[simp] theorem plain_val {α : Type} (v : α) : (plain v).val = v := rfl
@[simp] theorem plain_flags {α : Type} (v : α) : (plain v).flags = .none := rfl
@[simp] theorem Flags.none_ov : Flags.none.ov = false := rfl
@[simp] theorem Flags.none_dz : Flags.none.dz = false := rfl
@[simp] theorem Flags.or_ov (x y : Flags) : (x.or y).ov = (x.ov || y.ov) := rfl
@[simp] theorem Flags.or_dz (x y : Flags) : (x.or y).dz = (x.dz || y.dz) := rfl
@[simp] theorem Flags.all_nil : Flags.all [] = .none := rfl
@[simp] theorem Flags.all_cons (x : Flags) (xs : List Flags) : Flags.all (x :: xs) = x.or (.all xs) := rfl

theorem Flags.all_ov (xs : List Flags) : (Flags.all xs).ov = xs.any (·.ov) := by
  induction xs with
  | nil => rfl
  | cons x xs ih => simp [ih]

theorem Flags.all_dz (xs : List Flags) : (Flags.all xs).dz = xs.any (·.dz) := by
  induction xs with
  | nil => rfl
  | cons x xs ih => simp [ih]

/-- Exact results in RANGE are not changed by the narrowing. -/
theorem inRange_iff (r : Int) : inRange r = true ↔ -(2 ^ 31) ≤ r ∧ r < 2 ^ 31 := by simp [inRange]

theorem narrow_toInt {r : Int} (h : inRange r = true) : (narrow r).val.toInt = r := by
  rw [inRange_iff] at h
  rw [narrow_val, BitVec.toInt_ofInt_eq_self (by omega)] <;> omega

/-! ## Completing (10_state.md R25) -/

theorem complete_next {s t : State} : complete s = .next t ↔ t = s.advance := by
  simp [complete, eq_comm]

theorem doneF_next {s t : State} {r : FReg} {x : Flagged Word} :
    doneF s r x = .next t ↔ t = ((s.setF r x.val).addFlags x.flags).advance := complete_next

theorem doneZ_next {s t : State} {r : ZReg} {x : Flagged Cx} :
    doneZ s r x = .next t ↔ t = ((s.setZ r x.val).addFlags x.flags).advance := complete_next

theorem doneM_next {s t : State} {r : MReg} {x : Flagged Mob} :
    doneM s r x = .next t ↔ t = ((s.setM r x.val).addFlags x.flags).advance := complete_next

theorem doneB_next {s t : State} {r : BReg} {x : Flagged Slot} :
    doneB s r x = .next t ↔ t = ((s.setB r x.val).addFlags x.flags).advance := complete_next

/-- Whatever registers a completing command writes, the rest is as `Completed` says. -/
theorem completed_of_files {s t : State} {x : Flags} (hpc : t.pc = s.pc)
    (hst : t.status = s.status) (hv : t.view = s.view)
    (hm : t.mem = s.mem) (hk : t.ie = s.ie ∧ t.errpc = s.errpc ∧ t.rendering = s.rendering ∧
      t.platform = s.platform ∧ t.inbox = s.inbox ∧ t.hostData = s.hostData ∧ t.run = s.run ∧
      t.freeCount = s.freeCount) :
    Completed s (t.addFlags x).advance x.ov x.dz := by
  obtain ⟨h1, h2, h3, h4, h5, h6, h7, h8⟩ := hk
  refine ⟨by simp [hpc], ⟨by simp [hst], by simp [hst]⟩, hv, fun a => by simp [hm], ?_⟩
  exact ⟨by simp [hst], by simp [hst], by simp [hst], by simp [hst], h1, h2, h3, h4, h5, h6, h7, h8⟩

/-- A command whose meaning is one `doneF` completes with that value and those flags. -/
theorem completesF_of_doneF {i : Instr} {s : State} {r : FReg} {x : Flagged Word}
    (h : exec i s = doneF s r x) : CompletesF i s r x.val x.flags.ov x.flags.dz :=
  ⟨_, h, by simp, fun q hq => by simpa using State.getF_setF_ne s x.val hq, fun _ => rfl, fun _ => rfl,
    fun _ => rfl, completed_of_files rfl rfl rfl rfl ⟨rfl, rfl, rfl, rfl, rfl, rfl, rfl, rfl⟩⟩

/-- A command whose meaning is one `doneZ` completes with that value and those flags. -/
theorem completesZ_of_doneZ {i : Instr} {s : State} {r : ZReg} {x : Flagged Cx}
    (h : exec i s = doneZ s r x) : CompletesZ i s r x.val x.flags.ov x.flags.dz :=
  ⟨_, h, by simp, fun q hq => by simpa using State.getZ_setZ_ne s x.val hq, fun _ => rfl, fun _ => rfl,
    fun _ => rfl, completed_of_files rfl rfl rfl rfl ⟨rfl, rfl, rfl, rfl, rfl, rfl, rfl, rfl⟩⟩

/-- A command whose meaning is one `doneM` completes with that value and those flags. -/
theorem completesM_of_doneM {i : Instr} {s : State} {r : MReg} {x : Flagged Mob}
    (h : exec i s = doneM s r x) : CompletesM i s r x.val x.flags.ov x.flags.dz :=
  ⟨_, h, by simp, fun q hq => by simpa using State.getM_setM_ne s x.val hq, fun _ => rfl, fun _ => rfl,
    fun _ => rfl, completed_of_files rfl rfl rfl rfl ⟨rfl, rfl, rfl, rfl, rfl, rfl, rfl, rfl⟩⟩

/-- A command whose meaning is one `doneB` completes with that value and those flags. -/
theorem completesB_of_doneB {i : Instr} {s : State} {r : BReg} {x : Flagged Slot}
    (h : exec i s = doneB s r x) : CompletesB i s r x.val x.flags.ov x.flags.dz :=
  ⟨_, h, by simp, fun q hq => by simpa using State.getB_setB_ne s x.val hq, fun _ => rfl, fun _ => rfl,
    fun _ => rfl, completed_of_files rfl rfl rfl rfl ⟨rfl, rfl, rfl, rfl, rfl, rfl, rfl, rfl⟩⟩

/-! ## Faults (60_exceptions.md R285) -/

theorem faulted_next {s t : State} {c : Cause} : faulted s c = .next t ↔ t = s.takeFault c := by
  simp [faulted, eq_comm]

/-- The fault entry writes ERR, ERRCODE, ERRPC and BUSY, and nothing else. -/
theorem takeFault_entry (s : State) (c : Cause) : FaultEntry s (s.takeFault c) (causeCode c) where
  err := rfl
  errcode := rfl
  errpc := rfl
  busy := rfl
  pc := rfl
  doneBit := rfl
  ov := rfl
  dz := rfl
  files := ⟨fun _ => rfl, fun _ => rfl, fun _ => rfl, fun _ => rfl⟩
  view := rfl
  ie := rfl
  mem := fun _ => rfl
  rendering := rfl
  platform := rfl
  inbox := rfl
  hostData := rfl
  freeCount := rfl

/-- A meaning that answers `faulted` takes that fault. -/
theorem faults_of_faulted {i : Instr} {s : State} {c : Cause} (h : exec i s = faulted s c) :
    Faults i s (causeCode c) := ⟨_, h, takeFault_entry s c, rfl⟩

/-- The check of a data access (20_memory.md R63, R64): misaligned first, then not admitted. -/
theorem accessCheck_cases (s : State) (a : Word) :
    (aligned a = false ∧ accessCheck s a = some .misaligned) ∨
    (aligned a = true ∧ memAdmit s.platform a = false ∧ accessCheck s a = some .busError) ∨
    (aligned a = true ∧ memAdmit s.platform a = true ∧ accessCheck s a = none) := by
  unfold accessCheck
  cases aligned a <;> cases memAdmit s.platform a <;> simp

theorem accessCheck_none {s : State} {a : Word} :
    accessCheck s a = none ↔ aligned a = true ∧ memAdmit s.platform a = true := by
  rcases accessCheck_cases s a with ⟨h, e⟩ | ⟨h, h', e⟩ | ⟨h, h', e⟩ <;> simp [h, e] <;> simp [h']

/-! ## RENDER (45_render.md R240) -/

/-- Everything RENDER can answer, with the condition of each answer. -/
theorem execRender_cases (b : BReg) (s : State) :
    (∃ c, renderCheck s.view = some c ∧ execRender b s = faulted s c) ∨
    (renderCheck s.view = none ∧ s.platform.numWorkers = 0#8 ∧ execRender b s = .fault .noWorkers) ∨
    (renderCheck s.view = none ∧ s.platform.numWorkers ≠ 0#8 ∧ execRender b s = .next (s.fork b)) := by
  unfold execRender
  cases hc : renderCheck s.view with
  | some c => exact .inl ⟨c, rfl, rfl⟩
  | none =>
    by_cases hn : s.platform.numWorkers = 0#8
    · exact .inr (.inl ⟨rfl, hn, if_pos hn⟩)
    · exact .inr (.inr ⟨rfl, hn, if_neg hn⟩)

/-! ## The inversion of `exec` -/

/-- Every way in which a command answers a next state. -/
inductive Effect (i : Instr) (s : State) : State → Prop where
  | writeF (r : FReg) (x : Flagged Word) (h : destF i = some r) :
      Effect i s ((s.setF r x.val).addFlags x.flags).advance
  | writeZ (r : ZReg) (x : Flagged Cx) (h : destZ i = some r) :
      Effect i s ((s.setZ r x.val).addFlags x.flags).advance
  | writeM (r : MReg) (x : Flagged Mob) (h : destM i = some r) :
      Effect i s ((s.setM r x.val).addFlags x.flags).advance
  | writeB (r : BReg) (x : Flagged Slot) (h : destB i = some r) :
      Effect i s ((s.setB r x.val).addFlags x.flags).advance
  | nop (h : i = .nop) : Effect i s s.advance
  | halt (h : i = .halt) :
      Effect i s { s.advance with status := { s.status with done := true, busy := false } }
  | view (c : Csr) (fs : FReg) (h : i = .csrw c fs) (hw : c.writable = true) :
      Effect i s (s.setView (writeView s.view c (s.getF fs))).advance
  | orw (fv fa : FReg) (h : i = .pxOrw fv fa) (hc : accessCheck s (s.getF fa) = none) :
      Effect i s (s.setMem (orWord s.mem (s.getF fa) (s.getF fv))).advance
  | fault (c : Cause) : Effect i s (s.takeFault c)
  | fork (b : BReg) (h : i = .render b) (hc : renderCheck s.view = none)
      (hn : s.platform.numWorkers ≠ 0#8) : Effect i s (s.fork b)

/-- One command, one effect: what every claim about all commands is derived from. -/
theorem exec_effect {i : Instr} {s t : State} (h : exec i s = .next t) : Effect i s t := by
  cases i with
  | nop => obtain rfl := complete_next.mp h; exact .nop rfl
  | halt =>
    have e : t = { s.advance with status := { s.status with done := true, busy := false } } := by
      simpa [exec, execHalt, eq_comm] using h
    subst e; exact .halt rfl
  | csrw c fs =>
    simp only [exec, execCsrw] at h
    split at h
    · rename_i hw; obtain rfl := complete_next.mp h; exact .view c fs rfl hw
    · obtain rfl := faulted_next.mp h; exact .fault _
  | ldW fd fa =>
    simp only [exec, execLdW] at h
    split at h
    · obtain rfl := faulted_next.mp h; exact .fault _
    · obtain rfl := doneF_next.mp h; exact .writeF _ _ rfl
  | pxOrw fv fa =>
    simp only [exec, execPxOrw] at h
    split at h
    · obtain rfl := faulted_next.mp h; exact .fault _
    · rename_i hc; obtain rfl := complete_next.mp h; exact .orw fv fa rfl hc
  | pxSample fd zs =>
    simp only [exec, execPxSample] at h
    split at h
    · obtain rfl := faulted_next.mp h; exact .fault _
    split at h
    · obtain rfl := faulted_next.mp h; exact .fault _
    split at h
    · obtain rfl := faulted_next.mp h; exact .fault _
    · obtain rfl := doneF_next.mp h; exact .writeF _ _ rfl
  | render b =>
    rw [show exec (.render b) s = execRender b s from rfl] at h
    rcases execRender_cases b s with ⟨c, _, e⟩ | ⟨_, _, e⟩ | ⟨hc, hn, e⟩ <;> rw [e] at h
    · obtain rfl := faulted_next.mp h; exact .fault _
    · cases h
    · cases h; exact .fork b rfl hc hn
  | csrr | fxAdd | fxSub | fxMul | fxDiv | fxNeg | fxFrac | fxInt | fxCmp | fxNot | fxTou | fxFromi | fxLih
  | fxLil | cxRe | cxIm | mobIsid | blCount | pxBlend =>
    obtain rfl := doneF_next.mp h; exact .writeF _ _ rfl
  | cxAdd | cxSub | cxMul | cxDiv | cxConj | cxGuard | cxPack | mobApply | mobGet | blEval =>
    obtain rfl := doneZ_next.mp h; exact .writeZ _ _ rfl
  | mobSet | mobId | mobHyp | mobComp | mobInv | blGetf | blFrame =>
    obtain rfl := doneM_next.mp h; exact .writeM _ _ rfl
  | blClr | blAppend | blMul | blRcomp | blLcomp =>
    obtain rfl := doneB_next.mp h; exact .writeB _ _ rfl

end Sys2Proof.Machine
end

