-- ==== Sys2Proof/Laws/PerInstr.lean ====
section
/-! SUPPORT. A family of lemmas, one per constructor: the encoder writes the opcode of the opcode map and
keeps the must-be-zero bits of the format (30_encoding.md R92, R97). -/

namespace Sys2Proof.Laws

/-- The word of `i` has its opcode in bits 31:24 and zeros in the must-be-zero bits of its format. -/
def EncodeFormat.Statement (i : Instr) : Prop :=
  fieldOp (encode i) = instrOpcode i ∧ encode i &&& formatMask (instrFormat i) = matchWord (instrOpcode i)

theorem EncodeFormat.nop : EncodeFormat.Statement (.nop) :=
  ⟨fieldOp_regWord _ _ _ _ _ _, mask_N _⟩

theorem EncodeFormat.halt : EncodeFormat.Statement (.halt) :=
  ⟨fieldOp_regWord _ _ _ _ _ _, mask_N _⟩

theorem EncodeFormat.csrr (fd : FReg) (csr : Csr) : EncodeFormat.Statement (.csrr fd csr) :=
  ⟨fieldOp_immWord _ _ _, mask_I _ _ _⟩

theorem EncodeFormat.csrw (csr : Csr) (fs : FReg) : EncodeFormat.Statement (.csrw csr fs) :=
  ⟨fieldOp_immWord _ _ _, mask_I _ _ _⟩

theorem EncodeFormat.ldW (fd fa : FReg) : EncodeFormat.Statement (.ldW fd fa) :=
  ⟨fieldOp_regWord _ _ _ _ _ _, mask_R2 _ _ _⟩

theorem EncodeFormat.pxOrw (fv fa : FReg) : EncodeFormat.Statement (.pxOrw fv fa) :=
  ⟨fieldOp_regWord _ _ _ _ _ _, mask_R2 _ _ _⟩

theorem EncodeFormat.fxAdd (fd fa fb : FReg) : EncodeFormat.Statement (.fxAdd fd fa fb) :=
  ⟨fieldOp_regWord _ _ _ _ _ _, mask_R3 _ _ _ _⟩

theorem EncodeFormat.fxSub (fd fa fb : FReg) : EncodeFormat.Statement (.fxSub fd fa fb) :=
  ⟨fieldOp_regWord _ _ _ _ _ _, mask_R3 _ _ _ _⟩

theorem EncodeFormat.fxMul (fd fa fb : FReg) : EncodeFormat.Statement (.fxMul fd fa fb) :=
  ⟨fieldOp_regWord _ _ _ _ _ _, mask_R3 _ _ _ _⟩

theorem EncodeFormat.fxDiv (fd fa fb : FReg) : EncodeFormat.Statement (.fxDiv fd fa fb) :=
  ⟨fieldOp_regWord _ _ _ _ _ _, mask_R3 _ _ _ _⟩

theorem EncodeFormat.fxNeg (fd fa : FReg) : EncodeFormat.Statement (.fxNeg fd fa) :=
  ⟨fieldOp_regWord _ _ _ _ _ _, mask_R2 _ _ _⟩

theorem EncodeFormat.fxFrac (fd fa : FReg) : EncodeFormat.Statement (.fxFrac fd fa) :=
  ⟨fieldOp_regWord _ _ _ _ _ _, mask_R2 _ _ _⟩

theorem EncodeFormat.fxInt (fd fa : FReg) : EncodeFormat.Statement (.fxInt fd fa) :=
  ⟨fieldOp_regWord _ _ _ _ _ _, mask_R2 _ _ _⟩

theorem EncodeFormat.fxCmp (fd fa fb : FReg) : EncodeFormat.Statement (.fxCmp fd fa fb) :=
  ⟨fieldOp_regWord _ _ _ _ _ _, mask_R3 _ _ _ _⟩

theorem EncodeFormat.fxNot (fd fa : FReg) : EncodeFormat.Statement (.fxNot fd fa) :=
  ⟨fieldOp_regWord _ _ _ _ _ _, mask_R2 _ _ _⟩

theorem EncodeFormat.fxTou (fd fa : FReg) : EncodeFormat.Statement (.fxTou fd fa) :=
  ⟨fieldOp_regWord _ _ _ _ _ _, mask_R2 _ _ _⟩

theorem EncodeFormat.fxFromi (fd fa : FReg) : EncodeFormat.Statement (.fxFromi fd fa) :=
  ⟨fieldOp_regWord _ _ _ _ _ _, mask_R2 _ _ _⟩

theorem EncodeFormat.fxLih (fd : FReg) (imm : BitVec 16) : EncodeFormat.Statement (.fxLih fd imm) :=
  ⟨fieldOp_immWord _ _ _, mask_I _ _ _⟩

theorem EncodeFormat.fxLil (fd : FReg) (imm : BitVec 16) : EncodeFormat.Statement (.fxLil fd imm) :=
  ⟨fieldOp_immWord _ _ _, mask_I _ _ _⟩

theorem EncodeFormat.cxAdd (zd za zb : ZReg) : EncodeFormat.Statement (.cxAdd zd za zb) :=
  ⟨fieldOp_regWord _ _ _ _ _ _, mask_R3 _ _ _ _⟩

theorem EncodeFormat.cxSub (zd za zb : ZReg) : EncodeFormat.Statement (.cxSub zd za zb) :=
  ⟨fieldOp_regWord _ _ _ _ _ _, mask_R3 _ _ _ _⟩

theorem EncodeFormat.cxMul (zd za zb : ZReg) : EncodeFormat.Statement (.cxMul zd za zb) :=
  ⟨fieldOp_regWord _ _ _ _ _ _, mask_R3 _ _ _ _⟩

theorem EncodeFormat.cxDiv (zd za zb : ZReg) : EncodeFormat.Statement (.cxDiv zd za zb) :=
  ⟨fieldOp_regWord _ _ _ _ _ _, mask_R3 _ _ _ _⟩

theorem EncodeFormat.cxConj (zd za : ZReg) : EncodeFormat.Statement (.cxConj zd za) :=
  ⟨fieldOp_regWord _ _ _ _ _ _, mask_R2 _ _ _⟩

theorem EncodeFormat.cxGuard (zd za : ZReg) : EncodeFormat.Statement (.cxGuard zd za) :=
  ⟨fieldOp_regWord _ _ _ _ _ _, mask_R2 _ _ _⟩

theorem EncodeFormat.cxPack (zd : ZReg) (fre fim : FReg) : EncodeFormat.Statement (.cxPack zd fre fim) :=
  ⟨fieldOp_regWord _ _ _ _ _ _, mask_R3 _ _ _ _⟩

theorem EncodeFormat.cxRe (fd : FReg) (za : ZReg) : EncodeFormat.Statement (.cxRe fd za) :=
  ⟨fieldOp_regWord _ _ _ _ _ _, mask_R2 _ _ _⟩

theorem EncodeFormat.cxIm (fd : FReg) (za : ZReg) : EncodeFormat.Statement (.cxIm fd za) :=
  ⟨fieldOp_regWord _ _ _ _ _ _, mask_R2 _ _ _⟩

theorem EncodeFormat.mobSet (md : MReg) (za zb zc zd : ZReg) : EncodeFormat.Statement (.mobSet md za zb zc zd) :=
  ⟨fieldOp_regWord _ _ _ _ _ _, mask_R5 _ _ _ _ _ _⟩

theorem EncodeFormat.mobId (md : MReg) : EncodeFormat.Statement (.mobId md) :=
  ⟨fieldOp_regWord _ _ _ _ _ _, mask_R1 _ _⟩

theorem EncodeFormat.mobHyp (md : MReg) (zs : ZReg) : EncodeFormat.Statement (.mobHyp md zs) :=
  ⟨fieldOp_regWord _ _ _ _ _ _, mask_R2 _ _ _⟩

theorem EncodeFormat.mobComp (md ma mb : MReg) : EncodeFormat.Statement (.mobComp md ma mb) :=
  ⟨fieldOp_regWord _ _ _ _ _ _, mask_R3 _ _ _ _⟩

theorem EncodeFormat.mobInv (md ma : MReg) : EncodeFormat.Statement (.mobInv md ma) :=
  ⟨fieldOp_regWord _ _ _ _ _ _, mask_R2 _ _ _⟩

theorem EncodeFormat.mobApply (zd : ZReg) (ma : MReg) (zs : ZReg) : EncodeFormat.Statement (.mobApply zd ma zs) :=
  ⟨fieldOp_regWord _ _ _ _ _ _, mask_R3 _ _ _ _⟩

theorem EncodeFormat.mobGet (zd : ZReg) (ma : MReg) (k : Fin 4) : EncodeFormat.Statement (.mobGet zd ma k) :=
  ⟨fieldOp_regWord _ _ _ _ _ _, mask_R3 _ _ _ _⟩

theorem EncodeFormat.mobIsid (fd : FReg) (ma : MReg) : EncodeFormat.Statement (.mobIsid fd ma) :=
  ⟨fieldOp_regWord _ _ _ _ _ _, mask_R2 _ _ _⟩

theorem EncodeFormat.blClr (b : BReg) : EncodeFormat.Statement (.blClr b) :=
  ⟨fieldOp_regWord _ _ _ _ _ _, mask_R1 _ _⟩

theorem EncodeFormat.blAppend (b : BReg) (ma : MReg) : EncodeFormat.Statement (.blAppend b ma) :=
  ⟨fieldOp_regWord _ _ _ _ _ _, mask_R2 _ _ _⟩

theorem EncodeFormat.blMul (bd bs : BReg) : EncodeFormat.Statement (.blMul bd bs) :=
  ⟨fieldOp_regWord _ _ _ _ _ _, mask_R2 _ _ _⟩

theorem EncodeFormat.blRcomp (b : BReg) (ma : MReg) : EncodeFormat.Statement (.blRcomp b ma) :=
  ⟨fieldOp_regWord _ _ _ _ _ _, mask_R2 _ _ _⟩

theorem EncodeFormat.blLcomp (b : BReg) (ma : MReg) : EncodeFormat.Statement (.blLcomp b ma) :=
  ⟨fieldOp_regWord _ _ _ _ _ _, mask_R2 _ _ _⟩

theorem EncodeFormat.blEval (zd : ZReg) (b : BReg) (zs : ZReg) : EncodeFormat.Statement (.blEval zd b zs) :=
  ⟨fieldOp_regWord _ _ _ _ _ _, mask_R3 _ _ _ _⟩

theorem EncodeFormat.blCount (fd : FReg) (b : BReg) : EncodeFormat.Statement (.blCount fd b) :=
  ⟨fieldOp_regWord _ _ _ _ _ _, mask_R2 _ _ _⟩

theorem EncodeFormat.blGetf (md : MReg) (b : BReg) (k : Fin 6) : EncodeFormat.Statement (.blGetf md b k) :=
  ⟨fieldOp_regWord _ _ _ _ _ _, mask_R3 _ _ _ _⟩

theorem EncodeFormat.blFrame (md : MReg) (b : BReg) : EncodeFormat.Statement (.blFrame md b) :=
  ⟨fieldOp_regWord _ _ _ _ _ _, mask_R2 _ _ _⟩

theorem EncodeFormat.pxBlend (fd fa fx fy : FReg) : EncodeFormat.Statement (.pxBlend fd fa fx fy) :=
  ⟨fieldOp_regWord _ _ _ _ _ _, mask_R4 _ _ _ _ _⟩

theorem EncodeFormat.pxSample (fd : FReg) (zs : ZReg) : EncodeFormat.Statement (.pxSample fd zs) :=
  ⟨fieldOp_regWord _ _ _ _ _ _, mask_R2 _ _ _⟩

theorem EncodeFormat.render (b : BReg) : EncodeFormat.Statement (.render b) :=
  ⟨fieldOp_regWord _ _ _ _ _ _, mask_R1 _ _⟩

end Sys2Proof.Laws
end

