-- ==== Sys2Proof/Laws/Render.lean ====
section
/-! SUPPORT. What the pieces of a RENDER do: the addresses of its pixels, the overlap premise, the
`MemOr`s (45_render.md R247, 20_memory.md R76), and everything one step of a worker can do. -/

namespace Sys2Proof.Machine

/-! ## Dimensions and addresses -/

theorem dimOk_iff (d : Word) : dimOk d = true ↔ 2 ≤ d.toNat ∧ d.toNat ≤ 32768 := by
  rw [dimOk, Bool.and_eq_true, decide_eq_true_iff, decide_eq_true_iff]
  rfl

theorem dstOk_iff (v : View) : v.dstOk = true ↔
    (2 ≤ v.dstW.toNat ∧ v.dstW.toNat ≤ 32768) ∧ (2 ≤ v.dstH.toNat ∧ v.dstH.toNat ≤ 32768) := by
  simp [View.dstOk, dimOk_iff]

theorem srcOk_iff (v : View) : v.srcOk = true ↔
    (2 ≤ v.srcW.toNat ∧ v.srcW.toNat ≤ 32768) ∧ (2 ≤ v.srcH.toNat ∧ v.srcH.toNat ≤ 32768) := by
  simp [View.srcOk, dimOk_iff]

/-- The upfront checks of RENDER pass exactly when every condition of R240 holds. -/
theorem renderCheck_none (v : View) : renderCheck v = none ↔
    v.srcOk = true ∧ v.dstOk = true ∧ aligned v.srcBase = true ∧ aligned v.dstBase = true := by
  unfold renderCheck
  cases v.srcOk <;> cases v.dstOk <;> cases aligned v.srcBase <;> cases aligned v.dstBase <;> simp

/-- A legal destination has at most 2^30 words, so it never overlaps itself by wrapping. -/
theorem dstWords_le {v : View} (h : v.dstOk = true) : dstWords v ≤ 2 ^ 30 := by
  rw [dstOk_iff] at h
  calc dstWords v ≤ 32768 * 32768 := Nat.mul_le_mul h.1.2 h.2.2
    _ = 2 ^ 30 := by norm_num

theorem srcWords_le {v : View} (h : v.srcOk = true) : srcWords v ≤ 2 ^ 30 := by
  rw [srcOk_iff] at h
  calc srcWords v ≤ 32768 * 32768 := Nat.mul_le_mul h.1.2 h.2.2
    _ = 2 ^ 30 := by norm_num

/-- The index of a destination pixel is below the number of words. -/
theorem pixelIndex_lt {v : View} {i j : Nat} (h : InDst v i j) : j * v.dstW.toNat + i < dstWords v := by
  obtain ⟨hi, hj⟩ := h
  calc j * v.dstW.toNat + i < j * v.dstW.toNat + v.dstW.toNat := by omega
    _ = (j + 1) * v.dstW.toNat := by ring
    _ ≤ v.dstH.toNat * v.dstW.toNat := Nat.mul_le_mul_right _ hj
    _ = dstWords v := Nat.mul_comm _ _

/-- The destination's pixel (i, j) is its word number `j·DST_W + i`. -/
theorem dstAddr_eq (v : View) (i j : Nat) :
    dstAddr v i j = v.dstBase + BitVec.ofNat 32 (4 * (j * v.dstW.toNat + i)) := by
  apply BitVec.eq_of_toNat_eq
  simp [dstAddr]

/-- Two different destination pixels have different indices. -/
theorem pixelIndex_inj {v : View} {i j i' j' : Nat} (h : InDst v i j) (h' : InDst v i' j')
    (e : j * v.dstW.toNat + i = j' * v.dstW.toNat + i') : i = i' ∧ j = j' := by
  have hw : 0 < v.dstW.toNat := by have := h.1; omega
  have e1 : (j * v.dstW.toNat + i) / v.dstW.toNat = j := by
    rw [Nat.add_comm, Nat.add_mul_div_right _ _ hw, Nat.div_eq_of_lt h.1, Nat.zero_add]
  have e2 : (j' * v.dstW.toNat + i') / v.dstW.toNat = j' := by
    rw [Nat.add_comm, Nat.add_mul_div_right _ _ hw, Nat.div_eq_of_lt h'.1, Nat.zero_add]
  have hj : j = j' := by rw [← e1, ← e2, e]
  subst hj
  exact ⟨by omega, rfl⟩

/-- Words of one range of at most 2^30 words have different addresses. -/
theorem wordAddr_inj (base : Word) {n k : Nat} (hn : n < 2 ^ 30) (hk : k < 2 ^ 30)
    (e : base + BitVec.ofNat 32 (4 * n) = base + BitVec.ofNat 32 (4 * k)) : n = k := by
  have := congrArg BitVec.toNat e
  simp only [BitVec.toNat_add, BitVec.toNat_ofNat] at this
  have := base.isLt
  omega

/-- Different destination pixels are different words. -/
theorem dstAddr_inj {v : View} (hd : v.dstOk = true) {i j i' j' : Nat} (h : InDst v i j)
    (h' : InDst v i' j') (e : dstAddr v i j = dstAddr v i' j') : i = i' ∧ j = j' := by
  rw [dstAddr_eq, dstAddr_eq] at e
  have hl := dstWords_le hd
  exact pixelIndex_inj h h' (wordAddr_inj _ (lt_of_lt_of_le (pixelIndex_lt h) hl)
    (lt_of_lt_of_le (pixelIndex_lt h') hl) e)

/-- A word of an aligned range is aligned (20_memory.md R63). -/
theorem aligned_wordAddr {base : Word} (h : aligned base = true) (n : Nat) :
    aligned (base + BitVec.ofNat 32 (4 * n)) = true := by
  rw [aligned_iff] at h ⊢
  have := base.isLt
  simp only [BitVec.toNat_add, BitVec.toNat_ofNat]
  omega

theorem aligned_dstAddr {v : View} (h : aligned v.dstBase = true) (i j : Nat) :
    aligned (dstAddr v i j) = true := by rw [dstAddr_eq]; exact aligned_wordAddr h _

/-! ## The overlap premise (20_memory.md R76) -/

/-- Two aligned ranges, the first of at most 2^30 words, meet exactly when they share a word. -/
theorem rangesMeet_false {a b : Word} {na nb : Nat} (ha : aligned a = true) (hb : aligned b = true)
    (hna : na ≤ 2 ^ 30) : rangesMeet a na b nb = false ↔
    ∀ n k, n < na → k < nb → a + BitVec.ofNat 32 (4 * n) ≠ b + BitVec.ofNat 32 (4 * k) := by
  rw [aligned_iff] at ha hb
  have hA := a.isLt
  have hB := b.isLt
  constructor
  · intro h n k hn hk e
    have e' := congrArg BitVec.toNat e
    simp only [BitVec.toNat_add, BitVec.toNat_ofNat] at e'
    have h1 : 0 < na := by omega
    have h2 : 0 < nb := by omega
    simp only [rangesMeet, h1, h2, decide_true, Bool.true_and, Bool.or_eq_false_iff, decide_eq_false_iff_not,
      BitVec.toNat_sub] at h
    omega
  · intro h
    by_contra hc
    simp only [Bool.not_eq_false, rangesMeet, Bool.and_eq_true, decide_eq_true_eq, Bool.or_eq_true] at hc
    obtain ⟨⟨h1, h2⟩, h3 | h3⟩ := hc
    · refine h ((b - a).toNat / 4) 0 (by omega) h2 ?_
      apply BitVec.eq_of_toNat_eq
      simp only [BitVec.toNat_add, BitVec.toNat_ofNat, BitVec.toNat_sub] at h3 ⊢
      omega
    · refine h 0 ((a - b).toNat / 4) h1 (by omega) ?_
      apply BitVec.eq_of_toNat_eq
      simp only [BitVec.toNat_add, BitVec.toNat_ofNat, BitVec.toNat_sub] at h3 ⊢
      omega

/-- The premise as the model tests it is the premise as R76 words it. -/
theorem overlapBroken_false {s : State} (hd : s.view.dstOk = true)
    (hsa : aligned s.view.srcBase = true) (hda : aligned s.view.dstBase = true)
    (hr : aligned s.run.start = true) : overlapBroken s = false ↔ NoOverlap s := by
  unfold overlapBroken NoOverlap
  simp only [dstMeets]
  rw [Bool.or_eq_false_iff, Bool.or_eq_false_iff, rangesMeet_false hda hsa (dstWords_le hd),
    rangesMeet_false hda hr (dstWords_le hd), rangesMeet_false hda hr (dstWords_le hd), and_assoc]

/-! ## The `MemOr`s (45_render.md R247) -/

/-- The `MemOr`s leave alone every byte that is in none of their words. -/
theorem readByte_orPixels_outside {m : Memory} {ps : List PixelStep} {x : Nat}
    (h : ∀ p ∈ ps, x ∉ wordBytes p.addr) : readByte (orPixels m ps) x = readByte m x := by
  induction ps generalizing m with
  | nil => rfl
  | cons p ps ih =>
    show readByte (orPixels (orWord m p.addr p.value) ps) x = _
    rw [ih fun q hq => h q (by simp [hq]), readByte_orWord_outside _ _ _ (h p (by simp))]

/-- The `MemOr`s leave alone every aligned word that is none of theirs. -/
theorem readWord_orPixels_outside {m : Memory} {ps : List PixelStep} {a : Word} (ha : aligned a = true)
    (hal : ∀ p ∈ ps, aligned p.addr = true) (h : ∀ p ∈ ps, p.addr ≠ a) :
    readWord (orPixels m ps) a = readWord m a := by
  induction ps generalizing m with
  | nil => rfl
  | cons p ps ih =>
    show readWord (orPixels (orWord m p.addr p.value) ps) a = _
    rw [ih (fun q hq => hal q (by simp [hq])) (fun q hq => h q (by simp [hq])),
      readWord_orWord_ne _ _ (hal p (by simp)) ha (Ne.symm (h p (by simp)))]

/-- With distinct words, each one is ORed with its own value. -/
theorem readWord_orPixels {m : Memory} {ps : List PixelStep} (hal : ∀ p ∈ ps, aligned p.addr = true)
    (hd : (ps.map (·.addr)).Nodup) {p : PixelStep} (hp : p ∈ ps) :
    readWord (orPixels m ps) p.addr = readWord m p.addr ||| p.value := by
  induction ps generalizing m with
  | nil => simp at hp
  | cons q ps ih =>
    rw [List.map_cons, List.nodup_cons] at hd
    have hne : ∀ r ∈ ps, r.addr ≠ q.addr := fun r hr e => hd.1 (e ▸ List.mem_map_of_mem hr)
    show readWord (orPixels (orWord m q.addr q.value) ps) p.addr = _
    rcases List.mem_cons.mp hp with rfl | hp'
    · rw [readWord_orPixels_outside (hal p (by simp)) (fun r hr => hal r (by simp [hr])) hne,
        readWord_orWord_self]
    · rw [ih (fun r hr => hal r (by simp [hr])) hd.2 hp',
        readWord_orWord_ne _ _ (hal q (by simp)) (hal p hp) (hne p hp')]

/-! ## The destination -/

/-- The word number of a destination byte: outside the destination is outside each of its words. -/
theorem outsideDst_words {v : View} {x : Nat} (h : OutsideDst v x) :
    ∀ k, k < dstWords v → x ∉ wordBytes (v.dstBase + BitVec.ofNat 32 (4 * k)) := by
  intro k hk
  have hw : 0 < v.dstW.toNat := by
    by_contra hc
    simp [dstWords, Nat.eq_zero_of_not_pos hc] at hk
  have hi : k % v.dstW.toNat < v.dstW.toNat := Nat.mod_lt _ hw
  have hj : k / v.dstW.toNat < v.dstH.toNat := (Nat.div_lt_iff_lt_mul hw).mpr (by rwa [Nat.mul_comm])
  have := h _ _ ⟨hi, hj⟩
  rwa [dstAddr_eq, Nat.div_add_mod'] at this

/-! ## One step of a worker (70_reset_and_hazards.md R330) -/

/-- Every way in which a worker of `r` can move (45_render.md R247, R248). -/
inductive Moved (r : Rendering) (s : State) : State → Prop where
  | idle (h : r.workers = []) : Moved r s s
  | stops (k : Nat) (x : Worker) (hk : r.workers[k]? = some x) (hb : r.broken = true) :
      Moved r s { s with rendering := some { r with workers := r.workers.eraseIdx k } }
  | pixel (k : Nat) (x : Worker) (hk : r.workers[k]? = some x)
      (hr : (pixelStep s r.slot x.col x.row).readsAdmitted = true)
      (hw : (pixelStep s r.slot x.col x.row).writeAdmitted = true) :
      Moved r s { s with
        mem := pixelMem r s (pixelStep s r.slot x.col x.row)
        run := s.run.add (pixelTransfers r s (pixelStep s r.slot x.col x.row))
        rendering := some { r with
          workers := putWorker k (x.next s.view.dstW.toNat) r.workers
          flags := r.collect (pixelStep s r.slot x.col x.row).flags } }
  | error (k : Nat) (x : Worker) (flags : Flags) (hk : r.workers[k]? = some x)
      (ha : ((pixelStep s r.slot x.col x.row).readsAdmitted &&
        (pixelStep s r.slot x.col x.row).writeAdmitted) = false)
      (hf : flags = r.flags ∨ (pixelStep s r.slot x.col x.row).readsAdmitted = true ∧
        flags = r.collect (pixelStep s r.slot x.col x.row).flags) :
      Moved r s { s with rendering := some { r with
        workers := r.workers.eraseIdx k, broken := true, flags := flags } }

theorem moveWorker_moved (r : Rendering) (s : State) : Moved r s (moveWorker r s) := by
  have hlt : r.workers ≠ [] → choose (Config.nextWorker s.freeCount) r.workers.length < r.workers.length := by
    intro hne
    have hl : 0 < r.workers.length := List.length_pos_iff.mpr hne
    unfold choose
    split
    · exact hl
    · exact Nat.mod_lt _ hl
  simp only [moveWorker]
  generalize choose (Config.nextWorker s.freeCount) r.workers.length = k at hlt ⊢
  cases hx : r.workers[k]? with
  | none =>
    refine .idle ?_
    by_contra hne
    exact absurd (List.getElem?_eq_none_iff.mp hx) (Nat.not_le.mpr (hlt hne))
  | some x =>
    simp only
    split
    · rename_i hb
      exact .stops _ x hx (Bool.and_eq_true_iff.mp hb).1
    · simp only [pixelMove]
      split
      · rename_i h
        exact .pixel _ x hx (Bool.and_eq_true_iff.mp h).1 (Bool.and_eq_true_iff.mp h).2
      · rename_i h
        refine .error _ x _ hx (Bool.eq_false_iff.mpr h) ?_
        split
        · rename_i hr; exact .inr ⟨hr, rfl⟩
        · exact .inl rfl

/-- What no step of a worker changes: the registers, the view CSRs, `pc`, STATUS, and the host's side (45_render.md
R245). -/
structure SameBlock (s t : State) : Prop where
  f : t.f = s.f
  z : t.z = s.z
  m : t.m = s.m
  bl : t.bl = s.bl
  view : t.view = s.view
  pc : t.pc = s.pc
  status : t.status = s.status
  ie : t.ie = s.ie
  errpc : t.errpc = s.errpc
  platform : t.platform = s.platform
  inbox : t.inbox = s.inbox
  hostData : t.hostData = s.hostData

theorem Moved.sameBlock {r : Rendering} {s t : State} (h : Moved r s t) : SameBlock s t := by
  cases h <;> exact ⟨rfl, rfl, rfl, rfl, rfl, rfl, rfl, rfl, rfl, rfl, rfl, rfl⟩

/-- The end of a RENDER changes memory, the workers and the draws, and nothing else. -/
theorem endRender_sameBlock (s : State) (r : Rendering) : SameBlock s (s.endRender r) :=
  ⟨rfl, rfl, rfl, rfl, rfl, rfl, rfl, rfl, rfl, rfl, rfl, rfl⟩

/-- Where the overlap premise holds, the end of a RENDER leaves memory as the pixels made it. -/
theorem endRender_mem {s : State} {r : Rendering} (h : r.overlap = false) : (s.endRender r).mem = s.mem := by
  simp [State.endRender, h]

/-- The end of a RENDER changes no byte outside the destination. -/
theorem endRender_outside {s : State} (r : Rendering) {x : Nat}
    (h : OutsideDst s.view x) : readByte (s.endRender r).mem x = readByte s.mem x := by
  unfold State.endRender
  split
  · refine readByte_freeWords_outside _ fun a ha => ?_
    obtain ⟨k, hk, rfl⟩ := mem_rangeWords.mp ha
    exact outsideDst_words h k hk
  · rfl

/-- The join: the flags of every pixel and the next `pc`, or the fault entry with BUS_ERROR. -/
theorem join_cases (r : Rendering) (s : State) :
    (r.broken = true ∧
      join r s = .next (((s.endRender r).addFlags (flagsSeen s.freeCount r.flags)).takeFault .busError)) ∨
    (r.broken = false ∧ join r s = .next (((s.endRender r).addFlags r.flags).advance)) := by
  unfold join
  cases r.broken
  · exact .inr ⟨rfl, rfl⟩
  · exact .inl ⟨rfl, rfl⟩

/-- One step of a running RENDER: a worker moves, and if none is live after it, the join follows. -/
theorem workerStep_cases {r : Rendering} {s t : State} (h : workerStep r s = .next t) :
    ∃ u, Moved r s u ∧
      ((t = { u with freeCount := s.freeCount + 1 } ∧ ∀ q, u.rendering = some q → q.workers ≠ []) ∨
        ∃ q, u.rendering = some q ∧ q.workers = [] ∧ join q { u with freeCount := s.freeCount + 1 } = .next t) := by
  refine ⟨moveWorker r s, moveWorker_moved r s, ?_⟩
  unfold workerStep joinWhenDone at h
  split at h
  · rename_i hq
    cases h
    exact .inl ⟨rfl, fun q e => nomatch hq.symm.trans e⟩
  · rename_i q hq
    split at h
    · rename_i he
      exact .inr ⟨q, hq, List.isEmpty_iff.mp he, h⟩
    · rename_i he
      cases h
      refine .inl ⟨rfl, fun p e => ?_⟩
      obtain rfl : q = p := Option.some.inj (hq.symm.trans e)
      exact fun e' => he (List.isEmpty_iff.mpr e')

end Sys2Proof.Machine
end

