-- ==== Sys2Proof/Laws/Run.lean ====
section
/-! SUPPORT. What the record of a run does to a state (Machine/Race.lean, Machine/Fetch.lean): it changes
memory, the record itself and the draws; a host write also F registers that hold pixels. -/

namespace Sys2Proof.Machine

/-- `t` is `s` but for memory, the record of the run and the number of draws. -/
def RecordOnly (s t : State) : Prop := ∃ m l n, t = { s with mem := m, run := l, freeCount := n }

theorem RecordOnly.refl (s : State) : RecordOnly s s := ⟨s.mem, s.run, s.freeCount, rfl⟩

theorem RecordOnly.trans {s t u : State} (h : RecordOnly s t) (k : RecordOnly t u) : RecordOnly s u := by
  obtain ⟨m, l, n, rfl⟩ := h
  obtain ⟨m', l', n', rfl⟩ := k
  exact ⟨m', l', n', rfl⟩

/-! ## Each operation changes the record only -/

theorem spoil_record (s : State) (ws : List Word) : RecordOnly s (s.spoil ws) := ⟨_, _, _, rfl⟩

theorem use_record (s : State) (rs : List (Word × Nat)) : RecordOnly s (s.use rs) := by
  unfold State.use
  simp only
  split
  · exact ⟨_, _, _, rfl⟩
  · exact (spoil_record s _).trans ⟨_, _, _, rfl⟩

theorem noteUse_record (i : Instr) (s : State) : RecordOnly s (noteUse i s) :=
  (use_record s _).trans ⟨_, _, _, rfl⟩

theorem noteFetch_record (s : State) : RecordOnly s s.noteFetch := (use_record s _).trans ⟨_, _, _, rfl⟩

/-- Only before a RENDER is the reach of the run recorded, and nothing else then. -/
theorem noteReach_eq (final : State → RunLog) (i : Instr) (s : State) :
    ∃ n, noteReach final i s = { s with run := { s.run with reach := n } } := by
  cases i <;> exact ⟨_, rfl⟩

theorem noteReach_other (final : State → RunLog) {i : Instr} (s : State) (h : ∀ b, i ≠ .render b) :
    noteReach final i s = s := by
  cases i with
  | render b => exact absurd rfl (h b)
  | _ => rfl

theorem noteCommand_record (final : State → RunLog) (i : Instr) (s : State) :
    RecordOnly s (noteCommand final i s) := by
  obtain ⟨n, e⟩ := noteReach_eq final i (noteUse i s)
  unfold noteCommand
  rw [e]
  exact (noteUse_record i s).trans ⟨_, _, _, rfl⟩

/-! ## A host write during a run -/

theorem spoilPixels_f (s : State) (ws : List Word) :
    ∃ f n, s.spoilPixels ws = { s with f := f, freeCount := n } := by
  have key : ∀ (rs : List FReg) (t : State), ∃ f, rs.foldl
      (fun t r => t.setF r (Config.freeWord s.freeCount r.val)) t = { t with f := f } := by
    intro rs
    induction rs with
    | nil => exact fun t => ⟨t.f, rfl⟩
    | cons r rs ih =>
      intro t
      obtain ⟨f, e⟩ := ih (t.setF r (Config.freeWord s.freeCount r.val))
      exact ⟨f, e⟩
  unfold State.spoilPixels
  simp only
  obtain ⟨f, e⟩ := key ((List.finRange 16).filter fun r =>
    (ws.flatMap (computedFrom s.run.flow)).contains (.f r) && holdsPixel s.run.flow r) s
  rw [e]
  exact ⟨f, s.freeCount + 1, rfl⟩

/-- A host write during a run changes memory, the record, the draws, and F registers that hold pixels. -/
theorem raceWrite_record (s : State) (final : State → RunLog) (a : Word) (v : Byte) :
    ∃ f m l n, raceWrite s final a v = { s with f := f, mem := m, run := l, freeCount := n } := by
  unfold raceWrite
  split
  · obtain ⟨f, n, e⟩ := spoilPixels_f s [wordOf a]
    rw [e]
    exact ⟨_, _, _, _, rfl⟩
  · exact ⟨_, _, _, _, rfl⟩

/-- A host write to a word that the run does not use writes the byte, and the record alone beside it. -/
theorem raceWrite_unused {s : State} {final : State → RunLog} {a : Word} (v : Byte)
    (h : s.isUsed final (wordOf a) = false) : raceWrite s final a v = { s with
      mem := writeByte s.mem a.toNat v, run := { s.run with raced := wordOf a :: s.run.raced } } := by
  simp [raceWrite, h]

/-! ## They keep the canonical form of memory -/

theorem wf_spoil {s : State} (ws : List Word) (h : Memory.wf s.mem = true) : Memory.wf (s.spoil ws).mem = true :=
  wf_freeWords _ _ h

theorem wf_use {s : State} (rs : List (Word × Nat)) (h : Memory.wf s.mem = true) :
    Memory.wf (s.use rs).mem = true := by
  unfold State.use
  simp only
  split
  · exact h
  · exact wf_spoil _ h

theorem wf_noteFetch {s : State} (h : Memory.wf s.mem = true) : Memory.wf s.noteFetch.mem = true :=
  wf_use _ h

theorem wf_noteUse (i : Instr) {s : State} (h : Memory.wf s.mem = true) : Memory.wf (noteUse i s).mem = true :=
  wf_use _ h

theorem wf_noteCommand (final : State → RunLog) (i : Instr) {s : State} (h : Memory.wf s.mem = true) :
    Memory.wf (noteCommand final i s).mem = true := by
  obtain ⟨n, e⟩ := noteReach_eq final i (noteUse i s)
  unfold noteCommand
  rw [e]
  exact wf_noteUse i h

theorem wf_raceWrite {s : State} (final : State → RunLog) (a : Word) (v : Byte) (h : Memory.wf s.mem = true) :
    Memory.wf (raceWrite s final a v).mem = true := by
  unfold raceWrite
  split
  · obtain ⟨f, n, e⟩ := spoilPixels_f s [wordOf a]
    rw [e]
    exact wf_spoil _ h
  · exact wf_writeByte v h a.isLt

/-! ## Where nothing has raced, memory stays -/

/-- Ranges without a raced word: using them is recorded, and that is all. -/
theorem use_unraced {s : State} {rs : List (Word × Nat)}
    (h : ∀ a ∈ s.run.raced, ∀ r ∈ rs, rangeHas a r = false) :
    s.use rs = { s with run := { s.run with used := rs ++ s.run.used } } := by
  have : (s.run.raced.filter fun w => rs.any (rangeHas w)) = [] := by
    rw [List.filter_eq_nil_iff]
    intro a ha
    simpa using h a ha
  simp [State.use, this]

/-- The fetch of a word that nothing has raced with. -/
theorem noteFetch_unraced {s : State} (h : ∀ a ∈ s.run.raced, rangeHas a (s.pc, 1) = false) :
    s.noteFetch = { s with run := { s.run with
      used := (s.pc, 1) :: s.run.used, fetched := s.run.fetched + 1 } } := by
  unfold State.noteFetch
  rw [use_unraced (by simpa using h)]
  rfl

/-- A flow without a taint stays without one. -/
theorem spread_nil (es : List Transfer) : spread es [] = [] := by
  unfold spread
  induction es with
  | nil => rfl
  | cons e es ih =>
    rw [List.foldr_cons, ih]
    cases e <;> simp [carry, Marks.drop]

/-- What a command does to the data does not rest on the host's operations, nor on the record. -/
theorem transfersOf_congr (i : Instr) (s : State) (rest : List HostOp) (l : RunLog) :
    transfersOf { s with inbox := rest, run := l } i = transfersOf s i := by
  cases i <;> rfl

/-- Without a raced word or a tainted place, a command's accesses and transfers are recorded and memory stays. -/
theorem noteUse_unraced (i : Instr) {s : State} (h : s.run.raced = []) (ht : s.run.tainted = []) :
    noteUse i s = { s with run := { s.run with
      used := usedBy s i ++ s.run.used, flow := transfersOf s i ++ s.run.flow } } := by
  have e := transfersOf_congr i s s.inbox { s.run with used := usedBy s i ++ s.run.used }
  unfold noteUse
  rw [use_unraced (by simp [h])]
  simp only [RunLog.add, e]
  rw [ht, spread_nil]

/-- Without a tainted place, a command's result stays as it is. -/
theorem raceResult_untainted (i : Instr) {s : State} (t : State) (h : s.run.tainted = []) :
    raceResult i s t = t := by
  unfold raceResult
  split <;> simp [State.anyTainted, h]

/-- What `raceResult` changes: memory or an F register, and the draws. -/
theorem raceResult_cases (i : Instr) (s t : State) :
    raceResult i s t = t ∨
    (∃ fv fa, i = .pxOrw fv fa ∧ raceResult i s t =
      { t with mem := writeWord t.mem (s.getF fa) (Config.freeWord t.freeCount 0), freeCount := t.freeCount + 1 }) ∨
    ∃ fd, ((∃ zs, i = .pxSample fd zs) ∨ ∃ fa fx fy, i = .pxBlend fd fa fx fy) ∧ raceResult i s t =
      { t.setF fd (Config.freeWord t.freeCount 0) with freeCount := t.freeCount + 1 } := by
  unfold raceResult
  split
  · split
    · exact .inr (.inl ⟨_, _, rfl, rfl⟩)
    · exact .inl rfl
  · split
    · exact .inr (.inr ⟨_, .inl ⟨_, rfl⟩, rfl⟩)
    · exact .inl rfl
  · split
    · exact .inr (.inr ⟨_, .inr ⟨_, _, _, rfl⟩, rfl⟩)
    · exact .inl rfl
  · exact .inl rfl

/-! ## The moves of a step -/

theorem step_block {s : State} (h : s.inbox = []) : step s = blockMove finalRecord s := by
  simp only [step, move, h]

theorem step_wait {s : State} {rest : List HostOp} (h : s.inbox = .wait :: rest) :
    step s = blockMove finalRecord { s with inbox := rest } := by
  simp only [step, move, h]

theorem step_host {s : State} {op : HostOp} {rest : List HostOp} (h : s.inbox = op :: rest) (hw : op ≠ .wait) :
    step s = hostMove op finalRecord { s with inbox := rest } := by
  cases op with
  | wait => exact absurd rfl hw
  | _ => simp only [step, move, h]

theorem step_worker {s : State} {r : Rendering} (hi : s.inbox = []) (hb : s.status.busy = true)
    (hr : s.rendering = some r) : step s = workerStep r s := by
  rw [step_block hi]
  simp only [blockMove, hb, hr, if_true]

end Sys2Proof.Machine
end

