-- ==== Sys2Proof/Tests/Slice0.lean ====
section
/-! SUPPORT. Tests. Expected words are written out from 30_encoding.md R92 and R97, expected values are those
of 95_test_vectors.md or of the examples of the rules named; and a witness for the hypotheses of every
obligation that has some. -/

namespace Sys2Proof.Tests

open Sys2Proof.Machine

/-! ## WellFormed: each CSR that commands may not write is refused (30_encoding.md R95) -/

theorem test_illformed_csrw_ctrl : (Instr.csrw .ctrl 0).wellFormed = false := by decide
theorem test_illformed_csrw_status : (Instr.csrw .status 0).wellFormed = false := by decide
theorem test_illformed_csrw_errpc : (Instr.csrw .errpc 0).wellFormed = false := by decide
theorem test_illformed_csrw_cmdPc : (Instr.csrw .cmdPc 0).wellFormed = false := by decide
theorem test_illformed_csrw_id : (Instr.csrw .id 0).wellFormed = false := by decide

/-! ## Decode: a word of every command -/

/-- NOP, HALT, CSRR f1 STATUS, CSRW SRC_W f5, LD.W f1 f2, PX.ORW f1 f2 (examples of 46_system.md). -/
theorem test_decode_system :
    decode 0x00000000#32 = .ok .nop ∧ decode 0x01000000#32 = .ok .halt ∧
    decode 0x02100001#32 = .ok (.csrr 1 .status) ∧ decode 0x03500011#32 = .ok (.csrw .srcW 5) ∧
    decode 0x04120000#32 = .ok (.ldW 1 2) ∧ decode 0x05120000#32 = .ok (.pxOrw 1 2) := by decide

/-- Words of program 1 of 95_test_vectors.md; FX.TOU f5 f3 and FX.FROMI f6 f7 from R97. -/
theorem test_decode_fx :
    decode 0x10B33000#32 = .ok (.fxAdd 11 3 3) ∧ decode 0x11521000#32 = .ok (.fxSub 5 2 1) ∧
    decode 0x12312000#32 = .ok (.fxMul 3 1 2) ∧ decode 0x13412000#32 = .ok (.fxDiv 4 1 2) ∧
    decode 0x14210000#32 = .ok (.fxNeg 2 1) ∧ decode 0x15750000#32 = .ok (.fxFrac 7 5) ∧
    decode 0x16650000#32 = .ok (.fxInt 6 5) ∧ decode 0x17851000#32 = .ok (.fxCmp 8 5 1) ∧
    decode 0x18C00000#32 = .ok (.fxNot 12 0) ∧ decode 0x19530000#32 = .ok (.fxTou 5 3) ∧
    decode 0x1A670000#32 = .ok (.fxFromi 6 7) ∧ decode 0x1B100003#32 = .ok (.fxLih 1 3) ∧
    decode 0x1C108000#32 = .ok (.fxLil 1 0x8000#16) := by decide

/-- CX words from R97. -/
theorem test_decode_cx :
    decode 0x20123000#32 = .ok (.cxAdd 1 2 3) ∧ decode 0x21456000#32 = .ok (.cxSub 4 5 6) ∧
    decode 0x22789000#32 = .ok (.cxMul 7 8 9) ∧ decode 0x23ABC000#32 = .ok (.cxDiv 10 11 12) ∧
    decode 0x24DE0000#32 = .ok (.cxConj 13 14) ∧ decode 0x25F00000#32 = .ok (.cxGuard 15 0) ∧
    decode 0x26430000#32 = .ok (.cxPack 4 3 0) ∧ decode 0x27340000#32 = .ok (.cxRe 3 4) ∧
    decode 0x28560000#32 = .ok (.cxIm 5 6) := by decide

/-- Words of program 2 of 95_test_vectors.md. -/
theorem test_decode_mob :
    decode 0x30445560#32 = .ok (.mobSet 4 4 5 5 6) ∧ decode 0x31700000#32 = .ok (.mobId 7) ∧
    decode 0x32110000#32 = .ok (.mobHyp 1 1) ∧ decode 0x33312000#32 = .ok (.mobComp 3 1 2) ∧
    decode 0x34210000#32 = .ok (.mobInv 2 1) ∧ decode 0x35815000#32 = .ok (.mobApply 8 1 5) ∧
    decode 0x36231000#32 = .ok (.mobGet 2 3 1) ∧ decode 0x37650000#32 = .ok (.mobIsid 6 5) := by decide

/-- Words of program 4 of 95_test_vectors.md; BL.RCOMP b0 m3 from R97. -/
theorem test_decode_bl :
    decode 0x40100000#32 = .ok (.blClr 1) ∧ decode 0x41120000#32 = .ok (.blAppend 1 2) ∧
    decode 0x42100000#32 = .ok (.blMul 1 0) ∧ decode 0x43030000#32 = .ok (.blRcomp 0 3) ∧
    decode 0x44130000#32 = .ok (.blLcomp 1 3) ∧ decode 0x45511000#32 = .ok (.blEval 5 1 1) ∧
    decode 0x46610000#32 = .ok (.blCount 6 1) ∧ decode 0x47515000#32 = .ok (.blGetf 5 1 5) ∧
    decode 0x48410000#32 = .ok (.blFrame 4 1) := by decide

/-- PX and RENDER words from R97. -/
theorem test_decode_px :
    decode 0x501EB400#32 = .ok (.pxBlend 1 14 11 4) ∧ decode 0x51200000#32 = .ok (.pxSample 2 0) ∧
    decode 0x60100000#32 = .ok (.render 1) := by decide

/-- The decode faults of section 2.7 of 95_test_vectors.md (vectors 1, 4, 5, 6, 10 to 14). -/
theorem test_decode_faults :
    decode 0x10000001#32 = .error .illegalOperand ∧ decode 0x06000000#32 = .error .illegalOpcode ∧
    decode 0x03100001#32 = .error .illegalCsr ∧ decode 0x02000099#32 = .error .illegalCsr ∧
    decode 0x36004000#32 = .error .illegalOperand ∧ decode 0x47006000#32 = .error .illegalOperand ∧
    decode 0x31800000#32 = .error .illegalOperand ∧ decode 0x40200000#32 = .error .illegalOperand ∧
    decode 0x01000001#32 = .error .illegalOperand := by decide

/-! ## One step -/

/-- The F register, OV and DZ after a command. -/
def outF (r : Result) (q : FReg) : Option (Word × Bool × Bool) :=
  match r with
  | .next t => some (t.getF q, t.status.ov, t.status.dz)
  | _ => none

/-- The Z register, OV and DZ after a command. -/
def outZ (r : Result) (q : ZReg) : Option (Cx × Bool × Bool) :=
  match r with
  | .next t => some (t.getZ q, t.status.ov, t.status.dz)
  | _ => none

/-- The M register after a command. -/
def outM (r : Result) (q : MReg) : Option Mob :=
  match r with
  | .next t => some (t.getM q)
  | _ => none

/-- STATUS, ERRPC and `pc` after a step. -/
def outStatus (r : Result) : Option (Word × Word × Word) :=
  match r with
  | .next t => some (statusWord t.status, t.errpc, t.pc)
  | _ => none

/-- After reset, F1 and F2 hold two values. -/
def withF (a b : Word) : State := (State.reset.setF 1 a).setF 2 b

/-- After reset, Z1 and Z2 hold two values. -/
def withZ (x y : Cx) : State := (State.reset.setZ 1 x).setZ 2 y

/-- `mob_hyp((0x8000, 0))`, called H in 95_test_vectors.md. -/
def mobH : Mob := ⟨.one, ⟨0xFFFF8000#32, 0#32⟩, ⟨0xFFFF8000#32, 0#32⟩, .one, false⟩

/-- Fixed-point vectors 2, 5, 9 and 11 (section 2.1). -/
theorem test_fx_add_overflow :
    outF (exec (.fxAdd 3 1 2) (withF 0x7FFFFFFF#32 1#32)) 3 = some (0x80000000#32, true, false) := by decide
theorem test_fx_sub_overflow :
    outF (exec (.fxSub 3 1 2) (withF 0x80000000#32 1#32)) 3 = some (0x7FFFFFFF#32, true, false) := by decide
theorem test_fx_mul_floor :
    outF (exec (.fxMul 1 1 2) (withF 0xFFFFFFFF#32 0x00008000#32)) 1 = some (0xFFFFFFFF#32, false, false) := by
  decide
theorem test_fx_mul_overflow :
    outF (exec (.fxMul 3 1 2) (withF 0x80000000#32 0xFFFF0000#32)) 3 = some (0x80000000#32, true, false) := by
  decide

/-- Vectors 15 and 19. -/
theorem test_fx_div_truncates :
    outF (exec (.fxDiv 3 1 2) (withF 0xFFFF0000#32 0x00030000#32)) 3 = some (0xFFFFAAAB#32, false, false) := by
  decide
theorem test_fx_div_by_zero :
    outF (exec (.fxDiv 3 1 2) (withF 0xFFFF0000#32 0#32)) 3 = some (0x80000000#32, false, true) := by decide

/-- Vectors 23, 26, 28, 29, 32, 39, 41 and 43; vector 42. -/
theorem test_fx_cmp : outF (exec (.fxCmp 3 1 2) (withF 0x80000000#32 0x7FFFFFFF#32)) 3 =
    some (0xFFFFFFFF#32, false, false) := by decide
theorem test_fx_neg : outF (exec (.fxNeg 3 1) (withF 0x80000000#32 0#32)) 3 =
    some (0x80000000#32, true, false) := by decide
theorem test_fx_frac : outF (exec (.fxFrac 3 1) (withF 0xFFFEC000#32 0#32)) 3 =
    some (0x0000C000#32, false, false) := by decide
theorem test_fx_int : outF (exec (.fxInt 3 1) (withF 0xFFFEC000#32 0#32)) 3 =
    some (0xFFFFFFFE#32, false, false) := by decide
theorem test_fx_fromi : outF (exec (.fxFromi 3 1) (withF 0x00008000#32 0#32)) 3 =
    some (0x80000000#32, true, false) := by decide
theorem test_fx_tou : outF (exec (.fxTou 3 1) (withF 0xFFFEC000#32 0#32)) 3 =
    some (0x0000FFFE#32, false, false) := by decide
theorem test_fx_not : outF (exec (.fxNot 3 1) (withF 0x00000001#32 0#32)) 3 =
    some (0x00000000#32, false, false) := by decide
theorem test_fx_lil : outF (exec (.fxLil 1 0x8000#16) (withF 0x00030000#32 0#32)) 1 =
    some (0x00038000#32, false, false) := by decide
theorem test_fx_lih : outF (exec (.fxLih 1 0xFFFF#16) (withF 0x00030000#32 0#32)) 1 =
    some (0xFFFF0000#32, false, false) := by decide

/-- Complex vectors 1, 2, 3, 6, 15, 17, 18, 20 and 21 (section 2.2). -/
theorem test_cx_add : outZ (exec (.cxAdd 3 1 2) (withZ ⟨0x10000#32, 0x20000#32⟩ ⟨0x30000#32, 0xFFFF0000#32⟩)) 3 =
    some (⟨0x40000#32, 0x10000#32⟩, false, false) := by decide
theorem test_cx_sub : outZ (exec (.cxSub 3 1 2) (withZ ⟨0x10000#32, 0x20000#32⟩ ⟨0x30000#32, 0xFFFF0000#32⟩)) 3 =
    some (⟨0xFFFE0000#32, 0x30000#32⟩, false, false) := by decide
theorem test_cx_mul : outZ (exec (.cxMul 2 1 2) (withZ ⟨0x10000#32, 0x20000#32⟩ ⟨0x30000#32, 0xFFFF0000#32⟩)) 2 =
    some (⟨0x50000#32, 0x50000#32⟩, false, false) := by decide
theorem test_cx_div : outZ (exec (.cxDiv 3 1 2) (withZ ⟨0x10000#32, 0x20000#32⟩ ⟨0x30000#32, 0xFFFF0000#32⟩)) 3 =
    some (⟨0x1999#32, 0xB333#32⟩, false, false) := by decide
theorem test_cx_div_overflow : outZ (exec (.cxDiv 3 1 2) (withZ .one ⟨0xB60000#32, 0#32⟩)) 3 =
    some (⟨0xFFFFFE91#32, 0#32⟩, true, false) := by decide
theorem test_cx_conj : outZ (exec (.cxConj 3 1) (withZ ⟨0x10000#32, 0x80000000#32⟩ .zero)) 3 =
    some (⟨0x10000#32, 0x80000000#32⟩, true, false) := by decide
theorem test_cx_guard : outZ (exec (.cxGuard 3 1) (withZ .zero .zero)) 3 = some (⟨1#32, 1#32⟩, false, false) := by
  decide
theorem test_cx_pack : outZ (exec (.cxPack 1 1 2) (withF 0x8000#32 0x5#32)) 1 =
    some (⟨0x8000#32, 0x5#32⟩, false, false) := by decide
theorem test_cx_re : outF (exec (.cxRe 3 1) (withZ ⟨0x30000#32, 0x40000#32⟩ .zero)) 3 =
    some (0x30000#32, false, false) := by decide
theorem test_cx_im : outF (exec (.cxIm 3 1) (withZ ⟨0x30000#32, 0x40000#32⟩ .zero)) 3 =
    some (0x40000#32, false, false) := by decide

/-- Möbius vectors 4, 5, 6, 7, 11, 13 and 16, and the example of R187 (section 2.3). -/
theorem test_mob_set : outM (exec (.mobSet 3 1 2 2 1) (withZ .one .zero)) 3 =
    some ⟨.one, .zero, .zero, .one, false⟩ := by decide
theorem test_mob_id : outM (exec (.mobId 3) (State.reset.setM 3 mobH)) 3 =
    some ⟨.one, .zero, .zero, .one, true⟩ := by decide
theorem test_mob_hyp : outM (exec (.mobHyp 3 1) (withZ ⟨0x8000#32, 0#32⟩ .zero)) 3 = some mobH := by decide
theorem test_mob_inv : outM (exec (.mobInv 3 1) (State.reset.setM 1 mobH)) 3 =
    some ⟨⟨0x15555#32, 0#32⟩, ⟨0xAAAA#32, 0#32⟩, ⟨0xAAAA#32, 0#32⟩, ⟨0x15555#32, 0#32⟩, false⟩ := by decide
theorem test_mob_inv_degenerate : outM (exec (.mobInv 3 1) (State.reset.setM 1
    ⟨⟨0x10000#32, 0#32⟩, ⟨0x20000#32, 0#32⟩, ⟨0x20000#32, 0#32⟩, ⟨0x40000#32, 0#32⟩, false⟩)) 3 =
    some .identity := by decide
theorem test_mob_comp : outM (exec (.mobComp 3 1 2) ((State.reset.setM 1 mobH).setM 2
    ⟨⟨0x15555#32, 0#32⟩, ⟨0xAAAA#32, 0#32⟩, ⟨0xAAAA#32, 0#32⟩, ⟨0x15555#32, 0#32⟩, false⟩)) 3 =
    some ⟨.one, ⟨0xFFFFFFFF#32, 0#32⟩, ⟨0xFFFFFFFF#32, 0#32⟩, .one, false⟩ := by decide
theorem test_mob_apply : outZ (exec (.mobApply 3 1 1) ((withZ .zero .zero).setM 1 mobH)) 3 =
    some (⟨0xFFFF8000#32, 0#32⟩, false, false) := by decide
theorem test_mob_apply_pole : outZ (exec (.mobApply 3 1 1) ((withZ ⟨0x20000#32, 0#32⟩ .zero).setM 1 mobH)) 3 =
    some (⟨0x7FFFFFFF#32, 0x80000000#32⟩, false, true) := by decide
theorem test_mob_get : outZ (exec (.mobGet 3 1 1) (State.reset.setM 1 mobH)) 3 =
    some (⟨0xFFFF8000#32, 0#32⟩, false, false) := by decide
theorem test_mob_isid : outF (exec (.mobIsid 3 1) (State.reset.setM 1 mobH)) 3 = some (0#32, false, false) ∧
    outF (exec (.mobIsid 3 1) State.reset) 3 = some (1#32, false, false) := by decide

/-- `mob_hyp(−0.5)`, called G in 95_test_vectors.md. -/
def mobG : Mob := ⟨.one, ⟨0x8000#32, 0#32⟩, ⟨0x8000#32, 0#32⟩, .one, false⟩

/-- The map z ↦ (z + 1)/2, called A in 95_test_vectors.md. -/
def mobA : Mob := ⟨⟨0x8000#32, 0#32⟩, ⟨0x8000#32, 0#32⟩, .zero, .one, false⟩

/-- A slot of the given factors with the identity frame. -/
def slotOf (ts : List Mob) : Slot := ts.foldl blAppend .empty

/-- The slot after a command. -/
def outB (r : Result) (q : BReg) : Option Slot :=
  match r with
  | .next t => some (t.getB q)
  | _ => none

/-- Blaschke vectors 1 to 11 (section 2.4). -/
theorem test_bl_clr : outB (exec (.blClr 0) (State.reset.setB 0 (slotOf [mobH, mobG]))) 0 = some .empty := by
  decide
theorem test_bl_append : outB (exec (.blAppend 0 1) ((State.reset.setM 1 mobG).setB 0 (slotOf [mobH]))) 0 =
    some (slotOf [mobH, mobG]) := by decide
theorem test_bl_append_full : outB (exec (.blAppend 0 1)
    ((State.reset.setM 1 mobG).setB 0 (slotOf [mobH, mobH, mobH, mobH, mobH, mobH]))) 0 =
    some (slotOf [mobH, mobH, mobH, mobH, mobH, mobH]) := by decide
theorem test_bl_mul : outB (exec (.blMul 0 1)
    ((State.reset.setB 0 (slotOf [mobH, mobG])).setB 1 (slotOf [mobA, mobH, mobG, mobA, mobH]))) 0 =
    some (slotOf [mobH, mobG, mobA, mobH, mobG, mobA]) := by decide
theorem test_bl_mul_self : outB (exec (.blMul 0 0) (State.reset.setB 0 (slotOf [mobH, mobG, mobA, mobG]))) 0 =
    some (slotOf [mobH, mobG, mobA, mobG, mobH, mobG]) := by decide
theorem test_bl_rcomp : outB (exec (.blRcomp 0 1) ((State.reset.setM 1 mobA).setB 0 (slotOf [mobH]))) 0 =
    some (slotOf [(mobCompose mobH mobA).val]) := by decide
theorem test_bl_lcomp : outB (exec (.blLcomp 0 1) ((State.reset.setM 1 mobA).setB 0 (slotOf [mobH, mobG]))) 0 =
    some { slotOf [mobH, mobG] with frame := mobA } := by decide
theorem test_bl_eval : outZ (exec (.blEval 3 0 1) ((withZ .zero .zero).setB 0 (slotOf [mobH, mobG]))) 3 =
    some (⟨0xFFFFC000#32, 0#32⟩, false, false) := by decide +kernel
theorem test_bl_eval_frame : outZ (exec (.blEval 3 0 1)
    ((withZ .zero .zero).setB 0 { slotOf [mobH, mobG] with frame := mobA })) 3 =
    some (⟨0x6000#32, 0#32⟩, false, false) := by decide +kernel
theorem test_bl_count : outF (exec (.blCount 3 1) (State.reset.setB 1 (slotOf [mobH, mobG]))) 3 =
    some (2#32, false, false) := by decide
theorem test_bl_getf_inactive : outM (exec (.blGetf 3 1 5) (State.reset.setB 1 (slotOf [mobH]))) 3 =
    some .identity := by decide
theorem test_bl_frame : outM (exec (.blFrame 3 1) (State.reset.setB 1 { slotOf [mobH] with frame := mobA })) 3 =
    some mobA := by decide

/-- PX.BLEND: vector 20 of section 2.5, with the register group wrapping from F15 to F0 (R224). -/
theorem test_px_blend : outF (exec (.pxBlend 3 14 4 5)
    ((((((State.reset.setF 14 0x10203040#32).setF 15 0x50607080#32).setF 0 0x90A0B0C0#32).setF 1
      0xD0E0F0FF#32).setF 4 0xFFFF1234#32).setF 5 0x0001ABCD#32)) 3 =
    some (0x6A7A8A9A#32, false, false) := by decide

/-- The first two rows of the source S1 of section 2.5, at 0x1000. -/
def sampleState (w : Cx) (p : Policy) : State :=
  let m := [(0x1000#32, 0x000000FF#32), (0x1004#32, 0x0000FF00#32), (0x1008#32, 0x00FF0000#32),
    (0x100C#32, 0xFF000000#32), (0x1010#32, 0x11111111#32), (0x1014#32, 0x22222222#32),
    (0x1018#32, 0x33333333#32), (0x101C#32, 0x44444444#32)].foldl (fun m c => writeWord m c.1 c.2) []
  { (State.reset.setZ 1 w).setMem m with
      view := { View.reset with srcBase := 0x1000#32, srcW := 4#32, srcH := 3#32, policy := p } }

/-- Sampler vectors 8 and 12 of section 2.5. -/
theorem test_px_sample_tile :
    outF (exec (.pxSample 3 1) (sampleState ⟨0x8000#32, 0x8000#32⟩ .tile)) 3 =
    some (0x2B2B2B2B#32, false, false) := by decide +kernel
theorem test_px_sample_clamp :
    outF (exec (.pxSample 3 1) (sampleState ⟨0x20000#32, 0x8000#32⟩ .clamp)) 3 =
    some (0x44444444#32, false, false) := by decide +kernel

/-- Program 3 of 95_test_vectors.md with a 2 × 2 destination, running, at its RENDER b0 (at 0) with HALT behind
it: DU = DV = 0xFFFF reaches the last pixel. Two rows are one worker's of four (45_render.md R242). -/
def renderState : State :=
  let m := [(0x0#32, 0x60000000#32), (0x4#32, 0x01000000#32), (0x1000#32, 0xFF000000#32),
    (0x1004#32, 0xFFFFFFFF#32), (0x1008#32, 0xFFFFFFFF#32), (0x100C#32, 0xFF000000#32)].foldl
      (fun m c => writeWord m c.1 c.2) []
  { (State.reset.setB 0 (slotOf [.identity])).setMem m with
      status := { Status.reset with busy := true }
      view := { View.reset with
        srcBase := 0x1000#32, srcW := 2#32, srcH := 2#32, dstBase := 0x2000#32, dstW := 2#32, dstH := 2#32
        du := 0xFFFF#32, dv := 0xFFFF#32 } }

/-- The words at 0x2000 after a command. -/
def outWords (r : Result) : Option (List Word) :=
  match r with
  | .next t => some ([0x2000#32, 0x2004#32, 0x2008#32, 0x200C#32].map (readWord t.mem))
  | _ => none

/-- The RENDER is one step and its pixels four more: the four corners match the four source corners (P-11), and
a word that is not zero keeps its bits (70_reset_and_hazards.md R329). -/
theorem test_render_corners : outWords (steps 5 renderState) =
    some [0xFF000000#32, 0xFFFFFFFF#32, 0xFFFFFFFF#32, 0xFF000000#32] := by decide +kernel
theorem test_render_or : outWords (steps 5
    (renderState.setMem (writeWord renderState.mem 0x2000#32 0x0000FF00#32))) =
    some [0xFF00FF00#32, 0xFFFFFFFF#32, 0xFFFFFFFF#32, 0xFF000000#32] := by decide +kernel

/-- After two pixels `pc` and BUSY stay and the other words are old (45_render.md R246, 70_reset_and_hazards.md
R330); after the join and the HALT the run is over. -/
theorem test_render_midway : outWords (steps 3 renderState) = some [0xFF000000#32, 0xFFFFFFFF#32, 0#32, 0#32] ∧
    outStatus (steps 3 renderState) = some (0x00000001#32, 0#32, 0#32) := by decide +kernel
theorem test_render_join : outStatus (steps 6 renderState) = some (0x00000002#32, 0#32, 8#32) := by decide +kernel

/-- On a platform that ends inside the destination the fourth pixel takes BUS_ERROR at the RENDER's address, and
the three before it are written (R248). -/
def brokenState : State :=
  { renderState with platform := { Platform.reference with admitRanges := [(0, 0x200C)] } }

theorem test_render_bus_error : outStatus (steps 5 brokenState) = some (0x00000504#32, 0#32, 0#32) ∧
    outWords (steps 5 brokenState) = some [0xFF000000#32, 0xFFFFFFFF#32, 0xFFFFFFFF#32, 0#32] := by decide +kernel

/-- A destination that meets the HALT behind the RENDER breaks the premise at the RENDER (20_memory.md R76 condition
2); one that begins right behind the HALT does not. -/
theorem test_overlap_later_command :
    overlapBroken ((renderState.setView { renderState.view with dstBase := 0x4#32 }).noteFetch) = true ∧
    overlapBroken ((renderState.setView { renderState.view with dstBase := 0x8#32 }).noteFetch) = false := by
  decide +kernel

/-- The examples of R262, R263, R264, R265 and R267. -/
theorem test_halt : outStatus (step (State.reset.withFetchWord 32 0x01000000)) =
    some (0x00000002#32, 0#32, 4#32) := by decide
theorem test_nop : outStatus (step (State.reset.withFetchWord 32 0)) =
    some (0x00000001#32, 0#32, 4#32) := by decide
theorem test_csrr_status : outF (step { State.reset.withFetchWord 32 0x02100001 with
    status := { State.reset.status with busy := true, dz := true } }) 1 = some (0x00000009#32, false, true) := by
  decide
theorem test_csrr_id : outF (exec (.csrr 1 .id) State.reset) 1 = some (0x01041006#32, false, false) := by decide
theorem test_csrw_srcW : (match exec (.csrw .srcW 5) (State.reset.setF 5 2#32) with
    | .next t => some t.view.srcW | _ => none) = some 2#32 := by decide
theorem test_csrw_policy : (match exec (.csrw .policy 5) (State.reset.setF 5 0xFFFFFFFF#32) with
    | .next t => some (readCsr t .policy) | _ => none) = some 1#32 := by decide
theorem test_ldW : outF (exec (.ldW 1 2)
    ((withF 0#32 0x1000#32).setMem (writeWord [] 0x1000#32 0xFFFFFFFF#32))) 1 =
    some (0xFFFFFFFF#32, false, false) := by decide
theorem test_pxOrw : outWords (exec (.pxOrw 1 2)
    ((withF 0xFF000000#32 0x2000#32).setMem (writeWord [] 0x2000#32 0x0000FF00#32))) =
    some [0xFF00FF00#32, 0#32, 0#32, 0#32] := by decide

/-! ## Faults (section 2.7 of 95_test_vectors.md) -/

theorem test_fault_misaligned_load : outStatus (exec (.ldW 1 2) (withF 0#32 0x1002#32)) =
    some (0x00000404#32, 0#32, 0#32) := by decide
theorem test_fault_bus_load : outStatus (exec (.ldW 1 2) { withF 0#32 0x10000#32 with
    platform := { Platform.reference with admitRanges := [(0, 0x10000)] } }) = some (0x00000504#32, 0#32, 0#32) := by
  decide
theorem test_fault_render_config : outStatus (step (State.reset.withFetchWord 32 0x60000000)) =
    some (0x00000604#32, 0#32, 0#32) := by decide
theorem test_fault_opcode : outStatus (step (State.reset.withFetchWord 32 0x06000000)) =
    some (0x00000104#32, 0#32, 0#32) := by decide
theorem test_fault_csr : outStatus (step (State.reset.withFetchWord 32 0x03100001)) =
    some (0x00000304#32, 0#32, 0#32) := by decide
theorem test_fault_operand : outStatus (step (State.reset.withFetchWord 32 0x31800000)) =
    some (0x00000204#32, 0#32, 0#32) := by decide
theorem test_fault_misaligned_fetch : outStatus (step { State.reset with
    pc := 2#32, status := { State.reset.status with busy := true } }) = some (0x00000404#32, 2#32, 2#32) := by
  decide

/-! ## The host -/

/-- The next state of a step, or the reset state. -/
def nextOf (r : Result) : State :=
  match r with
  | .next t => t
  | _ => State.reset

/-- START after a fault is ignored (vector 16); clearing ERR clears ERRCODE (10_state.md R29). -/
theorem test_start_ignored : outStatus (step { State.reset with
    status := { State.reset.status with err := true, errcode := 2#4 }, inbox := [.mmioWrite 0#32 1#32] }) =
    some (0x00000204#32, 0#32, 0#32) := by decide
theorem test_clear_err : outStatus (step { State.reset with
    status := { State.reset.status with err := true, errcode := 2#4, dz := true }
    inbox := [.mmioWrite 4#32 4#32] }) = some (0x00000008#32, 0#32, 0#32) := by decide
theorem test_misaligned_mmio : step { State.reset with inbox := [.mmioRead 2#32] } =
    .refused .hostMmioMisaligned := rfl

/-- During a run the host reads a word that the run has not changed as it is, and may write one that the run has
not used (93_implementation_defined.md U9); the run's use of it then makes it any value. -/
theorem test_host_read_busy : (match step { renderState with inbox := [.memRead 0x1003#32] } with
    | .next t => some t.hostData | _ => none) = some 0xFF#32 := by decide +kernel
theorem test_host_write_busy : (match step { renderState with inbox := [.memWrite 0x3000#32 7#8] } with
    | .next t => some (readByte t.mem 0x3000, t.run.raced, Marks.words (t.use [(0x3000#32, 1)]).run.tainted)
    | _ => none) = some (7#8, [0x3000#32], [0x3000#32]) := by decide +kernel

/-- A host write to a source word of a running RENDER makes that word and the pixel that was computed from it
any value (U9). -/
theorem test_host_write_source : (match step { nextOf (steps 2 renderState) with inbox := [.memWrite 0x1000#32 7#8] } with
    | .next t => some (Marks.words t.run.tainted) | _ => none) = some [0x2000#32, 0x1000#32] := by decide +kernel

/-- A host write to a word of the command list makes it any value at once, before its fetch (U9). -/
theorem test_host_write_list : (match step { renderState with inbox := [.memWrite 0x5#32 7#8] } with
    | .next t => some (t.run.raced, Marks.words t.run.tainted) | _ => none) = some ([], [0x4#32]) := by
  decide +kernel

/-- LD.W f1, PX.BLEND f3 from f1, PX.ORW of f3 and FX.LIH f1: from the word loaded, the blend and the stored word
are computed, and f1 no longer (U9). -/
theorem test_flow :
    let s := (renderState.setF 2 0x1000#32).setF 4 0x3000#32
    let l := (noteUse (.fxLih 1 0#16) (noteUse (.pxOrw 3 4) (noteUse (.pxBlend 3 1 5 5) (noteUse (.ldW 1 2) s)))).run.flow
    let ms := computedFrom l 0x1000#32
    Marks.words ms = [0x3000#32, 0x1000#32] ∧ ms.contains (.f 3) = true ∧ ms.contains (.f 1) = false ∧
      holdsPixel l 3 = true ∧ holdsPixel l 1 = false := by decide +kernel

/-- RENDER onto the words right behind the HALT, PX.ORW of `v` into the HALT, HALT. -/
def longerList (v : Word) : State :=
  { (renderState.setF 1 v).setF 2 8#32 with
    mem := writeWord (writeWord renderState.mem 4#32 (encode (.pxOrw 1 2))) 8#32 (encode .halt)
    view := { renderState.view with dstBase := 0xC#32 } }

/-- Where the PX.ORW makes the HALT a CSRW, the run comes to fetch the destination of the RENDER before it, whose
overlap premise fails for that reason (20_memory.md R76 condition 2, log 6); where it does not, the premise holds. -/
theorem test_overlap_later_fetch :
    (nextOf (step (longerList 0x02000010#32))).rendering.map (·.overlap) = some true ∧
    (nextOf (step (longerList 0#32))).rendering.map (·.overlap) = some false ∧
    (nextOf (step (longerList 0x02000010#32))).run.reach = 4 ∧ (nextOf (step (longerList 0#32))).run.reach = 3 := by
  decide +kernel

/-- CSRW SRC_BASE, RENDER, HALT: a host write to the source that the CSRW is about to name makes the word any value
at once (93_implementation_defined.md U9, log 9); one behind that source does not. -/
theorem test_host_write_source_to_come :
    let s := { renderState.setF 1 0x3000#32 with
      mem := writeWord (writeWord (writeWord renderState.mem 0#32 (encode (.csrw .srcBase 1))) 4#32
        (encode (.render 0))) 8#32 (encode .halt) }
    (nextOf (step { s with inbox := [.memWrite 0x3004#32 7#8] })).run.tainted = [.word 0x3004#32] ∧
    (nextOf (step { s with inbox := [.memWrite 0x3010#32 7#8] })).run.tainted = [] := by decide +kernel

/-! ## Witnesses: the hypotheses of each obligation that has some are met by a concrete state, for each clause at
boundary values of its range -/

theorem test_witness_DecodeOfEncode : (Instr.csrw .dv 15).wellFormed = true ∧ (Instr.blGetf 7 1 5).wellFormed = true :=
  by decide

theorem test_witness_EncodeOfDecode : decode 0x03F00026#32 = .ok (.csrw .dv 15) := by decide

/-- The word that `withFetchWord` places after reset is the one that is run next. -/
theorem fetches_reset (w : Word) : FetchesWord (State.reset.withFetchWord 32 w.toNat) w where
  inbox := rfl
  busy := rfl
  idleWorkers := rfl
  onWord := rfl
  admitted := rfl
  unraced := fun _ ha => nomatch ha
  word := by
    show readWord (writeWord [] 0#32 (BitVec.ofNat 32 (w.toNat % 2 ^ 32))) 0#32 = w
    rw [readWord_writeWord_self]
    apply BitVec.eq_of_toNat_eq
    have := w.isLt
    rw [BitVec.toNat_ofNat]
    omega

/-- Both ends of each range of unallocated opcodes, and a set must-be-zero bit at both ends. -/
theorem test_witness_UnallocatedOpcodesAndMustBeZeroBits :
    (∀ w : Word, FetchesWord (State.reset.withFetchWord 32 w.toNat) w) ∧
    (∀ op ∈ [0x06#8, 0x0F#8, 0x1D#8, 0x1F#8, 0x29#8, 0x2F#8, 0x38#8, 0x3F#8, 0x49#8, 0x4F#8, 0x52#8, 0x5F#8,
      0x61#8, 0xFF#8], decode (op ++ 0#24) = .error .illegalOpcode) ∧
    instrOpcode .halt = (0x01000001#32).extractLsb' 24 8 ∧
    0x01000001#32 &&& formatMask (instrFormat .halt) ≠ (0x01000001#32).extractLsb' 24 8 ++ 0#24 ∧
    instrOpcode (.fxLih 0 0#16) = (0x1B080000#32).extractLsb' 24 8 ∧
    0x1B080000#32 &&& formatMask (instrFormat (.fxLih 0 0#16)) ≠ (0x1B080000#32).extractLsb' 24 8 ++ 0#24 :=
  ⟨fetches_reset, by decide, by decide, by decide, by decide, by decide⟩

/-- The first value outside each class, and the last; and a block that fetches such a word. -/
theorem test_witness_FieldsOutsideTheirClass :
    FetchesWord (State.reset.withFetchWord 32 0x60200000) 0x60200000#32 ∧
    ¬(8#4).toNat < 8 ∧ ¬(15#4).toNat < 8 ∧ ¬(4#4).toNat < 4 ∧ ¬(2#4).toNat < 2 ∧ ¬(6#4).toNat < 6 ∧
    decode 0x33080000#32 = .error .illegalOperand ∧ decode 0x3300F000#32 = .error .illegalOperand ∧
    decode 0x60200000#32 = .error .illegalOperand ∧ decode 0x4800F000#32 = .error .illegalOperand :=
  ⟨fetches_reset 0x60200000#32, by decide⟩

/-- The numbers at both ends of the mapped ranges and beside them. -/
theorem test_witness_CsrNumbers :
    decode 0x02000000#32 = .ok (.csrr 0 .ctrl) ∧ decode 0x02F00004#32 = .ok (.csrr 15 .id) ∧
    decode 0x03000010#32 = .ok (.csrw .srcBase 0) ∧ decode 0x03F00026#32 = .ok (.csrw .dv 15) ∧
    decode 0x02000005#32 = .error .illegalCsr ∧ decode 0x0200000F#32 = .error .illegalCsr ∧
    decode 0x02000016#32 = .error .illegalCsr ∧ decode 0x02000027#32 = .error .illegalCsr ∧
    decode 0x03000004#32 = .error .illegalCsr ∧ decode 0x0300FFFF#32 = .error .illegalCsr ∧
    FetchesWord (State.reset.withFetchWord 32 0x03000004) 0x03000004#32 := by
  refine ⟨?_, ?_, ?_, ?_, ?_, ?_, ?_, ?_, ?_, ?_, fetches_reset 0x03000004#32⟩ <;> decide

/-- The worker that has all rows of `renderState`, at its first pixel. -/
def oneWorker : Rendering :=
  { slot := 0, workers := [⟨3, 0, 2, 0⟩], flags := .none, overlap := false, broken := false }

/-- `longerList` right after the fork of its RENDER. -/
def longerForked : State := (longerList 0#32).fork 0

theorem test_witness_StepRunsTheFetchedCommand :
    FetchesWord (State.reset.withFetchWord 32 0x01000000) 0x01000000#32 ∧ decode 0x01000000#32 = .ok .halt ∧
    Undisturbed (State.reset.withFetchWord 32 0x01000000) ∧
    (FetchesWord (longerList 0#32) 0x60000000#32 ∧ decode 0x60000000#32 = .ok (.render 0) ∧
      Undisturbed (longerList 0#32) ∧ longerForked.status.busy = true ∧
      exec (.render 0) { longerList 0#32 with run := { RunLog.fresh 0#32 with reach := 0 } } = .next longerForked) ∧
    renderState.rendering = none ∧ renderState.run.raced = [] ∧
    (renderState.fork 0).rendering = some oneWorker ∧ renderState.inbox = [] ∧ renderState.status.busy = true ∧
    State.reset.inbox = [] ∧ State.reset.status.busy = false :=
  ⟨fetches_reset 0x01000000#32, by decide, ⟨rfl, rfl⟩,
    ⟨⟨rfl, rfl, rfl, by decide, by decide, nofun, by decide +kernel⟩, by decide, ⟨rfl, rfl⟩, rfl, rfl⟩, rfl, rfl, by decide +kernel, rfl, rfl, rfl, rfl⟩

/-- A running block with `pc` at 0xFFFFFFFF, and one at the first address that is not admitted; a host write that
is not to CMD_PC. -/
theorem test_witness_FetchFaults :
    (∃ s : State, s.inbox = [] ∧ s.status.busy = true ∧ s.rendering = none ∧ s.pc.toNat % 4 ≠ 0) ∧
    (∃ s : State, s.inbox = [] ∧ s.status.busy = true ∧ s.rendering = none ∧
      s.pc.toNat % 4 = 0 ∧ memAdmit s.platform s.pc = false) ∧
    (∃ s t : State, s.inbox.head? = some (.mmioWrite 0x008#32 1#32) ∧ (0x008#32 : Word) ≠ s.platform.mmioBase + 0x00C#32 ∧
      s.pc.toNat % 4 = 0 ∧ step s = .next t) :=
  ⟨⟨{ State.reset with pc := 0xFFFFFFFF#32, status := { Status.reset with busy := true } }, rfl, rfl, rfl, by decide⟩,
    ⟨{ State.reset with
        pc := 0x10000#32
        status := { Status.reset with busy := true }
        platform := { Platform.reference with admitRanges := [(0, 0x10000)] } }, rfl, rfl, rfl, by decide, by decide⟩,
    ⟨{ State.reset with inbox := [.mmioWrite 0x008#32 1#32] }, State.reset, rfl, by decide, by decide, rfl⟩⟩

/-- A command that completes and one that faults, from a running block. -/
def running : State :=
  { State.reset with status := { Status.reset with busy := true, ov := true, dz := true } }

/-- `r` answers a next state, and it has the property `p`. -/
def nextHas (r : Result) (p : State → Bool) : Bool :=
  match r with
  | .next t => p t
  | _ => false

/-- The running RENDER of a state. -/
def theRendering (s : State) : Rendering := s.rendering.getD oneWorker

/-- The state before the fourth pixel of the RENDER, and before the fourth pixel of the one that breaks. -/
def lastPixel : State := nextOf (steps 4 renderState)
def lastBroken : State := nextOf (steps 4 brokenState)

theorem test_witness_PcMovesByFourAndFlagsStick :
    exec .nop running = .next running.advance ∧ running.status.ov = true ∧ running.status.dz = true ∧
    nextHas (workerStep (theRendering lastPixel) lastPixel) (fun t => t.pc == 4#32) = true ∧
    nextHas (workerStep oneWorker (renderState.fork 0)) (fun t => t.pc == 0#32) = true :=
  ⟨rfl, rfl, rfl, by decide +kernel, by decide +kernel⟩

theorem test_witness_RunEndsOnlyByHaltOrFault :
    (∃ t, exec .halt running = .next t ∧ running.status.busy = true ∧ t.status.busy = false) ∧
    (∃ t, exec (.render 0) running = .next t ∧ running.status.busy = true ∧ t.status.busy = false) ∧
    nextHas (workerStep (theRendering lastBroken) lastBroken) (fun t => lastBroken.status.busy && !t.status.busy) = true :=
  ⟨⟨_, rfl, rfl, rfl⟩, ⟨running.takeFault .badConfig, rfl, rfl, rfl⟩, by decide +kernel⟩

theorem test_witness_FaultsCommitNothing :
    (∃ t, running.status.err = false ∧ exec (.render 0) running = .next t ∧ t.status.err = true) ∧
    (∃ t, exec (.pxSample 0 0) running = .next t ∧ t.status.err = true) :=
  ⟨⟨running.takeFault .badConfig, rfl, rfl, rfl⟩, ⟨running.takeFault .badConfig, rfl, rfl⟩⟩

theorem test_witness_WhichCommandsFault :
    (∃ t, (Instr.ldW 1 2).wellFormed = true ∧ (withF 0#32 1#32).status.err = false ∧
      exec (.ldW 1 2) (withF 0#32 1#32) = .next t ∧ t.status.err = true) ∧
    nextHas (workerStep (theRendering lastBroken) lastBroken) (fun t => !lastBroken.status.err && t.status.err) = true :=
  ⟨⟨(withF 0#32 1#32).takeFault .misaligned, rfl, rfl, rfl, rfl⟩, by decide +kernel⟩

theorem test_witness_CommandsWriteOnlyTheirDestination :
    (∃ t, exec (.cxRe 3 1) running = .next t ∧ destF (.cxRe 3 1) ≠ some 4 ∧ destZ (.cxRe 3 1) ≠ some 0 ∧
      destM (.cxRe 3 1) ≠ some 0 ∧ destB (.cxRe 3 1) ≠ some 0 ∧ (∀ c fs, Instr.cxRe 3 1 ≠ .csrw c fs) ∧
      (∀ fv fa, Instr.cxRe 3 1 ≠ .pxOrw fv fa)) ∧
    nextHas (workerStep oneWorker (renderState.fork 0)) (fun _ => true) = true :=
  ⟨⟨_, rfl, by decide, by decide, by decide, by decide, nofun, nofun⟩, by decide +kernel⟩

theorem test_witness_OnlyTheIdentityConstructorsSetIsId :
    ∃ t, exec (.mobId 3) (State.reset.setM 3 mobH) = .next t ∧ (t.getM 3).isId = true ∧
      (t.getB 1).factor[5].isId = true ∧ (t.getB 1).frame.isId = true :=
  ⟨_, rfl, by decide, by decide, by decide⟩

theorem invariant_reset : Invariant State.reset where
  mem := rfl
  slots := by
    intro b
    show (Vector.replicate 2 Slot.empty)[b].count ≤ 6
    revert b
    decide
  status := ⟨by decide, by decide, by decide, by decide⟩
  rendering := fun _ h => nomatch h

/-- The state after the fork of `renderState` has the invariant. -/
theorem renderState_invariant : Invariant (renderState.fork 0) where
  mem := by decide +kernel
  slots := by
    intro b
    show ((renderState.bl)[b]).count ≤ 6
    revert b
    decide +kernel
  status := ⟨by decide, by decide, by decide, by decide⟩
  rendering := by
    intro r h
    have e : (renderState.fork 0).rendering = some oneWorker := by decide +kernel
    obtain rfl : oneWorker = r := Option.some.inj (e.symm.trans h)
    exact ⟨rfl, by decide, by decide, by decide⟩

theorem test_witness_StepKeepsTheInvariant : Invariant State.reset ∧ step State.reset = .next State.reset ∧
    Invariant (renderState.fork 0) ∧ nextHas (step (renderState.fork 0)) (fun _ => true) = true :=
  ⟨invariant_reset, rfl, renderState_invariant, by decide +kernel⟩

theorem test_witness_MemoriesThatReadAlikeAreEqual :
    Memory.wf (writeWord [] 0xFFFFFFFE#32 0x01020304#32) = true ∧
    Memory.wf [(0, 2#8), (1, 1#8), (0xFFFFFFFE, 4#8), (0xFFFFFFFF, 3#8)] = true ∧
    writeWord [] 0xFFFFFFFE#32 0x01020304#32 = [(0, 2#8), (1, 1#8), (0xFFFFFFFE, 4#8), (0xFFFFFFFF, 3#8)] := by
  decide

theorem test_witness_FxNegAndFromi : (withF 0x80000000#32 0#32).getF 1 = 0x80000000#32 := by decide

theorem test_witness_FxMulAndDiv :
    ((withF 1#32 0#32).getF 2).toInt = 0 ∧ ((withF 1#32 0xFFFFFFFF#32).getF 2).toInt ≠ 0 ∧
    ((withF 1#32 1#32).getF 2).toInt ≠ 0 := by decide

theorem test_witness_FxImmediates :
    ∃ t u, exec (.fxLih 1 0x1234#16) running = .next t ∧ exec (.fxLil 1 0x5678#16) t = .next u :=
  ⟨_, _, rfl, rfl⟩

theorem test_witness_FxRoundTrips :
    (-32768 ≤ (0xFFFF8000#32).toInt ∧ (0xFFFF8000#32).toInt ≤ 32767) ∧
    (-32768 ≤ (0x00007FFF#32).toInt ∧ (0x00007FFF#32).toInt ≤ 32767) := by decide

/-- Vector 36 of section 2.1, and divisors of exactly 1.0 and −1.0. -/
theorem test_witness_FxQuotientOfProduct :
    (2 ^ 16 ≤ (0x00018000#32).toInt ∧ (fxMul 0xFFFEDCBB#32 0x00018000#32).flags.ov = false ∧
      (fxDiv (fxMul 0xFFFEDCBB#32 0x00018000#32).val 0x00018000#32).flags.ov = false) ∧
    (2 ^ 16 ≤ (0x00010000#32).toInt ∧ (fxMul 5#32 0x00010000#32).flags.ov = false ∧
      (fxDiv (fxMul 5#32 0x00010000#32).val 0x00010000#32).flags.ov = false) ∧
    ((0xFFFF0000#32).toInt ≤ -(2 ^ 16) ∧ (fxMul 5#32 0xFFFF0000#32).flags.ov = false ∧
      (fxDiv (fxMul 5#32 0xFFFF0000#32).val 0xFFFF0000#32).flags.ov = false) ∧
    ((0x00030000#32 : Word) ≠ 0#32 ∧ (fxNeg 0x00010000#32).flags.ov = false ∧
      (fxDiv 0x00010000#32 0x00030000#32).flags.ov = false) := by decide

theorem test_witness_CxDivQuotient :
    -256 < (0xFFFFFF01#32).toInt ∧ (0xFFFFFF01#32).toInt < 256 ∧ -256 < (0xFF#32).toInt ∧ (0xFF#32).toInt < 256 := by
  decide

/-- The determinants of vectors 6 and 7 of section 2.3: zero, and not zero. -/
theorem test_witness_MobInversion :
    (mobDet ⟨⟨0x10000#32, 0#32⟩, ⟨0x20000#32, 0#32⟩, ⟨0x20000#32, 0#32⟩, ⟨0x40000#32, 0#32⟩, false⟩).val = .zero ∧
    (mobDet mobH).val ≠ .zero := by decide

/-- The pole of vector 13 of section 2.3. -/
theorem test_witness_MobApplication :
    (cxAdd (cxMul mobH.c ⟨0x20000#32, 0#32⟩).val mobH.d).val = .zero := by decide

theorem test_witness_BlClearAndAppend :
    (slotOf (List.replicate 5 mobH)).count < 6 ∧ 6 ≤ (slotOf (List.replicate 6 mobH)).count ∧
    (List.replicate 8 mobH).length = 8 := by decide

theorem test_witness_BlMultiplication :
    (slotOf [mobH, mobG]).ok ∧ (slotOf (List.replicate 6 mobA)).ok ∧ Slot.empty.ok := by
  refine ⟨?_, ?_, ?_⟩ <;> unfold Slot.ok <;> decide

theorem test_witness_BlEvaluation :
    Slot.empty.count = 0 ∧ (slotOf [mobH]).count = 1 ∧ (slotOf [mobH]).frame = .identity := by decide

theorem test_witness_PxBlendChannels :
    ((withF 0x00010000#32 1#32).getF 1).toNat % 0x10000 = 0 ∧ ((withF 1#32 0#32).getF 2).toNat % 0x10000 = 0 := by
  decide

/-- Any state whose platform admits every address admits each access. -/
theorem admits_all {s : State} (h : s.platform = .reference) (a : Word) : memAdmit s.platform a = true := by
  have := a.isLt
  rw [h]
  simp [memAdmit, Platform.reference]
  omega

theorem test_witness_PxSampleCompletes :
    2 ≤ (sampleState .one .clamp).view.srcW.toNat ∧ (sampleState .one .clamp).view.srcW.toNat ≤ 32768 ∧
    2 ≤ (sampleState .one .clamp).view.srcH.toNat ∧ (sampleState .one .clamp).view.srcH.toNat ≤ 32768 ∧
    (sampleState .one .clamp).view.srcBase.toNat % 4 = 0 ∧
    ∀ a : Word, memAdmit (sampleState .one .clamp).platform a = true :=
  ⟨by decide, by decide, by decide, by decide, by decide, admits_all rfl⟩

/-- The sampler's source with width 1 and with width 32769; its base at 0x1002; and a platform that does not admit it. -/
theorem test_witness_PxSampleFaults :
    ¬(2 ≤ ((sampleState .zero .tile).setView { View.reset with srcW := 1#32, srcH := 2#32 }).view.srcW.toNat) ∧
    ¬(((sampleState .zero .tile).setView { View.reset with srcW := 32769#32, srcH := 2#32 }).view.srcW.toNat ≤ 32768) ∧
    (let s := (sampleState .zero .tile).setView
        { View.reset with srcW := 2#32, srcH := 32768#32, srcBase := 0x1002#32 }
     2 ≤ s.view.srcW.toNat ∧ s.view.srcW.toNat ≤ 32768 ∧ 2 ≤ s.view.srcH.toNat ∧ s.view.srcH.toNat ≤ 32768 ∧
       s.view.srcBase.toNat % 4 ≠ 0) ∧
    (let s := { sampleState .zero .tile with platform := { Platform.reference with admitRanges := [(0, 0x1000)] } }
     2 ≤ s.view.srcW.toNat ∧ s.view.srcW.toNat ≤ 32768 ∧ 2 ≤ s.view.srcH.toNat ∧ s.view.srcH.toNat ≤ 32768 ∧
       s.view.srcBase.toNat % 4 = 0 ∧ ∃ a ∈ sampleAddrs s.view (s.getZ 1), memAdmit s.platform a = false) := by
  refine ⟨by decide, by decide, by decide, by decide, by decide, by decide, by decide, by decide, 0x1000#32, ?_, ?_⟩ <;>
    decide

theorem test_witness_SamplerReadsInsideTheSource :
    (sampleState .one .clamp).view.srcOk = true ∧
    { View.reset with srcW := 32768#32, srcH := 2#32 }.srcOk = true := by decide

theorem test_witness_SamplerPolicies :
    (samplePoint (sampleState .one .clamp).view .one).val.fx = 0 ∧
    (samplePoint (sampleState .one .clamp).view .one).val.fy = 0 ∧ View.reset.policy = .tile ∧
    View.reset.aspectX.toInt = 1 * 2 ^ 16 ∧ View.reset.aspectY.toInt = 1 * 2 ^ 16 ∧
    2 ^ 16 ≤ (fxMul oneFx View.reset.aspectX).val.toInt ∧ (fxMul 0#32 View.reset.aspectY).val.toInt ≤ 0 := by
  decide

/-- One dimension illegal at both ends of its range, and each base misaligned. -/
theorem test_witness_RenderChecks :
    ¬(2 ≤ (renderState.setView { renderState.view with dstH := 1#32 }).view.dstH.toNat) ∧
    ¬((renderState.setView { renderState.view with dstW := 32769#32 }).view.dstW.toNat ≤ 32768) ∧
    (let v := { renderState.view with srcBase := 0x1001#32 }
     v.srcOk = true ∧ v.dstOk = true ∧ (renderState.setView v).view.srcBase.toNat % 4 ≠ 0) ∧
    (let v := { renderState.view with dstBase := 0x2003#32, dstW := 32768#32, dstH := 32768#32 }
     v.srcOk = true ∧ v.dstOk = true ∧ (renderState.setView v).view.dstBase.toNat % 4 ≠ 0) := by decide

/-- With one worker all rows are its own; with more workers than rows the last one has them. -/
theorem test_witness_RowPartition : (0 : Nat) < 1 ∧ (forkWorkers 1 5).length = 1 ∧
    (forkWorkers 7 5)[6]? = some ⟨6, 0, 5, 0⟩ ∧ (forkWorkers 4 5)[3]? = some ⟨3, 3, 5, 0⟩ := by decide

/-- What every statement about a running RENDER assumes. -/
theorem renderState_premise : RenderPremise renderState where
  srcOk := by decide
  dstOk := by decide
  srcAligned := by decide
  dstAligned := by decide
  workers := by decide
  busy := rfl
  inbox := rfl
  undisturbed := ⟨rfl, rfl⟩
  startAligned := by decide
  noOverlap := (overlapBroken_false (by decide) (by decide) (by decide) (by decide)).mp (by decide +kernel)

theorem renderState_admitted : AllAdmitted renderState 0 := fun _ _ _ =>
  ⟨List.all_eq_true.mpr fun a _ => admits_all rfl a, admits_all rfl _⟩

/-- The bytes on both sides of the destination. -/
theorem renderState_outside : OutsideDst renderState.view 0x1FFF ∧ OutsideDst renderState.view 0x2010 := by
  constructor <;>
  · rintro i j ⟨hi, hj⟩
    replace hi : i < 2 := hi
    replace hj : j < 2 := hj
    interval_cases i <;> interval_cases j <;> decide

/-- A RENDER that is running with a broken overlap premise. -/
def brokenOverlap : State := { renderState with rendering := some { oneWorker with overlap := true } }

theorem test_witness_ResetValues :
    { running with inbox := [HostOp.reset] }.inbox = .reset :: [] ∧ State.reset.status.busy = false ∧
    (∀ r, running.rendering = some r → r.overlap = false) ∧
    (brokenOverlap.rendering = some { oneWorker with overlap := true } ∧ OutsideDst brokenOverlap.view 0x1FFF) ∧ RenderPremise renderState ∧
    0 ≤ dstWords renderState.view ∧ 4 ≤ dstWords renderState.view ∧ InDst renderState.view 1 1 :=
  ⟨rfl, rfl, nofun, ⟨rfl, renderState_outside.1⟩, renderState_premise, by decide, by decide, by unfold InDst; decide⟩

/-- The last pixel, and the bytes on both sides of the destination. -/
theorem test_witness_RenderOrsEveryPixel :
    RenderPremise renderState ∧ AllAdmitted renderState 0 ∧ dstWords renderState.view = 4 ∧
    InDst renderState.view 1 1 ∧ OutsideDst renderState.view 0x1FFF ∧ OutsideDst renderState.view 0x2010 :=
  ⟨renderState_premise, renderState_admitted, by decide, by unfold InDst; decide, renderState_outside⟩

/-- A RENDER that runs to its join with 1 worker and with 255. -/
theorem test_witness_RenderIgnoresTheWorkerCount :
    (1#8 : BitVec 8) ≠ 0#8 ∧ (255#8 : BitVec 8) ≠ 0#8 ∧ RenderPremise renderState ∧ AllAdmitted renderState 0 :=
  ⟨by decide, by decide, renderState_premise, renderState_admitted⟩

theorem test_witness_RenderOrderIsNotObservable :
    RenderPremise renderState ∧ (dstSteps renderState 0).reverse.Perm (dstSteps renderState 0) ∧
    ∀ p ∈ (dstSteps renderState 0).reverse, p ∈ dstSteps renderState 0 :=
  ⟨renderState_premise, List.reverse_perm _, fun _ h => List.mem_reverse.mp h⟩

/-- The source is not admitted, and there is one worker. -/
def noSource : State :=
  { renderState with platform := { Platform.reference with numWorkers := 1#8, admitRanges := [(0, 0x1000)] } }

theorem noSource_premise : RenderPremise noSource :=
  ⟨by decide, by decide, by decide, by decide, by decide, rfl, rfl, ⟨rfl, rfl⟩, by decide,
    (overlapBroken_false (by decide) (by decide) (by decide) (by decide)).mp (by decide +kernel)⟩

/-- Pixel (1, 1) of `brokenState` is not admitted; of `noSource` none is, and its one worker reads first. -/
theorem test_witness_RenderBusError :
    RenderPremise brokenState ∧ ¬AllAdmitted brokenState 0 ∧
    memAdmit brokenState.platform (dstAddr brokenState.view 1 1) = false ∧ RenderPremise noSource ∧
    ¬AllAdmitted noSource 0 ∧ noSource.platform.numWorkers = 1#8 ∧
    sampleAdmitted noSource.platform noSource.view (mapPoint noSource 0 0 0).val = false := by
  refine ⟨⟨by decide, by decide, by decide, by decide, by decide, rfl, rfl, ⟨rfl, rfl⟩, by decide,
      (overlapBroken_false (by decide) (by decide) (by decide) (by decide)).mp (by decide +kernel)⟩,
    fun h => ?_, by decide, noSource_premise, fun h => ?_, rfl, by decide +kernel⟩
  · exact absurd (h 1 1 (by unfold InDst; decide)).2 (by decide)
  · exact absurd (h 0 0 (by unfold InDst; decide)).1 (by decide +kernel)

theorem test_witness_RenderWritesOnlyItsDestination :
    (∃ t, exec (.render 0) running = .next t) ∧ Invariant (renderState.fork 0) ∧
    (renderState.fork 0).rendering = some oneWorker ∧ (renderState.fork 0).inbox = [] ∧
    nextHas (step (renderState.fork 0)) (fun _ => true) = true ∧ OutsideDst renderState.view 0x1FFF :=
  ⟨⟨_, rfl⟩, renderState_invariant, by decide +kernel, rfl, by decide +kernel,
    renderState_outside.1⟩

theorem test_witness_CsrrReads :
    running.status.busy = true ∧ running.status.done = false ∧ running.status.err = false ∧
    running.status.errcode = 0#4 := ⟨rfl, rfl, rfl, rfl⟩

/-- The last word of the address space, a misaligned address beside it, and a word that is not admitted. -/
theorem test_witness_LoadWordAndOrWord :
    ((withF 0#32 0xFFFFFFFC#32).getF 2).toNat % 4 = 0 ∧
    memAdmit (withF 0#32 0xFFFFFFFC#32).platform ((withF 0#32 0xFFFFFFFC#32).getF 2) = true ∧
    ((withF 0#32 0xFFFFFFFD#32).getF 2).toNat % 4 ≠ 0 ∧
    (let s := { withF 0#32 0x10000#32 with platform := { Platform.reference with admitRanges := [(0, 0x10000)] } }
     (s.getF 2).toNat % 4 = 0 ∧ memAdmit s.platform (s.getF 2) = false) := by decide

theorem test_witness_HostStart :
    { State.reset with inbox := [HostOp.mmioWrite 0#32 3#32] }.inbox =
      .mmioWrite State.reset.platform.mmioBase 3#32 :: [] ∧
    ((3#32).getLsbD 0 = true ∧ State.reset.status.busy = false ∧ State.reset.status.err = false) ∧
    (2#32).getLsbD 0 = false ∧ running.status.busy = true := ⟨rfl, ⟨rfl, rfl, rfl⟩, rfl, rfl⟩

/-- The offsets of STATUS, CMD_PC and the view CSRs, both ends of F and Z, and of the ignored ranges; the words behind
the command list and behind the destination, which the run does not use, and one that it has not changed. -/
theorem test_witness_HostWritesAndMemory :
    { State.reset with inbox := [HostOp.mmioWrite 4#32 0x1E#32] }.inbox = .mmioWrite 4#32 0x1E#32 :: [] ∧
    State.reset.status.busy = false ∧ (0x3FC#32 - State.reset.platform.mmioBase).toNat < 1024 ∧
    mmioTarget 0x004 = .csr .status ∧ mmioTarget 0x008 = .csr .errpc ∧ mmioTarget 0x00C = .csr .cmdPc ∧
    mmioTarget 0x010 = .csr .id ∧ mmioTarget 0x040 = .csr .srcBase ∧ mmioTarget 0x054 = .csr .policy ∧
    mmioTarget 0x080 = .csr .dstBase ∧ mmioTarget 0x098 = .csr .dv ∧ mmioTarget 0x100 = .f 0 ∧
    mmioTarget 0x13C = .f 15 ∧ mmioTarget 0x200 = .zRe 0 ∧ mmioTarget 0x27C = .zIm 15 ∧
    mmioTarget 0x014 = .unmapped ∧ mmioTarget 0x3FC = .unmapped ∧
    renderState.status.busy = true ∧ renderState.isUsed finalRecord (wordOf 0x8#32) = false ∧
    renderState.isUsed finalRecord (wordOf 0x2010#32) = false ∧
    (∀ src v, .word (wordOf 0x1001#32) src v ∈ renderState.run.flow →
      v = readWord renderState.mem (wordOf 0x1001#32)) := by
  refine ⟨rfl, rfl, ?_, ?_, ?_, ?_, ?_, ?_, ?_, ?_, ?_, ?_, ?_, ?_, ?_, ?_, ?_, rfl, by decide +kernel,
    by decide +kernel, nofun⟩ <;> decide

/-- Offsets 0 and 1020. -/
theorem test_witness_HostWritesWhileBusyAreIgnored :
    running.status.busy = true ∧ (0#32 - running.platform.mmioBase).toNat < 1024 ∧
    (1020#32 - running.platform.mmioBase).toNat < 1024 ∧ (1020#32 - running.platform.mmioBase).toNat % 4 = 0 ∧
    { running with inbox := [HostOp.mmioWrite 1020#32 1#32] }.inbox = .mmioWrite 1020#32 1#32 :: [] := by
  refine ⟨rfl, by decide, by decide, by decide, rfl⟩

/-- F15, Z15.im, DV, and the unmapped offsets at both ends of their ranges. -/
theorem test_witness_HostReadsTheRegisters :
    mmioTarget 0x13C = .f 15 ∧ mmioTarget 0x27C = .zIm 15 ∧ mmioTarget 0x278 = .zRe 15 ∧
    mmioTarget 0x098 = .csr .dv ∧ mmioTarget 0x140 = .unmapped ∧ mmioTarget 0x1FC = .unmapped ∧
    mmioTarget 0x280 = .unmapped ∧ mmioTarget 0x3FC = .unmapped ∧ mmioTarget 0x14 = .unmapped ∧
    mmioTarget 0x3C = .unmapped ∧ mmioTarget 0x58 = .unmapped ∧ mmioTarget 0x7C = .unmapped ∧
    mmioTarget 0x9C = .unmapped ∧ mmioTarget 0xFC = .unmapped ∧
    { State.reset with inbox := [HostOp.mmioRead 0x13C#32] }.inbox = .mmioRead 0x13C#32 :: [] := by
  refine ⟨?_, ?_, ?_, ?_, ?_, ?_, ?_, ?_, ?_, ?_, ?_, ?_, ?_, ?_, rfl⟩ <;> decide

end Sys2Proof.Tests
end

section
/-! PROOFS. The frames of the commands and of a RENDER's workers, from the inversions `exec_effect` and
`workerStep_cases`: what each may write, how `pc` moves, and that the flags stick. -/

namespace Sys2Proof.Machine

variable {i : Instr} {s t : State} {r : Rendering}

/-! ## The frame of a command (10_state.md R24) -/

theorem Effect.getF_frame (h : Effect i s t) {q : FReg} (hq : destF i ≠ some q) : t.getF q = s.getF q := by
  cases h with
  | writeF r x hr => exact State.getF_setF_ne s x.val fun e => hq (e ▸ hr)
  | _ => rfl

theorem Effect.getZ_frame (h : Effect i s t) {q : ZReg} (hq : destZ i ≠ some q) : t.getZ q = s.getZ q := by
  cases h with
  | writeZ r x hr => exact State.getZ_setZ_ne s x.val fun e => hq (e ▸ hr)
  | _ => rfl

theorem Effect.getM_frame (h : Effect i s t) {q : MReg} (hq : destM i ≠ some q) : t.getM q = s.getM q := by
  cases h with
  | writeM r x hr => exact State.getM_setM_ne s x.val fun e => hq (e ▸ hr)
  | _ => rfl

theorem Effect.getB_frame (h : Effect i s t) {q : BReg} (hq : destB i ≠ some q) : t.getB q = s.getB q := by
  cases h with
  | writeB r x hr => exact State.getB_setB_ne s x.val fun e => hq (e ▸ hr)
  | _ => rfl

theorem Effect.view_frame (h : Effect i s t) (hi : ∀ c fs, i ≠ .csrw c fs) : t.view = s.view := by
  cases h with
  | view c fs e => exact absurd e (hi c fs)
  | _ => rfl

theorem Effect.mem_frame (h : Effect i s t) (hi : ∀ fv fa, i ≠ .pxOrw fv fa) : t.mem = s.mem := by
  cases h with
  | orw fv fa e => exact absurd e (hi fv fa)
  | _ => rfl

/-! ## How a command moves `pc` (10_state.md R25, 60_exceptions.md R285) -/

theorem Effect.pc_cases (h : Effect i s t) :
    (t.pc = s.pc + 4#32 ∧ t.status.err = s.status.err ∧ t.errpc = s.errpc) ∨
      (t.pc = s.pc ∧ t.status.err = true ∧ t.errpc = s.pc) ∨
      ((∃ b, i = .render b) ∧ t.pc = s.pc ∧ t.status = s.status ∧ t.errpc = s.errpc ∧ t.rendering ≠ none) := by
  cases h with
  | fault => exact .inr (.inl ⟨rfl, rfl, rfl⟩)
  | fork b e => exact .inr (.inr ⟨⟨b, e⟩, rfl, rfl, rfl, Option.some_ne_none _⟩)
  | _ => exact .inl ⟨rfl, rfl, rfl⟩

/-- OV and DZ, once set, stay set (10_state.md R26). -/
def FlagsStick (s t : State) : Prop :=
  (s.status.ov = true → t.status.ov = true) ∧ (s.status.dz = true → t.status.dz = true)

theorem FlagsStick.of_status_eq (h : t.status = s.status) : FlagsStick s t := by
  rw [FlagsStick, h]; exact ⟨id, id⟩

theorem FlagsStick.trans {u : State} (h : FlagsStick s t) (k : FlagsStick t u) : FlagsStick s u :=
  ⟨k.1 ∘ h.1, k.2 ∘ h.2⟩

theorem flagsStick_addFlags (s : State) (x : Flags) : FlagsStick s (s.addFlags x) :=
  ⟨fun h => by simp [h], fun h => by simp [h]⟩

theorem Effect.flagsStick (h : Effect i s t) : FlagsStick s t := by
  cases h with
  | writeF r x => exact flagsStick_addFlags (s.setF r x.val) x.flags
  | writeZ r x => exact flagsStick_addFlags (s.setZ r x.val) x.flags
  | writeM r x => exact flagsStick_addFlags (s.setM r x.val) x.flags
  | writeB r x => exact flagsStick_addFlags (s.setB r x.val) x.flags
  | _ => exact ⟨id, id⟩

theorem Effect.hostSide (h : Effect i s t) :
    t.ie = s.ie ∧ t.platform = s.platform ∧ t.inbox = s.inbox ∧ t.hostData = s.hostData ∧ t.run = s.run := by
  cases h <;> exact ⟨rfl, rfl, rfl, rfl, rfl⟩

/-! ## The frame of a worker's step (45_render.md R245, R246) -/

theorem SameBlock.files (h : SameBlock s t) : FilesSame s t :=
  ⟨fun q => by simp [State.getF, h.f], fun q => by simp [State.getZ, h.z], fun q => by simp [State.getM, h.m],
    fun q => by simp [State.getB, h.bl]⟩

theorem SameBlock.refl (s : State) : SameBlock s s :=
  ⟨rfl, rfl, rfl, rfl, rfl, rfl, rfl, rfl, rfl, rfl, rfl, rfl⟩

theorem SameBlock.trans {u : State} (h : SameBlock s t) (k : SameBlock t u) : SameBlock s u :=
  ⟨k.f.trans h.f, k.z.trans h.z, k.m.trans h.m, k.bl.trans h.bl, k.view.trans h.view, k.pc.trans h.pc,
    k.status.trans h.status, k.ie.trans h.ie, k.errpc.trans h.errpc, k.platform.trans h.platform,
    k.inbox.trans h.inbox, k.hostData.trans h.hostData⟩

theorem SameBlock.withFreeCount (h : SameBlock s t) (n : Nat) : SameBlock s { t with freeCount := n } :=
  ⟨h.f, h.z, h.m, h.bl, h.view, h.pc, h.status, h.ie, h.errpc, h.platform, h.inbox, h.hostData⟩

/-- A step of the workers, as the state `u` before its end: it is `u`, or `u` with the flags of the RENDER and the
next `pc`, or `u` with some of these flags and BUS_ERROR (45_render.md R246, R248, R249). -/
theorem workerStep_ends (h : workerStep r s = .next t) : ∃ u, SameBlock s u ∧
    (t = u ∨ u.rendering = none ∧ ∃ x, t = (u.addFlags x).advance ∨ t = (u.addFlags x).takeFault .busError) := by
  obtain ⟨u, hm, ⟨rfl, -⟩ | ⟨q, -, -, hj⟩⟩ := workerStep_cases h
  · exact ⟨_, hm.sameBlock.withFreeCount _, .inl rfl⟩
  · refine ⟨_, (hm.sameBlock.withFreeCount (s.freeCount + 1)).trans (endRender_sameBlock _ q), .inr ⟨rfl, ?_⟩⟩
    obtain ⟨-, e⟩ | ⟨-, e⟩ := join_cases q { u with freeCount := s.freeCount + 1 } <;> rw [e] at hj <;> cases hj
    · exact ⟨_, .inr rfl⟩
    · exact ⟨_, .inl rfl⟩

theorem workerStep_frame (h : workerStep r s = .next t) : FilesSame s t ∧ t.view = s.view := by
  obtain ⟨u, hu, rfl | ⟨-, x, rfl | rfl⟩⟩ := workerStep_ends h <;>
    exact ⟨⟨hu.files.f, hu.files.z, hu.files.m, hu.files.bl⟩, hu.view⟩

theorem workerStep_pc_cases (h : workerStep r s = .next t) :
    (t.pc = s.pc ∧ t.status = s.status ∧ t.errpc = s.errpc) ∨
      (t.pc = s.pc + 4#32 ∧ t.status.err = s.status.err ∧ t.errpc = s.errpc ∧ t.rendering = none) ∨
      (t.pc = s.pc ∧ t.status.err = true ∧ t.errpc = s.pc ∧ t.rendering = none) := by
  obtain ⟨u, hu, rfl | ⟨hr, x, rfl | rfl⟩⟩ := workerStep_ends h
  · exact .inl ⟨hu.pc, hu.status, hu.errpc⟩
  · exact .inr (.inl ⟨congrArg (· + 4#32) hu.pc, (congrArg Status.err hu.status :), hu.errpc, hr⟩)
  · exact .inr (.inr ⟨hu.pc, rfl, hu.pc, hr⟩)

theorem workerStep_flagsStick (h : workerStep r s = .next t) : FlagsStick s t := by
  obtain ⟨u, hu, rfl | ⟨-, x, rfl | rfl⟩⟩ := workerStep_ends h
  · exact .of_status_eq hu.status
  · exact (FlagsStick.of_status_eq hu.status).trans (flagsStick_addFlags u x)
  · exact (FlagsStick.of_status_eq hu.status).trans (flagsStick_addFlags u x)

theorem workerStep_hostSide (h : workerStep r s = .next t) :
    t.ie = s.ie ∧ t.platform = s.platform ∧ t.inbox = s.inbox ∧ t.hostData = s.hostData := by
  obtain ⟨u, hu, rfl | ⟨-, x, rfl | rfl⟩⟩ := workerStep_ends h <;>
    exact ⟨hu.ie, hu.platform, hu.inbox, hu.hostData⟩

/-- Settles O13, from the frames of every effect and of a worker's step. -/
theorem commandsWriteOnlyTheirDestination : Obligations.CommandsWriteOnlyTheirDestination := by
  refine ⟨fun i s t h => ?_, fun r s t h => workerStep_frame h⟩
  have e := exec_effect h
  exact ⟨fun q => e.getF_frame, fun q => e.getZ_frame, fun q => e.getM_frame, fun q => e.getB_frame,
    e.view_frame, fun hi a => by rw [e.mem_frame hi]⟩

/-- Settles O9, from the effect of a command and from how a worker's step can end. -/
theorem pcMovesByFourAndFlagsStick : Obligations.PcMovesByFourAndFlagsStick := by
  refine ⟨fun i s t h => ?_, fun r s t h => ?_⟩
  · have e := exec_effect h
    exact ⟨e.pc_cases, e.flagsStick.1, e.flagsStick.2, e.hostSide⟩
  · have stick := workerStep_flagsStick h
    exact ⟨workerStep_pc_cases h, stick.1, stick.2, workerStep_hostSide h⟩

end Sys2Proof.Machine
end

section
/-! PROOFS. The Blaschke slots: what appending does to a slot (43_blaschke.md R200, R204), and that every command
keeps the counts legal (10_state.md R23). -/

namespace Sys2Proof.Machine

/-! ## One append (R200) -/

theorem blAppend_of_lt {x : Slot} (t : Mob) (h : x.count < 6) :
    blAppend x t = { x with factor := x.factor.set x.count t h, count := x.count + 1 } := dif_pos h

theorem blAppend_of_full {x : Slot} (t : Mob) (h : ¬x.count < 6) : blAppend x t = x := dif_neg h

@[simp] theorem blAppend_frame (x : Slot) (t : Mob) : (blAppend x t).frame = x.frame := by
  unfold blAppend; split <;> rfl

theorem blAppend_count {x : Slot} (t : Mob) (hx : x.ok) : (blAppend x t).count = min 6 (x.count + 1) := by
  have hx6 : x.count ≤ 6 := hx
  by_cases h : x.count < 6
  · rw [blAppend_of_lt t h]; simp only; omega
  · rw [blAppend_of_full t h]; omega

theorem blAppend_ok {x : Slot} (t : Mob) (hx : x.ok) : (blAppend x t).ok :=
  (blAppend_count t hx).trans_le (Nat.min_le_left _ _)

theorem blAppend_factor (x : Slot) (t : Mob) (k : Fin 6) :
    (blAppend x t).factor[k] = if x.count = k.val then t else x.factor[k] := by
  by_cases h : x.count < 6
  · rw [blAppend_of_lt t h]; exact Vector.getElem_set h k.isLt
  · rw [blAppend_of_full t h, if_neg (by omega)]

/-! ## The appends of BL.MUL (R204) -/

@[simp] theorem blAppendAll_cons (x : Slot) (t : Mob) (ts : List Mob) :
    blAppendAll x (t :: ts) = blAppendAll (blAppend x t) ts := rfl

theorem blAppendAll_frame (x : Slot) (ts : List Mob) : (blAppendAll x ts).frame = x.frame := by
  induction ts generalizing x with
  | nil => rfl
  | cons t ts ih => rw [blAppendAll_cons, ih, blAppend_frame]

theorem blAppendAll_count {x : Slot} (ts : List Mob) (hx : x.ok) :
    (blAppendAll x ts).count = min 6 (x.count + ts.length) := by
  induction ts generalizing x with
  | nil => exact (Nat.min_eq_right hx).symm
  | cons t ts ih => rw [blAppendAll_cons, ih (blAppend_ok t hx), blAppend_count t hx, List.length_cons]; omega

theorem blAppendAll_ok {x : Slot} (ts : List Mob) (hx : x.ok) : (blAppendAll x ts).ok :=
  (blAppendAll_count ts hx).trans_le (Nat.min_le_left _ _)

/-- The appended factors stand from `count` on; the others are as they were. -/
theorem blAppendAll_factor {x : Slot} (ts : List Mob) (hx : x.ok) (k : Fin 6) :
    (blAppendAll x ts).factor[k] =
      if x.count ≤ k.val then ts[k.val - x.count]?.getD x.factor[k] else x.factor[k] := by
  have hk := k.isLt
  induction ts generalizing x with
  | nil => simp [blAppendAll]
  | cons t ts ih =>
    rw [blAppendAll_cons, ih (blAppend_ok t hx), blAppend_count t hx, blAppend_factor]
    rcases Nat.lt_trichotomy k.val x.count with h | h | h
    · rw [if_neg (by omega), if_neg (by omega), if_neg (by omega)]
    · rw [if_neg (by omega), if_pos h.symm, if_pos (by omega), show k.val - x.count = 0 by omega]; rfl
    · have e : k.val - x.count = (k.val - (x.count + 1)) + 1 := by omega
      rw [if_pos (by omega), if_neg (by omega), if_pos (by omega), e, List.getElem?_cons_succ,
        Nat.min_eq_right (by omega)]

theorem activeFactors_length {x : Slot} (hx : x.ok) : (activeFactors x).length = x.count := by
  have hx6 : x.count ≤ 6 := hx
  simpa [activeFactors] using hx6

theorem activeFactors_getElem? (x : Slot) {j : Fin 6} (hj : j.val < x.count) :
    (activeFactors x)[j.val]? = some x.factor[j] := by
  simp [activeFactors, hj]

/-- Settles O37, from what the appends do to the count, the frame and each factor. -/
theorem blMultiplication : Obligations.BlMultiplication := by
  intro s bd bs x z hx hz
  have hlen := activeFactors_length hz
  refine ⟨blAppendAll x (activeFactors z),
    completesB_of_doneB (x := plain (blAppendAll x (activeFactors z))) rfl, ?_, blAppendAll_frame _ _, ?_, ?_⟩
  · rw [blAppendAll_count _ hx, hlen]
  · intro k hk
    rw [blAppendAll_factor _ hx]
    split
    · rw [List.getElem?_eq_none (by omega)]; rfl
    · rfl
  · intro k j hkj hj
    rw [blAppendAll_factor _ hx, if_pos (by omega), show k.val - x.count = j.val by omega,
      activeFactors_getElem? z hj]
    rfl

/-! ## The counts stay legal (10_state.md R23) -/

theorem State.getB_setB_ok {s : State} {b : BReg} {x : Slot} (hs : ∀ q, (s.getB q).ok) (hx : x.ok) (q : BReg) :
    ((s.setB b x).getB q).ok := by
  by_cases h : q = b
  · rw [h, State.getB_setB_self]; exact hx
  · rw [State.getB_setB_ne s x h]; exact hs q

/-- A command that writes no slot leaves all of them; the five that write one write a legal count. -/
theorem exec_slots_ok {i : Instr} {s t : State} (h : exec i s = .next t) (hs : ∀ q, (s.getB q).ok) :
    ∀ q, (t.getB q).ok := by
  cases i with
  | blClr b => obtain rfl := doneB_next.mp h; exact State.getB_setB_ok hs (Nat.zero_le _)
  | blAppend b ma => obtain rfl := doneB_next.mp h; exact State.getB_setB_ok hs (blAppend_ok _ (hs b))
  | blMul bd bs => obtain rfl := doneB_next.mp h; exact State.getB_setB_ok hs (blAppendAll_ok _ (hs bd))
  | blRcomp b ma => obtain rfl := doneB_next.mp h; exact State.getB_setB_ok hs (hs b)
  | blLcomp b ma => obtain rfl := doneB_next.mp h; exact State.getB_setB_ok hs (hs b)
  | _ => exact fun q => by rw [(exec_effect h).getB_frame nofun]; exact hs q

end Sys2Proof.Machine
end

section
/-! PROOFS. The invariant of the machine: what each kind of update of the state keeps of it, and from these that
every command, every step of a RENDER's workers and every operation of the host keeps it. -/

namespace Sys2Proof.Machine

variable {s t : State}

/-! ## STATUS (60_exceptions.md R292, 10_state.md R29) -/

theorem StatusOk.withFlags {x : Status} (h : StatusOk x) (ov dz : Bool) :
    StatusOk { x with ov := ov, dz := dz } := ⟨h.busyClean, h.notBoth, h.codeZero, h.codeLegal⟩

theorem causeCode_ne_zero (c : Cause) : causeCode c ≠ 0#4 := by cases c <;> decide

theorem causeCode_le (c : Cause) : (causeCode c).toNat ≤ 6 := by cases c <;> decide

/-- The fault entry ends a run, in which DONE is 0 (60_exceptions.md R285). -/
theorem StatusOk.takeFault {x : Status} (h : StatusOk x) (hb : x.busy = true) (c : Cause) :
    StatusOk { x with err := true, errcode := causeCode c, busy := false } where
  busyClean := nofun
  notBoth := by simp [(h.busyClean hb).1]
  codeZero := ⟨fun e => absurd e (causeCode_ne_zero c), nofun⟩
  codeLegal := causeCode_le c

/-- HALT ends a run, in which ERR is 0 (46_system.md R262). -/
theorem StatusOk.halt {x : Status} (h : StatusOk x) (hb : x.busy = true) :
    StatusOk { x with done := true, busy := false } where
  busyClean := nofun
  notBoth := by simp [(h.busyClean hb).2]
  codeZero := h.codeZero
  codeLegal := h.codeLegal

/-- The host's write-1-to-clear only clears, and ERR and ERRCODE together (60_exceptions.md R288). -/
theorem StatusOk.clear (h : StatusOk s.status) (w : Word) : StatusOk (s.clearStatus w).status where
  busyClean hb := by simp [State.clearStatus, h.busyClean hb]
  notBoth hc := h.notBoth ⟨(Bool.and_eq_true_iff.mp hc.1).1, (Bool.and_eq_true_iff.mp hc.2).1⟩
  codeZero := by
    show (if w.getLsbD 2 then 0#4 else s.status.errcode) = 0#4 ↔ (s.status.err && !w.getLsbD 2) = false
    cases w.getLsbD 2 <;> simp [h.codeZero]
  codeLegal := by
    show (if w.getLsbD 2 then 0#4 else s.status.errcode).toNat ≤ 6
    split
    · decide
    · exact h.codeLegal

/-- START, when it is not ignored, sets BUSY and clears DONE, with ERR = 0 (60_exceptions.md R295). -/
theorem StatusOk.start (h : StatusOk s.status) : StatusOk s.start.status := by
  unfold State.start
  split
  · exact h
  · rename_i hc
    obtain ⟨-, he⟩ := Bool.or_eq_false_iff.mp (Bool.eq_false_iff.mpr hc)
    exact ⟨fun _ => ⟨rfl, he⟩, by simp, h.codeZero, h.codeLegal⟩

/-! ## The parts of the invariant -/

/-- Between RENDERs the invariant speaks of memory, the slots and STATUS alone. -/
theorem Invariant.of_idle (hm : Memory.wf t.mem = true) (hb : ∀ b, (t.getB b).ok) (hs : StatusOk t.status)
    (hr : t.rendering = none) : Invariant t := ⟨hm, hb, hs, fun _ e => nomatch hr.symm.trans e⟩

/-- The invariant rests on memory's form, the slots, STATUS, the workers and the view. -/
theorem Invariant.congr (h : Invariant s) (hm : Memory.wf t.mem = true) (hb : t.bl = s.bl)
    (hs : t.status = s.status) (hr : t.rendering = s.rendering) (hv : t.view = s.view) : Invariant t :=
  ⟨hm, fun b => by simpa [State.getB, hb] using h.slots b, hs ▸ h.status, by rw [hr, hs, hv]; exact h.rendering⟩

theorem RecordOnly.status_eq (h : RecordOnly s t) : t.status = s.status := by
  obtain ⟨m, l, n, rfl⟩ := h; rfl

theorem RecordOnly.rendering_eq (h : RecordOnly s t) : t.rendering = s.rendering := by
  obtain ⟨m, l, n, rfl⟩ := h; rfl

theorem Invariant.of_record (h : Invariant s) (hr : RecordOnly s t) (hm : Memory.wf t.mem = true) :
    Invariant t := by
  obtain ⟨m, l, n, rfl⟩ := hr
  exact h.congr hm rfl rfl rfl rfl

/-- While BUSY is 0 no RENDER is running (45_render.md R246). -/
theorem Invariant.rendering_none (h : Invariant s) (hb : s.status.busy = false) : s.rendering = none := by
  cases hr : s.rendering with
  | none => rfl
  | some r => exact absurd (h.rendering r hr).1 (by simp [hb])

theorem Invariant.takeFault (h : Invariant s) (hb : s.status.busy = true) (hr : s.rendering = none) (c : Cause) :
    Invariant (s.takeFault c) := .of_idle h.mem h.slots (h.status.takeFault hb c) hr

/-! ## The fork (45_render.md R242) -/

/-- The rows of worker `k` of `n`: they lie in the destination, and the last worker owns the last row. -/
theorem mem_forkWorkers {n h : Nat} {x : Worker} : x ∈ forkWorkers n h ↔ ∃ k, k < n ∧
    x = { index := k, row := k * (h / n), rowEnd := if k + 1 = n then h else (k + 1) * (h / n), col := 0 } := by
  simp [forkWorkers, eq_comm]

theorem forkWorkers_inside {n h : Nat} {x : Worker} (hx : x ∈ forkWorkers n h) : x.rowEnd ≤ h ∧ x.col = 0 := by
  obtain ⟨k, hk, rfl⟩ := mem_forkWorkers.mp hx
  refine ⟨?_, rfl⟩
  simp only
  split
  · exact le_rfl
  · calc (k + 1) * (h / n) ≤ n * (h / n) := Nat.mul_le_mul_right _ hk
      _ ≤ h := Nat.mul_div_le h n

theorem forkWorkers_live {n h : Nat} (hn : 0 < n) (hh : 0 < h) : (forkWorkers n h).filter Worker.live ≠ [] := by
  have hlt : (n - 1) * (h / n) < h := by
    rcases Nat.eq_zero_or_pos (h / n) with e | e
    · simpa [e] using hh
    · calc (n - 1) * (h / n) < n * (h / n) := Nat.mul_lt_mul_of_pos_right (by omega) e
        _ ≤ h := Nat.mul_div_le h n
  have hmem : (⟨n - 1, (n - 1) * (h / n), h, 0⟩ : Worker) ∈ forkWorkers n h :=
    mem_forkWorkers.mpr ⟨n - 1, by omega, by rw [if_pos (by omega)]⟩
  exact List.ne_nil_of_mem (List.mem_filter.mpr ⟨hmem, decide_eq_true hlt⟩)

theorem forkRender_ok (b : BReg) (hc : renderCheck s.view = none) (hn : s.platform.numWorkers ≠ 0#8) :
    RenderingOk s.view (forkRender b s) := by
  obtain ⟨⟨hw, -⟩, hh, -⟩ := (dstOk_iff s.view).mp ((renderCheck_none s.view).mp hc).2.1
  have hpos : 0 < s.platform.numWorkers.toNat := Nat.pos_of_ne_zero fun e => hn (BitVec.eq_of_toNat_eq e)
  refine ⟨hc, forkWorkers_live hpos (by omega), fun x hx => ?_⟩
  obtain ⟨hx, hlive⟩ := List.mem_filter.mp hx
  obtain ⟨hend, hcol⟩ := forkWorkers_inside hx
  exact ⟨of_decide_eq_true hlive, hend, by omega⟩

/-! ## A worker's step (45_render.md R244 to R248) -/

/-- Every worker stands at a pixel of the destination: what a running RENDER keeps until its join. -/
def WorkersInside (v : View) (ws : List Worker) : Prop :=
  ∀ x ∈ ws, x.row < x.rowEnd ∧ x.rowEnd ≤ v.dstH.toNat ∧ x.col < v.dstW.toNat

theorem WorkersInside.eraseIdx {v : View} {ws : List Worker} (h : WorkersInside v ws) (k : Nat) :
    WorkersInside v (ws.eraseIdx k) := fun x hx => h x (List.mem_of_mem_eraseIdx hx)

theorem WorkersInside.putWorker {v : View} {ws : List Worker} (h : WorkersInside v ws) {k : Nat} {x : Worker}
    (hx : x ∈ ws) : WorkersInside v (putWorker k (x.next v.dstW.toNat) ws) := by
  obtain ⟨hrow, hend, hcol⟩ := h x hx
  unfold Machine.putWorker
  split
  · rename_i hlive
    intro y hy
    rcases List.mem_or_eq_of_mem_set hy with hy | rfl
    · exact h y hy
    · refine ⟨of_decide_eq_true hlive, ?_, ?_⟩ <;> unfold Worker.next <;> split
      · exact hend
      · exact hend
      · assumption
      · exact Nat.zero_lt_of_lt hcol
  · exact h.eraseIdx k

/-- After a worker has moved the RENDER is still there, at the same slot and with the same premise, and its workers
stand inside the destination. -/
theorem Moved.rendering {r : Rendering} (h : Moved r s t) (hr : s.rendering = some r)
    (hin : WorkersInside s.view r.workers) : ∃ q, t.rendering = some q ∧ q.slot = r.slot ∧
      q.overlap = r.overlap ∧ WorkersInside s.view q.workers := by
  cases h with
  | idle => exact ⟨r, hr, rfl, rfl, hin⟩
  | stops k => exact ⟨_, rfl, rfl, rfl, hin.eraseIdx k⟩
  | pixel k x hk => exact ⟨_, rfl, rfl, rfl, hin.putWorker (List.mem_of_getElem? hk)⟩
  | error k => exact ⟨_, rfl, rfl, rfl, hin.eraseIdx k⟩

theorem wf_pixelMem (r : Rendering) (p : PixelStep) (h : Memory.wf s.mem = true) :
    Memory.wf (pixelMem r s p) = true := by
  unfold pixelMem
  split
  · exact wf_writeWord _ _ h
  · exact wf_orWord _ _ h

theorem Moved.wf {r : Rendering} (h : Moved r s t) (hm : Memory.wf s.mem = true) : Memory.wf t.mem = true := by
  cases h with
  | pixel k x => exact wf_pixelMem r _ hm
  | _ => exact hm

theorem wf_endRender (r : Rendering) (h : Memory.wf s.mem = true) : Memory.wf (s.endRender r).mem = true := by
  unfold State.endRender
  split
  · exact wf_freeWords _ _ h
  · exact h

theorem workerStep_keeps_invariant {r : Rendering} (hs : Invariant s) (hr : s.rendering = some r)
    (h : workerStep r s = .next t) : Invariant t := by
  obtain ⟨hb, hok⟩ := hs.rendering r hr
  obtain ⟨u, hm, hu⟩ := workerStep_cases h
  have same := hm.sameBlock
  have hslots : ∀ b, (u.getB b).ok := fun b => by rw [same.files.bl]; exact hs.slots b
  have hstatus : StatusOk u.status := same.status ▸ hs.status
  have hbusy : u.status.busy = true := by rw [same.status, hb]
  obtain ⟨q, hq, -, -, hin⟩ := hm.rendering hr hok.inside
  obtain ⟨rfl, hlive⟩ | ⟨p, -, -, hj⟩ := hu
  · refine ⟨hm.wf hs.mem, hslots, hstatus, fun p (hp : u.rendering = some p) => ?_⟩
    obtain rfl : q = p := Option.some.inj (hq.symm.trans hp)
    rw [show ({ u with freeCount := s.freeCount + 1 } : State).view = s.view from same.view]
    exact ⟨hbusy, hok.checked, hlive q hq, hin⟩
  · have hmem := wf_endRender (s := { u with freeCount := s.freeCount + 1 }) p (hm.wf hs.mem)
    obtain ⟨-, e⟩ | ⟨-, e⟩ := join_cases p { u with freeCount := s.freeCount + 1 } <;> rw [e] at hj <;> cases hj
    · exact .of_idle hmem hslots
        (StatusOk.takeFault (x := (State.addFlags _ _).status) (hstatus.withFlags _ _) hbusy _) rfl
    · exact .of_idle hmem hslots (hstatus.withFlags _ _) rfl

/-! ## A command -/

theorem Effect.wf {i : Instr} (h : Effect i s t) (hm : Memory.wf s.mem = true) : Memory.wf t.mem = true := by
  cases h with
  | orw => exact wf_orWord _ _ hm
  | _ => exact hm

/-- A command that executes in a run, between RENDERs, keeps the invariant. -/
theorem exec_keeps_invariant {i : Instr} (hs : Invariant s) (hb : s.status.busy = true) (hr : s.rendering = none)
    (h : exec i s = .next t) : Invariant t := by
  have e := exec_effect h
  have hm := e.wf hs.mem
  have hbl := exec_slots_ok h hs.slots
  cases e with
  | halt => exact .of_idle hm hbl (hs.status.halt hb) hr
  | fault c => exact hs.takeFault hb hr c
  | fork b _ hc hn =>
    refine ⟨hm, hbl, hs.status, fun r e => ?_⟩
    cases e
    exact ⟨hb, forkRender_ok b hc hn⟩
  | _ => exact .of_idle hm hbl (hs.status.withFlags _ _) hr

theorem raceResult_keeps_invariant (i : Instr) (s : State) (ht : Invariant t) : Invariant (raceResult i s t) := by
  obtain e | ⟨fv, fa, -, e⟩ | ⟨fd, -, e⟩ := raceResult_cases i s t <;> rw [e]
  · exact ht
  · exact ht.congr (wf_writeWord _ _ ht.mem) rfl rfl rfl rfl
  · exact ht.congr ht.mem rfl rfl rfl rfl

theorem runInstr_keeps_invariant {final : State → RunLog} {i : Instr} (hs : Invariant s)
    (hb : s.status.busy = true) (hr : s.rendering = none) (h : runInstr final i s = .next t) : Invariant t := by
  have hrec := noteCommand_record final i s
  have hn : Invariant (noteCommand final i s) := hs.of_record hrec (wf_noteCommand final i hs.mem)
  unfold runInstr at h
  split at h <;> cases h
  rename_i t he
  exact raceResult_keeps_invariant i _
    (exec_keeps_invariant hn (hrec.status_eq ▸ hb) (hrec.rendering_eq.trans hr) he)

theorem runCommand_keeps_invariant {final : State → RunLog} (hs : Invariant s) (hb : s.status.busy = true)
    (hr : s.rendering = none) (h : runCommand final s = .next t) : Invariant t := by
  unfold runCommand at h
  split at h
  · obtain rfl := faulted_next.mp h; exact hs.takeFault hb hr _
  · have hrec := noteFetch_record s
    have hn : Invariant s.noteFetch := hs.of_record hrec (wf_noteFetch hs.mem)
    have hb' : s.noteFetch.status.busy = true := hrec.status_eq ▸ hb
    have hr' : s.noteFetch.rendering = none := hrec.rendering_eq.trans hr
    unfold runWord at h
    split at h
    · obtain rfl := faulted_next.mp h; exact hn.takeFault hb' hr' _
    · exact runInstr_keeps_invariant hn hb' hr' h

theorem blockMove_keeps_invariant {final : State → RunLog} (hs : Invariant s) (h : blockMove final s = .next t) :
    Invariant t := by
  unfold blockMove at h
  split at h
  · rename_i hb
    split at h
    · rename_i r hr; exact workerStep_keeps_invariant hs hr h
    · rename_i hr; exact runCommand_keeps_invariant hs hb hr h
  · cases h; exact hs

/-! ## The host's operations -/

theorem start_keeps_invariant (hs : Invariant s) : Invariant s.start := by
  have hst := hs.status.start
  unfold State.start at hst ⊢
  split at hst
  · rename_i hc; rw [if_pos hc]; exact hs
  · rename_i hc
    rw [if_neg hc]
    obtain ⟨hb, -⟩ := Bool.or_eq_false_iff.mp (Bool.eq_false_iff.mpr hc)
    exact .of_idle hs.mem hs.slots hst (hs.rendering_none hb)

theorem writeCtrl_keeps_invariant (hs : Invariant s) (w : Word) : Invariant (writeCtrl s w) := by
  have ht : Invariant { s with ie := w.getLsbD 1 } := hs.congr hs.mem rfl rfl rfl rfl
  unfold writeCtrl
  split
  · exact start_keeps_invariant ht
  · exact ht

/-- An idle block takes any write: no RENDER is running that a view CSR could disturb. -/
theorem mmioWriteIdle_keeps_invariant (hs : Invariant s) (hb : s.status.busy = false) (w : Word)
    (o : MmioTarget) : Invariant (mmioWriteIdle s w o) := by
  have hr := hs.rendering_none hb
  unfold mmioWriteIdle
  split
  case h_1 => exact writeCtrl_keeps_invariant hs w
  case h_2 => exact .of_idle hs.mem hs.slots (hs.status.clear w) hr
  all_goals exact .of_idle hs.mem hs.slots hs.status hr

theorem mmioWrite_keeps_invariant (hs : Invariant s) (w : Word) (o : MmioTarget) :
    Invariant (mmioWrite s w o) := by
  unfold mmioWrite
  split
  · split
    · exact writeCtrl_keeps_invariant hs w
    · exact hs
  · rename_i hb; exact mmioWriteIdle_keeps_invariant hs (Bool.eq_false_iff.mpr hb) w o

/-- An access of the window answers what its target gives, or does nothing (60_exceptions.md R293). -/
theorem mmioAccess_next {a : Word} {k : MmioTarget → State} (h : mmioAccess s a k = .next t) :
    t = s ∨ ∃ o, t = k o := by
  unfold mmioAccess at h
  split at h
  · cases h; exact .inl rfl
  · split at h <;> cases h
    exact .inr ⟨_, rfl⟩

theorem hostRead_keeps_invariant (hs : Invariant s) (a : Word) : Invariant (hostRead s a) := by
  unfold hostRead
  split <;> exact hs.congr hs.mem rfl rfl rfl rfl

theorem hostWrite_keeps_invariant (hs : Invariant s) (final : State → RunLog) (a : Word) (v : Byte) :
    Invariant (hostWrite s final a v) := by
  unfold hostWrite
  split
  · have hm := wf_raceWrite final a v hs.mem
    obtain ⟨f, m, l, n, e⟩ := raceWrite_record s final a v
    rw [e] at hm ⊢
    exact hs.congr hm rfl rfl rfl rfl
  · exact hs.congr (wf_writeByte v hs.mem a.isLt) rfl rfl rfl rfl

theorem getB_reset (b : BReg) : State.reset.getB b = .empty := by simp [State.getB, State.reset]

/-- Settles O16: the reset state has an empty memory, cleared slots and STATUS, and no RENDER. -/
theorem resetHasTheInvariant : Obligations.ResetHasTheInvariant :=
  .of_idle wf_reset (fun b => by rw [getB_reset]; exact Nat.zero_le _)
    ⟨nofun, nofun, by decide, by decide⟩ rfl

theorem afterReset_invariant (h : Memory.wf s.mem = true) : Invariant s.afterReset :=
  .of_idle h resetHasTheInvariant.slots resetHasTheInvariant.status rfl

theorem hostReset_invariant (h : Memory.wf s.mem = true) : Invariant (hostReset s) := by
  unfold hostReset
  split
  · exact afterReset_invariant h
  · exact afterReset_invariant (wf_endRender _ h)

theorem hostMove_keeps_invariant {op : HostOp} {final : State → RunLog} (hs : Invariant s)
    (h : hostMove op final s = .next t) : Invariant t := by
  cases op with
  | wait => cases h; exact hs
  | mmioRead a =>
    obtain rfl | ⟨o, rfl⟩ := mmioAccess_next (k := fun o => { s with hostData := mmioValue s o }) h
    · exact hs
    · exact hs.congr hs.mem rfl rfl rfl rfl
  | mmioWrite a w =>
    obtain rfl | ⟨o, rfl⟩ := mmioAccess_next (k := mmioWrite s w) h
    · exact hs
    · exact mmioWrite_keeps_invariant hs w o
  | memRead a => cases h; exact hostRead_keeps_invariant hs a
  | memWrite a v => cases h; exact hostWrite_keeps_invariant hs final a v
  | reset => cases h; exact hostReset_invariant hs.mem

/-- Settles O15: the step is the host's operation or the block's own move, and each keeps the invariant. -/
theorem stepKeepsTheInvariant : Obligations.StepKeepsTheInvariant := by
  intro s t hs h
  have rest_inv (rest : List HostOp) : Invariant { s with inbox := rest } := hs.congr hs.mem rfl rfl rfl rfl
  cases hi : s.inbox with
  | nil => exact blockMove_keeps_invariant hs (step_block hi ▸ h)
  | cons op rest =>
    by_cases hw : op = .wait
    · exact blockMove_keeps_invariant (rest_inv rest) (step_wait (hw ▸ hi) ▸ h)
    · exact hostMove_keeps_invariant (rest_inv rest) (step_host hi hw ▸ h)

end Sys2Proof.Machine
end

section
/-! PROOFS. The CSRs as commands and the host see them: the words of CTRL, STATUS, ID and POLICY, and CSRR and CSRW
on every CSR (10_state.md R27 to R41, 46_system.md R263, R264). -/

namespace Sys2Proof.Machine

/-! ## The words of the CSRs -/

theorem ctrlWord_eq (ie : Bool) : ctrlWord ie = if ie then 0x00000002#32 else 0x00000000#32 := by
  cases ie <;> rfl

theorem policyWord_eq (p : Policy) : policyWord p = if p = .clamp then 1#32 else 0#32 := by cases p <;> rfl

theorem policyOf_eq (w : Word) : policyOf w = if w &&& 1#32 = 1#32 then .clamp else .tile := by
  have h : w.getLsbD 0 = true ↔ w &&& 1#32 = 1#32 := by
    rw [BitVec.and_one_eq_setWidth_ofBool_getLsbD]
    cases w.getLsbD 0 <;> decide
  simp only [policyOf, h]

theorem idWord_eq (p : Platform) :
    idWord p = 0x01000000#32 ||| (p.numWorkers.zeroExtend 32 <<< 16) ||| 0x00001006#32 := by
  apply BitVec.eq_of_getLsbD_eq
  intro i hi
  simp only [idWord, BitVec.getLsbD_append]
  interval_cases i <;> simp

/-- STATUS in a run, where BUSY is 1 and DONE, ERR and ERRCODE are 0. -/
theorem statusWord_running {x : Status} (hb : x.busy = true) (hd : x.done = false) (he : x.err = false)
    (hc : x.errcode = 0#4) : statusWord x =
      0x00000001#32 + (if x.dz then 0x00000008#32 else 0#32) + (if x.ov then 0x00000010#32 else 0#32) := by
  rw [statusWord, hb, hd, he, hc]
  cases x.dz <;> cases x.ov <;> rfl

/-- Each field of STATUS is at its bits (R29). -/
theorem statusWord_fields (x : Status) :
    (statusWord x).getLsbD 0 = x.busy ∧ (statusWord x).getLsbD 1 = x.done ∧ (statusWord x).getLsbD 2 = x.err ∧
      (statusWord x).getLsbD 3 = x.dz ∧ (statusWord x).getLsbD 4 = x.ov ∧
      (statusWord x).extractLsb' 8 4 = x.errcode ∧ statusWord x &&& 0xFFFFF0E0#32 = 0#32 := by
  refine ⟨?_, ?_, ?_, ?_, ?_, ?_, ?_⟩
  case refine_6 =>
    apply BitVec.eq_of_getLsbD_eq
    intro i hi
    simp only [statusWord, BitVec.getLsbD_extractLsb', BitVec.getLsbD_append]
    interval_cases i <;> simp
  case refine_7 =>
    apply BitVec.eq_of_getLsbD_eq
    intro i hi
    simp only [statusWord, BitVec.getLsbD_and, BitVec.getLsbD_append]
    interval_cases i <;> simp
  all_goals
    simp only [statusWord, BitVec.getLsbD_append]
    simp

/-! ## CSRR and CSRW -/

theorem csrr_completes (s : State) (fd : FReg) (c : Csr) :
    CompletesF (.csrr fd c) s fd (readCsr s c) false false := completesF_of_doneF (x := plain (readCsr s c)) rfl

theorem csrw_completes (s : State) (fs : FReg) {c : Csr} (hw : c.writable = true) :
    CompletesView (.csrw c fs) s (writeView s.view c (s.getF fs)) :=
  ⟨_, if_pos hw, rfl, ⟨fun _ => rfl, fun _ => rfl, fun _ => rfl, fun _ => rfl⟩, rfl,
    ⟨(Bool.or_false _).symm, (Bool.or_false _).symm⟩, fun _ => rfl,
    ⟨rfl, rfl, rfl, rfl, rfl, rfl, rfl, rfl, rfl, rfl, rfl, rfl⟩⟩

/-- Settles O54: CSRR completes with `readCsr`, which four words spell out. -/
theorem csrrReads : Obligations.CsrrReads := by
  intro s fd
  have read := csrr_completes s fd
  exact ⟨ctrlWord_eq s.ie ▸ read .ctrl, fun hb hd he hc => statusWord_running hb hd he hc ▸ read .status,
    read .errpc, read .cmdPc, idWord_eq s.platform ▸ read .id, read .srcBase, read .srcW, read .srcH,
    read .aspectX, read .aspectY, policyWord_eq s.view.policy ▸ read .policy, read .dstBase, read .dstW,
    read .dstH, read .u0, read .v0, read .du, read .dv⟩

/-- Settles O55: CSRW completes with `writeView`, which keeps bit 0 of POLICY. -/
theorem csrwWrites : Obligations.CsrwWrites := by
  intro s fs
  have write {c : Csr} (hw : c.writable = true) := csrw_completes s fs hw
  exact ⟨write (c := .srcBase) rfl, write (c := .srcW) rfl, write (c := .srcH) rfl, write (c := .aspectX) rfl,
    write (c := .aspectY) rfl, policyOf_eq (s.getF fs) ▸ write (c := .policy) rfl, write (c := .dstBase) rfl,
    write (c := .dstW) rfl, write (c := .dstH) rfl, write (c := .u0) rfl, write (c := .v0) rfl,
    write (c := .du) rfl, write (c := .dv) rfl⟩

end Sys2Proof.Machine
end

section
/-! PROOFS. The host's port: which register each offset of the window reaches, and what an access of the host to the
window and to a byte of memory does in one step (10_state.md R27, R42, R43, 60_exceptions.md R293, R294,
20_memory.md R62, R72). -/

namespace Sys2Proof.Machine

variable {s : State} {rest : List HostOp} {a w : Word} {o : Nat}

/-! ## The offsets of the window -/

theorem mmioTarget_csr (c : Csr) : mmioTarget (4 * (csrNumber c).toNat) = .csr c := by cases c <;> rfl

theorem mmioTarget_f (r : FReg) : mmioTarget (0x100 + 4 * r.val) = .f r := by
  simp [mmioTarget]

theorem mmioTarget_z {k : Nat} (r : ZReg) (hk : k < 8) : mmioTarget (0x200 + 8 * r.val + k) =
    if k = 0 then .zRe r else .zIm r := by
  have hr := r.isLt
  have e : (0x200 + 8 * r.val + k - 0x200) / 8 = r.val := by omega
  have hmod : (0x200 + 8 * r.val + k) % 8 = k := by omega
  unfold mmioTarget
  rw [if_neg (by omega), dif_neg (by omega), if_neg (by omega)]
  simp only [e, hr, dite_true, hmod]

/-- The numbers between the groups of CSRs are unmapped (R27, R42). -/
theorem csrOfNumber_gap : ∀ k < 64, (5 ≤ k ∧ k < 0x10) ∨ (0x16 ≤ k ∧ k < 0x20) ∨ 0x27 ≤ k →
    csrOfNumber (BitVec.ofNat 16 k) = none := by decide

theorem mmioTarget_unmapped (h : (0x14 ≤ o ∧ o < 0x40) ∨ (0x58 ≤ o ∧ o < 0x80) ∨ (0x9C ≤ o ∧ o < 0x100) ∨
    (0x140 ≤ o ∧ o < 0x200) ∨ 0x280 ≤ o) : mmioTarget o = .unmapped := by
  unfold mmioTarget
  by_cases hc : o < 0x100
  · rw [if_pos hc, csrOfNumber_gap (o / 4) (by omega) (by omega)]
  · rw [if_neg hc, dif_neg (by omega)]
    split
    · rfl
    · rw [dif_neg (by omega)]

/-! ## An access of the window -/

theorem mmioAccess_aligned (k : MmioTarget → State) (ho : (a - s.platform.mmioBase).toNat < 1024)
    (h4 : (a - s.platform.mmioBase).toNat % 4 = 0) :
    mmioAccess s a k = .next (k (mmioTarget (a - s.platform.mmioBase).toNat)) := by
  simp only [mmioAccess, mmioOffset, ho, if_true, h4]

theorem mmioValue_inbox (s : State) (rest : List HostOp) (x : MmioTarget) :
    mmioValue { s with inbox := rest } x = mmioValue s x := by
  cases x with
  | csr c => cases c <;> rfl
  | _ => rfl

theorem step_mmioRead (hi : s.inbox = .mmioRead a :: rest) (ho : (a - s.platform.mmioBase).toNat < 1024)
    (h4 : (a - s.platform.mmioBase).toNat % 4 = 0) : step s = .next { s with
      inbox := rest, hostData := mmioValue s (mmioTarget (a - s.platform.mmioBase).toNat) } := by
  rw [step_host hi nofun]
  refine (mmioAccess_aligned (s := { s with inbox := rest })
    (fun x => { s with inbox := rest, hostData := mmioValue { s with inbox := rest } x }) ho h4).trans ?_
  rw [mmioValue_inbox]

theorem step_mmioWrite_idle (hi : s.inbox = .mmioWrite a w :: rest) (hb : s.status.busy = false)
    (ho : (a - s.platform.mmioBase).toNat < 1024) (h4 : (a - s.platform.mmioBase).toNat % 4 = 0) :
    step s = .next (mmioWriteIdle { s with inbox := rest } w (mmioTarget (a - s.platform.mmioBase).toNat)) := by
  rw [step_host hi nofun]
  refine (mmioAccess_aligned (s := { s with inbox := rest }) _ ho h4).trans ?_
  simp only [mmioWrite, hb, Bool.false_eq_true, if_false]

/-- Settles O60: the read gives `mmioValue` of the target at its offset. -/
theorem hostReadsTheRegisters : Obligations.HostReadsTheRegisters := by
  intro s a rest hi o ho h4
  have value {x : MmioTarget} {n : Nat} (hx : mmioTarget n = x) (hn : o = n) :
      mmioValue s (mmioTarget o) = mmioValue s x := by rw [hn, hx]
  refine ⟨_, step_mmioRead hi ho h4, fun r => value (mmioTarget_f r),
    fun r => value (mmioTarget_z r (by decide : 0 < 8)),
    fun r hn => value (mmioTarget_z r (by decide : 4 < 8)) (by omega), fun c => value (mmioTarget_csr c), fun hn => ?_,
    fun hn => value (mmioTarget_unmapped hn) rfl⟩
  have e : mmioValue s (mmioTarget o) = statusWord s.status := value (mmioTarget_csr .status) hn
  exact e ▸ statusWord_fields s.status

/-! ## A byte of memory -/

theorem wordOf_toNat (a : Word) : (wordOf a).toNat = a.toNat / 4 * 4 := by
  have e : wordOf a = a.extractLsb' 2 30 ++ 0#2 := by
    apply BitVec.eq_of_getLsbD_eq
    intro i hi
    simp only [wordOf, BitVec.getLsbD_and, BitVec.getLsbD_append]
    interval_cases i <;> simp
  have ha := a.isLt
  rw [e, BitVec.toNat_append, BitVec.extractLsb'_toNat, Nat.shiftRight_eq_div_pow, BitVec.toNat_ofNat,
    Nat.zero_mod, Nat.or_zero, Nat.shiftLeft_eq]
  omega

/-- The bytes of the word read from memory are those of memory (20_memory.md R62). -/
theorem byteOfWord_wordOfBytes (b0 b1 b2 b3 : Byte) {k : Nat} (hk : k < 4) :
    byteOfWord (wordOfBytes b0 b1 b2 b3) k = [b0, b1, b2, b3][k] := by
  apply BitVec.eq_of_getLsbD_eq
  intro i hi
  simp only [byteOfWord, wordOfBytes, BitVec.getLsbD_extractLsb', BitVec.getLsbD_append]
  interval_cases k <;> interval_cases i <;> simp

theorem byteOfWord_readWord (m : Memory) (b : Word) {k : Nat} (hk : k < 4) :
    byteOfWord (readWord m b) k = readByte m (b + BitVec.ofNat 32 k).toNat := by
  rw [readWord, byteOfWord_wordOfBytes _ _ _ _ hk]
  interval_cases k
  · rw [BitVec.add_zero]; rfl
  all_goals rfl

theorem byteOfWord_readWord_wordOf (m : Memory) (a : Word) :
    byteOfWord (readWord m (wordOf a)) (a.toNat % 4) = readByte m a.toNat := by
  have e : (wordOf a + BitVec.ofNat 32 (a.toNat % 4)).toNat = a.toNat := by
    have ha := a.isLt
    rw [BitVec.toNat_add, BitVec.toNat_ofNat, wordOf_toNat]
    omega
  rw [byteOfWord_readWord m _ (Nat.mod_lt _ (by decide)), e]

/-- A word that the run has not changed has held one value. -/
theorem raceRead_unchanged (h : ∀ src v, .word a src v ∈ s.run.flow → v = readWord s.mem a) :
    raceRead s a = readWord s.mem a := by
  have e : heldValues s a = [readWord s.mem a] := by
    simp only [heldValues, List.cons.injEq, true_and, List.filterMap_eq_nil_iff]
    intro x hx
    split
    · rename_i b src old
      rw [if_neg]
      simp only [Bool.and_eq_true, decide_eq_true_eq, bne_iff_ne]
      rintro ⟨rfl, hne⟩
      exact hne (h _ _ hx)
    · rfl
  simp [raceRead, e, choose]

theorem step_memRead (hi : s.inbox = .memRead a :: rest)
    (hq : s.status.busy = true → ∀ src v, .word (wordOf a) src v ∈ s.run.flow → v = readWord s.mem (wordOf a)) :
    ∃ n, step s = .next { s with
      inbox := rest, hostData := (readByte s.mem a.toNat).zeroExtend 32, freeCount := n } := by
  rw [step_host hi nofun]
  show ∃ n, Host.Outcome.next (hostRead { s with inbox := rest } a) = _
  unfold hostRead
  split
  · rename_i hb
    have e : raceRead { s with inbox := rest } (wordOf a) = readWord s.mem (wordOf a) :=
      raceRead_unchanged (s := { s with inbox := rest }) (hq hb)
    exact ⟨s.freeCount + 1, by rw [e, byteOfWord_readWord_wordOf]⟩
  · exact ⟨s.freeCount, rfl⟩

theorem step_memWrite {v : Byte} (hi : s.inbox = .memWrite a v :: rest)
    (hq : s.status.busy = true → { s with inbox := rest }.isUsed finalRecord (wordOf a) = false) :
    ∃ l, step s = .next { s with inbox := rest, mem := writeByte s.mem a.toNat v, run := l } ∧
      (s.status.busy = false → l = s.run) := by
  rw [step_host hi nofun]
  show ∃ l, Host.Outcome.next (hostWrite { s with inbox := rest } finalRecord a v) = _ ∧ _
  unfold hostWrite
  split
  · rename_i hb
    rw [raceWrite_unused v (hq hb)]
    exact ⟨_, rfl, fun h => absurd (h.symm.trans hb) Bool.false_ne_true⟩
  · exact ⟨_, rfl, fun _ => rfl⟩

/-! ## Writes to the window of an idle block -/

/-- The offsets whose writes an idle block ignores: ERRPC, ID and the unmapped ones. -/
theorem mmioWriteIdle_ignored (s : State) (w : Word) (h4 : o % 4 = 0)
    (h : o = 0x008 ∨ (0x10 ≤ o ∧ o < 0x40) ∨ (0x58 ≤ o ∧ o < 0x80) ∨ (0x9C ≤ o ∧ o < 0x100) ∨
      (0x140 ≤ o ∧ o < 0x200) ∨ 0x280 ≤ o) : mmioWriteIdle s w (mmioTarget o) = s := by
  by_cases he : o = 0x008
  · rw [he]; rfl
  by_cases hd : o = 0x010
  · rw [hd]; rfl
  · rw [mmioTarget_unmapped (by omega)]; rfl

/-- Settles O58: an idle block writes the target of the offset, and a byte of memory is written and read as it is. -/
theorem hostWritesAndMemory : Obligations.HostWritesAndMemory := by
  refine ⟨?_, fun s a v rest hi hq => ?_, fun s a rest hi hq => ?_⟩
  · intro s a w rest hi hb o setsView ho h4
    have target {x : MmioTarget} {n : Nat} (hx : mmioTarget n = x) (hn : o = n) :
        mmioWriteIdle { s with inbox := rest } w (mmioTarget (a - s.platform.mmioBase).toNat) =
          mmioWriteIdle { s with inbox := rest } w x := by
      rw [← hx, ← hn]
    have csr (c : Csr) (hn : o = 4 * (csrNumber c).toNat) := target (mmioTarget_csr c) hn
    refine ⟨_, step_mmioWrite_idle hi hb ho h4, fun hn => ?_, csr .cmdPc, csr .srcBase, csr .srcW, csr .srcH,
      csr .aspectX, csr .aspectY, fun hn => ?_, csr .dstBase, csr .dstW, csr .dstH, csr .u0, csr .v0, csr .du,
      csr .dv, fun r hn => ?_, fun r hn => ?_, fun r hn => ?_, mmioWriteIdle_ignored _ w h4⟩
    · rw [csr .status hn]
      exact ⟨rfl, hb, rfl, rfl, rfl, rfl, rfl⟩
    · exact policyOf_eq w ▸ csr .policy hn
    · rw [target (mmioTarget_f r) hn]
      exact ⟨rfl, State.getF_setF_self _ r w, fun q hq => State.getF_setF_ne _ w hq⟩
    · rw [target (mmioTarget_z r (by decide : 0 < 8)) hn]
      exact ⟨rfl, State.getZ_setZ_self _ r _, fun q hq => State.getZ_setZ_ne _ _ hq⟩
    · rw [target (mmioTarget_z r (by decide : 4 < 8)) (by omega)]
      exact ⟨rfl, State.getZ_setZ_self _ r _, fun q hq => State.getZ_setZ_ne _ _ hq⟩
  · obtain ⟨l, e, hl⟩ := step_memWrite hi hq
    exact ⟨_, e, readByte_writeByte_self _ _ _, fun x hx => readByte_writeByte_ne _ v hx, rfl, hl⟩
  · obtain ⟨n, e⟩ := step_memRead hi hq
    exact ⟨_, e, rfl, rfl⟩

end Sys2Proof.Machine
end

section
/-! PROOFS. The pixels of a RENDER: which words its samples read (44_sampler.md R222), that the overlap premise keeps
them out of the destination (20_memory.md R76), and which pixels the workers still have to do (45_render.md R242 to
R244). -/

namespace Sys2Proof.Machine

/-! ## The words a sample reads -/

theorem policyCoord_le (p : Policy) (u : Word) : policyCoord p u ≤ 2 ^ 16 := by
  cases p <;> simp only [policyCoord] <;> omega

theorem nextIndex_lt (p : Policy) {b n : Nat} (h : b < n) : nextIndex p b n < n := by
  cases p
  · exact Nat.mod_lt _ (by omega)
  · simp only [nextIndex]; omega

theorem baseIndex_lt (p : Policy) (u : Word) {n : Nat} (hn : 0 < n) : policyCoord p u * (n - 1) / 2 ^ 16 < n := by
  calc policyCoord p u * (n - 1) / 2 ^ 16 ≤ 2 ^ 16 * (n - 1) / 2 ^ 16 :=
        Nat.div_le_div_right (Nat.mul_le_mul_right _ (policyCoord_le p u))
    _ = n - 1 := Nat.mul_div_cancel_left _ (by decide)
    _ < n := by omega

/-- The four reads of a sample are words of the source. -/
theorem sampleAddrs_source {v : View} (h : v.srcOk = true) (w : Cx) :
    ∀ a ∈ sampleAddrs v w, ∃ k < srcWords v, a = v.srcBase + BitVec.ofNat 32 (4 * k) := by
  obtain ⟨⟨hw, -⟩, hh, -⟩ := (srcOk_iff v).mp h
  have addr {x y : Nat} (hx : x < v.srcW.toNat) (hy : y < v.srcH.toNat) :
      ∃ k < srcWords v, srcAddr v x y = v.srcBase + BitVec.ofNat 32 (4 * k) := by
    refine ⟨y * v.srcW.toNat + x, ?_, BitVec.eq_of_toNat_eq (by simp [srcAddr])⟩
    calc y * v.srcW.toNat + x < (y + 1) * v.srcW.toNat := by rw [Nat.succ_mul]; omega
      _ ≤ v.srcH.toNat * v.srcW.toNat := Nat.mul_le_mul_right _ hy
      _ = srcWords v := Nat.mul_comm _ _
  have hx := baseIndex_lt v.policy (fxMul w.re v.aspectX).val (n := v.srcW.toNat) (by omega)
  have hy := baseIndex_lt v.policy (fxMul w.im v.aspectY).val (n := v.srcH.toNat) (by omega)
  have hx1 := nextIndex_lt v.policy hx
  have hy1 := nextIndex_lt v.policy hy
  simp only [sampleAddrs, List.forall_mem_cons]
  exact ⟨addr hx hy, addr hx1 hy, addr hx hy1, addr hx1 hy1, nofun⟩

/-- A sample rests on the words it reads. -/
theorem pxSample_congr {m n : Memory} {v : View} {w : Cx} (h : ∀ a ∈ sampleAddrs v w, readWord m a = readWord n a) :
    pxSample m v w = pxSample n v w := by
  simp only [sampleAddrs, List.forall_mem_cons] at h
  obtain ⟨h0, h1, h2, h3, -⟩ := h
  simp only [pxSample, h0, h1, h2, h3]

variable {s t u : State} {b : BReg} {r q : Rendering}

/-- Under the overlap premise no source byte lies in the destination (20_memory.md R76). -/
theorem RenderPremise.source_outside (h : RenderPremise s) {k : Nat} (hk : k < srcWords s.view) :
    ∀ x ∈ wordBytes (s.view.srcBase + BitVec.ofNat 32 (4 * k)), OutsideDst s.view x := by
  intro x hx i j hij
  have hne := h.noOverlap.1 _ k (pixelIndex_lt hij) hk
  rw [← dstAddr_eq] at hne
  exact wordBytes_disjoint (aligned_wordAddr h.srcAligned k) (aligned_dstAddr h.dstAligned i j) hne.symm x hx

/-- Every state of a RENDER under the overlap premise computes the same pixel steps. -/
theorem pixelStep_of_frame (h : RenderPremise s) (hf : RenderFrame s u) (i j : Nat) :
    pixelStep u b i j = pixelStep s b i j := by
  have e : pxSample u.mem s.view (mapPoint s b i j).val = pxSample s.mem s.view (mapPoint s b i j).val := by
    refine pxSample_congr fun a ha => ?_
    obtain ⟨k, hk, rfl⟩ := sampleAddrs_source h.srcOk _ a ha
    exact readWord_congr fun x hx => hf.outside x (h.source_outside hk x hx)
  simp only [mapPoint] at e
  simp only [pixelStep, hf.view, hf.files.bl, hf.platform, e]

/-! ## The pixels still to do (R244) -/

/-- The pixels of `n` rows from row `a` on, row by row. -/
def rowPixels (w a n : Nat) : List (Nat × Nat) :=
  (List.range n).flatMap fun r => (List.range w).map fun i => (i, a + r)

theorem workerPixels_eq (w : Nat) (x : Worker) :
    workerPixels w x = (rowPixels w x.row (x.rowEnd - x.row)).drop x.col := rfl

theorem length_rowPixels (w a n : Nat) : (rowPixels w a n).length = n * w := by simp [rowPixels]

theorem rowPixels_add (w a n m : Nat) : rowPixels w a (n + m) = rowPixels w a n ++ rowPixels w (a + n) m := by
  simp [rowPixels, List.range_add, List.flatMap_map, Nat.add_assoc]

theorem rowPixels_succ (w a n : Nat) :
    rowPixels w a (n + 1) = ((List.range w).map fun i => (i, a)) ++ rowPixels w (a + 1) n := by
  rw [Nat.add_comm, rowPixels_add]
  simp [rowPixels]

/-- A worker's first pixel is the one it stands at; the others are those of its next place. -/
theorem workerPixels_next {w : Nat} {x : Worker} (hrow : x.row < x.rowEnd) (hcol : x.col < w) :
    workerPixels w x = (x.col, x.row) :: workerPixels w (x.next w) := by
  obtain ⟨n, hn⟩ : ∃ n, x.rowEnd - x.row = n + 1 := ⟨x.rowEnd - x.row - 1, by omega⟩
  have hlen : ((List.range w).map fun i => (i, x.row)).length = w := by simp
  have hlt : x.col < (rowPixels w x.row (n + 1)).length := by
    rw [length_rowPixels, Nat.succ_mul]; omega
  have head : (rowPixels w x.row (n + 1))[x.col] = (x.col, x.row) := by
    simp only [rowPixels_succ]
    rw [List.getElem_append_left (by rw [hlen]; exact hcol)]
    simp
  rw [workerPixels_eq, hn, List.drop_eq_getElem_cons hlt, head, Worker.next]
  split
  · rw [workerPixels_eq, hn]
  · have hw : x.col + 1 = w := by omega
    rw [workerPixels_eq, rowPixels_succ, hw, List.drop_left' hlen]
    rw [List.drop_zero, show x.rowEnd - (x.row + 1) = n by omega]

theorem workerPixels_of_not_live (w : Nat) {x : Worker} (h : x.live = false) : workerPixels w x = [] := by
  have hrow : x.rowEnd - x.row = 0 := Nat.sub_eq_zero_of_le (Nat.not_lt.mp (of_decide_eq_false h))
  rw [workerPixels_eq, hrow]
  exact List.drop_nil

theorem filter_live_pixels (w : Nat) (ws : List Worker) :
    (ws.filter Worker.live).flatMap (workerPixels w) = ws.flatMap (workerPixels w) := by
  induction ws with
  | nil => rfl
  | cons x ws ih =>
    cases hx : x.live with
    | true => rw [List.filter_cons_of_pos hx, List.flatMap_cons, List.flatMap_cons, ih]
    | false =>
      rw [List.filter_cons_of_neg (by simp [hx]), List.flatMap_cons, ih, workerPixels_of_not_live w hx,
        List.nil_append]

/-- Blocks of `q` rows, one after the other. -/
theorem rowPixels_blocks (w q m : Nat) :
    (List.range m).flatMap (fun k => rowPixels w (k * q) q) = rowPixels w 0 (m * q) := by
  induction m with
  | zero => simp [rowPixels]
  | succ m ih =>
    rw [List.range_succ, List.flatMap_append, ih, List.flatMap_singleton, Nat.succ_mul, rowPixels_add, Nat.zero_add]

/-- The fork gives every row to one worker, in order (R242, R243). -/
theorem forkWorkers_pixels {n : Nat} (hn : 0 < n) (h w : Nat) :
    ((forkWorkers n h).filter Worker.live).flatMap (workerPixels w) = rowPixels w 0 h := by
  obtain ⟨m, rfl⟩ : ∃ m, n = m + 1 := ⟨n - 1, by omega⟩
  have hle : m * (h / (m + 1)) ≤ h :=
    (Nat.mul_le_mul_right _ (Nat.le_succ m)).trans (Nat.mul_div_le h (m + 1))
  have front : ∀ k ∈ List.range m, workerPixels w ⟨k, k * (h / (m + 1)),
      if k + 1 = m + 1 then h else (k + 1) * (h / (m + 1)), 0⟩ = rowPixels w (k * (h / (m + 1))) (h / (m + 1)) := by
    intro k hk
    have hk := List.mem_range.mp hk
    rw [workerPixels_eq, if_neg (by omega), Nat.succ_mul, Nat.add_sub_cancel_left]
    rfl
  have last : workerPixels w ⟨m, m * (h / (m + 1)), if m + 1 = m + 1 then h else (m + 1) * (h / (m + 1)), 0⟩ =
      rowPixels w (0 + m * (h / (m + 1))) (h - m * (h / (m + 1))) := by
    rw [workerPixels_eq, if_pos rfl, Nat.zero_add]
    rfl
  rw [filter_live_pixels, forkWorkers, List.flatMap_map, List.range_succ, List.flatMap_append,
    List.flatMap_congr front, rowPixels_blocks, List.flatMap_singleton, last, ← rowPixels_add,
    Nat.add_sub_cancel' hle]

/-- After worker `k` has done its pixel, that pixel is no longer among those to do. -/
theorem putWorker_pixels {w k : Nat} {x : Worker} {ws : List Worker} (hk : ws[k]? = some x)
    (hrow : x.row < x.rowEnd) (hcol : x.col < w) : (ws.flatMap (workerPixels w)).Perm
      ((x.col, x.row) :: (putWorker k (x.next w) ws).flatMap (workerPixels w)) := by
  obtain ⟨hlt, rfl⟩ := List.getElem?_eq_some_iff.mp hk
  have before : ws.flatMap (workerPixels w) = (ws.take k).flatMap (workerPixels w) ++
      (ws[k].col, ws[k].row) :: (workerPixels w (ws[k].next w) ++ (ws.drop (k + 1)).flatMap (workerPixels w)) := by
    conv_lhs => rw [← List.take_append_drop k ws, List.drop_eq_getElem_cons hlt, List.flatMap_append,
      List.flatMap_cons, workerPixels_next hrow hcol]
    rfl
  have after : (putWorker k (ws[k].next w) ws).flatMap (workerPixels w) = (ws.take k).flatMap (workerPixels w) ++
      (workerPixels w (ws[k].next w) ++ (ws.drop (k + 1)).flatMap (workerPixels w)) := by
    unfold putWorker
    split
    · rw [List.set_eq_take_append_cons_drop, if_pos hlt, List.flatMap_append, List.flatMap_cons]
    · rename_i hl
      rw [List.eraseIdx_eq_take_drop_succ, List.flatMap_append,
        workerPixels_of_not_live w (Bool.eq_false_iff.mpr hl), List.nil_append]
  rw [before, after]
  exact List.perm_middle

end Sys2Proof.Machine
end

section
/-! PROOFS. A RENDER under the overlap premise, step by step: what every state of it keeps, which pixels are still to
do, and what the reset input leaves of it (45_render.md R247, 70_reset_and_hazards.md R320, R321). -/

namespace Sys2Proof.Machine

variable {s t u : State} {b : BReg} {r q : Rendering}

/-! ## What a RENDER leaves of memory -/

/-- `u` is a state of the RENDER that `s` forks, or after it: the frame holds, every destination word is old or
`old | p(i, j)`, and no host write has raced. -/
structure Rendered (s : State) (b : BReg) (u : State) : Prop where
  frame : RenderFrame s u
  words : ∀ i j, InDst s.view i j → OldOrOred s u b i j
  untainted : u.run.tainted = []

theorem Rendered.fork (h : RenderPremise s) (b : BReg) : Rendered s b (s.fork b) :=
  ⟨⟨⟨fun _ => rfl, fun _ => rfl, fun _ => rfl, fun _ => rfl⟩, rfl, rfl, rfl, rfl, rfl, rfl, fun _ _ => rfl⟩,
    fun _ _ _ => .inl rfl, h.undisturbed.2⟩

/-- The frame speaks of the registers, DONE, the host's side and memory. -/
theorem Rendered.congr (h : Rendered s b u) (hf : FilesSame u t) (hv : t.view = u.view)
    (hk : t.ie = u.ie ∧ t.status.done = u.status.done ∧ t.platform = u.platform ∧ t.inbox = u.inbox ∧
      t.hostData = u.hostData) (hm : t.mem = u.mem) (hr : t.run = u.run) : Rendered s b t := by
  obtain ⟨hie, hdone, hplat, hin, hdata⟩ := hk
  have fr := h.frame
  refine ⟨⟨⟨fun x => (hf.f x).trans (fr.files.f x), fun x => (hf.z x).trans (fr.files.z x),
    fun x => (hf.m x).trans (fr.files.m x), fun x => (hf.bl x).trans (fr.files.bl x)⟩, hv.trans fr.view,
    hie.trans fr.ie, hdone.trans fr.doneBit, hplat.trans fr.platform, hin.trans fr.inbox, hdata.trans fr.hostData,
    hm ▸ fr.outside⟩, ?_, hr ▸ h.untainted⟩
  intro i j hij
  rw [OldOrOred, hm]
  exact h.words i j hij

theorem Rendered.of_sameBlock (h : Rendered s b u) (hb : SameBlock u t) (hm : t.mem = u.mem) (hr : t.run = u.run) :
    Rendered s b t :=
  h.congr hb.files hb.view ⟨hb.ie, congrArg Status.done hb.status, hb.platform, hb.inbox, hb.hostData⟩ hm hr

/-- The flags and the next `pc` that a join leaves are not in the frame (45_render.md R246). -/
theorem Rendered.advance (h : Rendered s b u) (x : Flags) : Rendered s b (u.addFlags x).advance :=
  h.congr ⟨fun _ => rfl, fun _ => rfl, fun _ => rfl, fun _ => rfl⟩ rfl ⟨rfl, rfl, rfl, rfl, rfl⟩ rfl rfl

/-- Nor is what the fault entry writes (60_exceptions.md R285). -/
theorem Rendered.takeFault (h : Rendered s b u) (x : Flags) (c : Cause) :
    Rendered s b ((u.addFlags x).takeFault c) :=
  h.congr ⟨fun _ => rfl, fun _ => rfl, fun _ => rfl, fun _ => rfl⟩ rfl ⟨rfl, rfl, rfl, rfl, rfl⟩ rfl rfl

theorem RunLog.add_untainted {l : RunLog} (es : List Transfer) (h : l.tainted = []) : (l.add es).tainted = [] := by
  rw [RunLog.add, h]
  exact spread_nil es

/-- Where nothing has raced and the overlap premise holds, a pixel ORs its value into its word (R247). -/
theorem pixelMem_eq_orWord (p : PixelStep) (ho : r.overlap = false) (h : u.run.tainted = []) :
    pixelMem r u p = orWord u.mem p.addr p.value := by
  simp [pixelMem, pixelRaced, ho, h]

/-- The `MemOr` of one pixel: its word is then `old | p`, and the others stay. -/
theorem OldOrOred.orWord (hs : RenderPremise s) {i j i' j' : Nat} (hij : InDst s.view i j)
    (hij' : InDst s.view i' j') (h : OldOrOred s u b i j)
    (hm : t.mem = orWord u.mem (dstAddr s.view i' j') (pixelAt s b i' j')) : OldOrOred s t b i j := by
  unfold OldOrOred at h ⊢
  rw [hm]
  by_cases e : dstAddr s.view i j = dstAddr s.view i' j'
  · obtain ⟨rfl, rfl⟩ := dstAddr_inj hs.dstOk hij hij' e
    rw [readWord_orWord_self]
    obtain h | h := h
    · exact .inr (by rw [h])
    · exact .inr (by rw [h, BitVec.or_assoc, BitVec.or_self])
  · rwa [readWord_orWord_ne _ _ (aligned_dstAddr hs.dstAligned _ _) (aligned_dstAddr hs.dstAligned _ _) e]

/-- A worker's move keeps it, wherever in the destination the worker stands. -/
theorem Rendered.moved (h : Rendered s b u) (hs : RenderPremise s) (hslot : r.slot = b) (ho : r.overlap = false)
    (hin : WorkersInside s.view r.workers) (hm : Moved r u t) : Rendered s b t := by
  have hb := hm.sameBlock
  cases hm with
  | idle => exact h
  | stops => exact h.of_sameBlock hb rfl rfl
  | error => exact h.of_sameBlock hb rfl rfl
  | pixel k x hk =>
    obtain ⟨hrow, hend, hcol⟩ := hin x (List.mem_of_getElem? hk)
    have hij : InDst s.view x.col x.row := ⟨hcol, by omega⟩
    have hmem : pixelMem r u (pixelStep u r.slot x.col x.row) =
        orWord u.mem (dstAddr s.view x.col x.row) (pixelAt s b x.col x.row) := by
      rw [pixelMem_eq_orWord _ ho h.untainted, hslot, pixelStep_of_frame hs h.frame]
      rfl
    have fr := h.frame
    refine ⟨⟨⟨fr.files.f, fr.files.z, fr.files.m, fr.files.bl⟩, fr.view, fr.ie, fr.doneBit, fr.platform, fr.inbox,
      fr.hostData, fun a ha => ?_⟩, fun i j hi => (h.words i j hi).orWord hs hi hij hmem,
      RunLog.add_untainted _ h.untainted⟩
    show readByte (pixelMem r u _) a = _
    rw [hmem, readByte_orWord_outside _ _ _ (ha _ _ hij)]
    exact fr.outside a ha

/-! ## How far a RENDER has come -/

/-- A move that leaves the RENDER unbroken has done one of the pixels still to do. -/
theorem Moved.pixels (h : Moved r u t) (hr : u.rendering = some r) (hne : r.workers ≠ [])
    (hin : WorkersInside u.view r.workers) (hq : t.rendering = some q) (hb : q.broken = false) :
    r.broken = false ∧ ∃ p, (r.workers.flatMap (workerPixels u.view.dstW.toNat)).Perm
      (p :: q.workers.flatMap (workerPixels u.view.dstW.toNat)) := by
  cases h with
  | idle h => exact absurd h hne
  | stops k x hk h => cases hq; exact absurd (h.symm.trans hb) Bool.noConfusion
  | error => cases hq; exact absurd hb Bool.noConfusion
  | pixel k x hk =>
    cases hq
    obtain ⟨hrow, -, hcol⟩ := hin x (List.mem_of_getElem? hk)
    exact ⟨hb, _, putWorker_pixels hk hrow hcol⟩

/-- `r` is the RENDER of slot `b` that `s` forks, after `k` steps: it has live workers inside the destination, and
unless it is broken each step has done one pixel. -/
structure Underway (s : State) (b : BReg) (k : Nat) (r : Rendering) : Prop where
  slot : r.slot = b
  overlap : r.overlap = false
  live : r.workers ≠ []
  inside : WorkersInside s.view r.workers
  left : r.broken = false →
    (r.workers.flatMap (workerPixels s.view.dstW.toNat)).length + k = dstWords s.view

/-- How far the RENDER that `s` forks has come after `k` steps: it runs, or it is over, by a fault or with all its
pixels done. -/
inductive RenderPhase (s : State) (b : BReg) (k : Nat) (u : State) : Prop where
  | running (r : Rendering) (hr : u.rendering = some r) (hbusy : u.status.busy = true) (hway : Underway s b k r)
  | ended (hr : u.rendering = none) (hend : u.status.busy = false ∨ dstWords s.view ≤ k)

theorem RenderPhase.fork (h : RenderPremise s) (b : BReg) : RenderPhase s b 0 (s.fork b) := by
  have hc : renderCheck s.view = none :=
    (renderCheck_none s.view).mpr ⟨h.srcOk, h.dstOk, h.srcAligned, h.dstAligned⟩
  have hok := forkRender_ok b hc h.workers
  have hpos : 0 < s.platform.numWorkers.toNat := Nat.pos_of_ne_zero fun e => h.workers (BitVec.eq_of_toNat_eq e)
  refine .running (forkRender b s) rfl h.busy ⟨rfl,
    (overlapBroken_false h.dstOk h.srcAligned h.dstAligned h.startAligned).mpr h.noOverlap, hok.someLive, hok.inside,
    fun _ => ?_⟩
  rw [forkRender, forkWorkers_pixels hpos, length_rowPixels]
  exact Nat.mul_comm _ _

theorem workerStep_next (r : Rendering) (s : State) : ∃ t, workerStep r s = .next t := by
  unfold workerStep joinWhenDone
  split
  · exact ⟨_, rfl⟩
  · rename_i q _
    split
    · obtain ⟨-, e⟩ | ⟨-, e⟩ := join_cases q { moveWorker r s with freeCount := s.freeCount + 1 } <;> exact ⟨_, e⟩
    · exact ⟨_, rfl⟩

/-- One step of a running RENDER: a pixel, a worker that stops, or the join. -/
theorem Rendered.workerStep {k : Nat} (h : Rendered s b u) (hs : RenderPremise s) (hr : u.rendering = some r)
    (hbusy : u.status.busy = true) (hway : Underway s b k r) (ht : workerStep r u = .next t) :
    Rendered s b t ∧ RenderPhase s b (k + 1) t := by
  obtain ⟨hslot, ho, hlive, hin, hleft⟩ := hway
  obtain ⟨v, hm, hv⟩ := workerStep_cases ht
  have hin' : WorkersInside u.view r.workers := h.frame.view.symm ▸ hin
  obtain ⟨q, hq, hqslot, hqo, hqin⟩ := hm.rendering hr hin'
  rw [h.frame.view] at hqin
  have hbusy' : v.status.busy = true := by rw [hm.sameBlock.status, hbusy]
  have hmoved : Rendered s b { v with freeCount := u.freeCount + 1 } :=
    (h.moved hs hslot ho hin hm).of_sameBlock ((SameBlock.refl v).withFreeCount _) rfl rfl
  have hqleft (hb : q.broken = false) :
      (q.workers.flatMap (workerPixels s.view.dstW.toNat)).length + (k + 1) = dstWords s.view := by
    obtain ⟨hrb, p, hperm⟩ := hm.pixels hr hlive hin' hq hb
    have hlen := hperm.length_eq
    rw [h.frame.view, List.length_cons] at hlen
    have := hleft hrb
    omega
  obtain ⟨rfl, hvlive⟩ | ⟨p, hp, hnil, hj⟩ := hv
  · exact ⟨hmoved, .running q hq hbusy' ⟨hqslot.trans hslot, hqo.trans ho, hvlive q hq, hqin, hqleft⟩⟩
  · obtain rfl : q = p := Option.some.inj (hq.symm.trans hp)
    have hend := hmoved.of_sameBlock (endRender_sameBlock _ q) (endRender_mem (hqo.trans ho)) rfl
    obtain ⟨-, e⟩ | ⟨hb, e⟩ := join_cases q { v with freeCount := u.freeCount + 1 } <;> rw [e] at hj <;> cases hj
    · exact ⟨hend.takeFault _ _, .ended rfl (.inl rfl)⟩
    · have hall := hqleft hb
      rw [hnil] at hall
      exact ⟨hend.advance _, .ended rfl (.inr (hall.symm.trans_le (by simp)))⟩

/-- One step of the machine in a RENDER whose pixels are not all done. -/
theorem Rendered.step {k : Nat} (h : Rendered s b u) (hs : RenderPremise s) (hp : RenderPhase s b k u)
    (hk : k < dstWords s.view) : ∃ t, step u = .next t ∧ Rendered s b t ∧ RenderPhase s b (k + 1) t := by
  have hi : u.inbox = [] := h.frame.inbox.trans hs.inbox
  cases hp with
  | running r hr hbusy hway =>
    obtain ⟨t, ht⟩ := workerStep_next r u
    exact ⟨t, (step_worker hi hbusy hr).trans ht, h.workerStep hs hr hbusy hway ht⟩
  | ended hr hend =>
    have hidle : u.status.busy = false := hend.resolve_right (by omega)
    refine ⟨u, ?_, h, .ended hr (.inl hidle)⟩
    rw [step_block hi]
    simp only [blockMove, hidle, Bool.false_eq_true, if_false]

/-- The first steps of a RENDER, up to the number of its pixels. -/
theorem Rendered.steps (hs : RenderPremise s) (n : Nat) {k : Nat} (h : Rendered s b u) (hp : RenderPhase s b k u)
    (hk : k + n ≤ dstWords s.view) :
    ∃ t, steps n u = .next t ∧ Rendered s b t ∧ RenderPhase s b (k + n) t := by
  induction n generalizing k u with
  | zero => exact ⟨u, rfl, h, hp⟩
  | succ n ih =>
    obtain ⟨t, ht, hdone, hphase⟩ := h.step hs hp (by omega)
    obtain ⟨v, hv, hend⟩ := ih hdone hphase (by omega)
    refine ⟨v, ?_, by rwa [show k + (n + 1) = k + 1 + n by omega]⟩
    simp only [Machine.steps, ht]
    exact hv

/-! ## Reset (10_state.md R45, 70_reset_and_hazards.md R320, R321) -/

theorem step_reset {rest : List HostOp} (h : s.inbox = .reset :: rest) :
    step s = .next (hostReset { s with inbox := rest }) := step_host h nofun

/-- The reset input gives everything in the block its reset value. -/
theorem hostReset_afterReset (s : State) : ∃ u, hostReset s = State.afterReset u := by
  unfold hostReset
  split <;> exact ⟨_, rfl⟩

theorem getF_afterReset (s : State) (x : FReg) : s.afterReset.getF x = 0#32 := by
  simp [State.getF, State.afterReset, State.reset]

theorem getZ_afterReset (s : State) (x : ZReg) : s.afterReset.getZ x = .zero := by
  simp [State.getZ, State.afterReset, State.reset]

theorem getM_afterReset (s : State) (x : MReg) : s.afterReset.getM x = .identity := by
  simp [State.getM, State.afterReset, State.reset]

theorem getB_afterReset (s : State) (x : BReg) : s.afterReset.getB x = .empty := getB_reset x

theorem factor_empty (k : Fin 6) : Slot.empty.factor[k] = .identity := by simp [Slot.empty]

theorem hostReset_outside {x : Nat} (h : OutsideDst s.view x) :
    readByte (hostReset s).mem x = readByte s.mem x := by
  unfold hostReset
  split
  · rfl
  · exact endRender_outside _ h

theorem hostReset_mem (h : ∀ r, s.rendering = some r → r.overlap = false) : (hostReset s).mem = s.mem := by
  unfold hostReset
  split
  · rfl
  · rename_i r hr
    exact endRender_mem (h r hr)

/-- In every phase of a RENDER under the overlap premise the reset input leaves memory as it is. -/
theorem RenderPhase.overlap_false {k : Nat} (h : RenderPhase s b k u) :
    ∀ r, u.rendering = some r → r.overlap = false := by
  intro q hq
  cases h with
  | running r hr _ hway => obtain rfl : r = q := Option.some.inj (hr.symm.trans hq); exact hway.overlap
  | ended hr => exact nomatch hr.symm.trans hq

/-- Settles O17: the reset values are `State.reset`'s; memory stays but for an overlapping RENDER's destination, and
in a RENDER under the premise it is what `Rendered` says. -/
theorem resetValues : Obligations.ResetValues := by
  refine ⟨fun s rest hi => ?_, fun s b n hs hn => ?_⟩
  · refine ⟨_, step_reset hi, ?_⟩
    have hout {x : Nat} (h : OutsideDst s.view x) := hostReset_outside (s := { s with inbox := rest }) h
    have hmem := hostReset_mem (s := { s with inbox := rest })
    obtain ⟨u, e⟩ := hostReset_afterReset { s with inbox := rest }
    rw [e] at hmem ⊢
    refine ⟨getF_afterReset u, getZ_afterReset u, getM_afterReset u, fun x => ?_, rfl, rfl, rfl, rfl, rfl, rfl, rfl, rfl,
      rfl, rfl, rfl, rfl, rfl, rfl, rfl, rfl, rfl, rfl, rfl, rfl, rfl, rfl, rfl, rfl, fun x hx => e ▸ hout hx, hmem⟩
    rw [getB_afterReset]
    exact ⟨rfl, factor_empty, rfl⟩
  · obtain ⟨u, hu, hdone, hphase⟩ := (Rendered.fork hs b).steps hs n (RenderPhase.fork hs b) (by omega)
    have hmem := hostReset_mem (s := { u with inbox := [] }) hphase.overlap_false
    refine ⟨u, _, hu, step_reset rfl, fun i j hij => ?_, fun x hx => ?_⟩
    · have := hdone.words i j hij
      rwa [OldOrOred, ← hmem] at this
    · exact (congrArg (readByte · x) hmem).trans (hdone.frame.outside x hx)

end Sys2Proof.Machine
end

section
/-! PROOFS. Memory as data and as words: the canonical form is one form (20_memory.md R60), the bytes of a word at an
aligned address, and LD.W and PX.ORW (R62 to R65, 46_system.md R265, R267). -/

namespace Sys2Proof.Machine

/-! ## The canonical form is one form (20_memory.md R60) -/

/-- In the canonical form nothing is listed up to the lower bound. -/
theorem readByte_of_le_bound {m : Memory} {k a : Nat} (h : wfAbove (some k) m = true) (ha : a ≤ k) :
    readByte m a = Config.unwrittenByte := by
  induction m generalizing k with
  | nil => rfl
  | cons c m ih =>
    obtain ⟨hk, -, -, hm⟩ := (wfAbove_cons _ _ _ _).mp h
    have hlt : k < c.1 := hk
    rw [readByte, if_neg (by omega)]
    exact ih hm (by omega)

/-- The first listed address is the lowest one that does not read as unwritten. -/
theorem head_le_of_readByte_ne {lo : Option Nat} {m : Memory} {k a : Nat} {v : Byte}
    (h : wfAbove lo ((k, v) :: m) = true) (ha : readByte ((k, v) :: m) a ≠ Config.unwrittenByte) : k ≤ a := by
  obtain ⟨-, -, -, hm⟩ := (wfAbove_cons _ _ _ _).mp h
  by_contra hlt
  rw [readByte, if_neg (by omega)] at ha
  exact ha (readByte_of_le_bound hm (by omega))

theorem readByte_head (k : Nat) (v : Byte) (m : Memory) : readByte ((k, v) :: m) k = v := if_pos rfl

theorem readByte_tail {k a : Nat} (v : Byte) (m : Memory) (h : k ≠ a) : readByte ((k, v) :: m) a = readByte m a :=
  if_neg h

theorem eq_of_readByte_eq {lo lo' : Option Nat} {m n : Memory} (hm : wfAbove lo m = true)
    (hn : wfAbove lo' n = true) (h : ∀ a, readByte m a = readByte n a) : m = n := by
  induction m generalizing lo lo' n with
  | nil =>
    cases n with
    | nil => rfl
    | cons d n =>
      obtain ⟨-, -, hv, -⟩ := (wfAbove_cons _ _ _ _).mp hn
      exact absurd ((readByte_head d.1 d.2 n).symm.trans (h d.1).symm) hv
  | cons c m ih =>
    obtain ⟨k, v⟩ := c
    obtain ⟨-, -, hv, hm'⟩ := (wfAbove_cons _ _ _ _).mp hm
    cases n with
    | nil => exact absurd ((readByte_head k v m).symm.trans (h k)) hv
    | cons d n =>
      obtain ⟨k', v'⟩ := d
      obtain ⟨-, -, hv', hn'⟩ := (wfAbove_cons _ _ _ _).mp hn
      have hle : k' ≤ k := head_le_of_readByte_ne hn (by rwa [← h, readByte_head])
      have hge : k ≤ k' := head_le_of_readByte_ne hm (by rwa [h, readByte_head])
      obtain rfl : k = k' := Nat.le_antisymm hge hle
      obtain rfl : v = v' := by rw [← readByte_head k v m, h, readByte_head]
      refine congrArg _ (ih hm' hn' fun a => ?_)
      rcases Nat.lt_or_ge k a with hlt | hle
      · rw [← readByte_tail v m hlt.ne, h, readByte_tail v n hlt.ne]
      · rw [readByte_of_le_bound hm' hle, readByte_of_le_bound hn' hle]

/-- Settles O18: the heads are the lowest written addresses, and the tails read alike too. -/
theorem memoriesThatReadAlikeAreEqual : Obligations.MemoriesThatReadAlikeAreEqual :=
  fun _ _ hm hn h => eq_of_readByte_eq hm hn h

/-! ## The bytes of a word (20_memory.md R62) -/

/-- Words that read alike have bytes that read alike. -/
theorem readByte_eq_of_readWord_eq {m n : Memory} {a : Word} (h : readWord m a = readWord n a) :
    ∀ x ∈ wordBytes a, readByte m x = readByte n x := by
  have byte {k : Nat} (hk : k < 4) :
      readByte m (a + BitVec.ofNat 32 k).toNat = readByte n (a + BitVec.ofNat 32 k).toNat := by
    rw [← byteOfWord_readWord m a hk, h, byteOfWord_readWord n a hk]
  have byte0 := byte (k := 0) (by decide)
  rw [BitVec.add_zero] at byte0
  simp only [wordBytes, List.forall_mem_cons]
  exact ⟨byte0, byte (k := 1) (by decide), byte (k := 2) (by decide), byte (k := 3) (by decide), nofun⟩

/-- The bytes of an aligned word do not wrap. -/
theorem wordBytes_of_aligned {a : Word} (h : aligned a = true) :
    wordBytes a = [a.toNat, a.toNat + 1, a.toNat + 2, a.toNat + 3] := by
  rw [aligned_iff] at h
  have ha := a.isLt
  have next {k : Nat} (hk : k < 4) : (a + BitVec.ofNat 32 k).toNat = a.toNat + k := by
    rw [BitVec.toNat_add, BitVec.toNat_ofNat]; omega
  rw [wordBytes, next (k := 1) (by decide), next (k := 2) (by decide), next (k := 3) (by decide)]

theorem readWord_of_aligned (m : Memory) {a : Word} (h : aligned a = true) : readWord m a =
    readByte m (a.toNat + 3) ++ readByte m (a.toNat + 2) ++ readByte m (a.toNat + 1) ++ readByte m a.toNat := by
  have e := wordBytes_of_aligned h
  simp only [wordBytes, List.cons.injEq, true_and, and_true] at e
  obtain ⟨e1, e2, e3⟩ := e
  rw [readWord, e1, e2, e3, wordOfBytes]

/-! ## LD.W and PX.ORW (46_system.md R265, R267) -/

variable {s : State} {fd fv fa : FReg}

theorem accessCheck_misaligned {a : Word} (h : aligned a = false) : accessCheck s a = some .misaligned := by
  simp [accessCheck, h]

theorem accessCheck_busError {a : Word} (h : aligned a = true) (ha : memAdmit s.platform a = false) :
    accessCheck s a = some .busError := by
  simp [accessCheck, h, ha]

theorem execLdW_fault {c : Cause} (h : accessCheck s (s.getF fa) = some c) :
    exec (.ldW fd fa) s = faulted s c := by
  simp only [exec, execLdW, h]

theorem execPxOrw_fault {c : Cause} (h : accessCheck s (s.getF fa) = some c) :
    exec (.pxOrw fv fa) s = faulted s c := by
  simp only [exec, execPxOrw, h]

theorem execLdW_ok (h : accessCheck s (s.getF fa) = none) :
    exec (.ldW fd fa) s = doneF s fd (plain (readWord s.mem (s.getF fa))) := by
  simp only [exec, execLdW, h]

theorem execPxOrw_ok (h : accessCheck s (s.getF fa) = none) :
    exec (.pxOrw fv fa) s = .next (s.setMem (orWord s.mem (s.getF fa) (s.getF fv))).advance := by
  simp only [exec, execPxOrw, h, complete]

/-- Both commands take the fault of their address. -/
theorem ldW_pxOrw_fault {c : Cause} (h : accessCheck s (s.getF fa) = some c) :
    Faults (.ldW fd fa) s (causeCode c) ∧ Faults (.pxOrw fv fa) s (causeCode c) :=
  ⟨faults_of_faulted (execLdW_fault h), faults_of_faulted (execPxOrw_fault h)⟩

/-- Settles O56: the check of the address decides, and at an aligned one the word is its four bytes. -/
theorem loadWordAndOrWord : Obligations.LoadWordAndOrWord := by
  intro s fd fv fa a old
  have onWord (h : a % 4 = 0) : aligned (s.getF fa) = true := (aligned_iff _).mpr h
  refine ⟨fun h4 hadm => ?_, fun h4 => ?_, fun h4 hadm => ?_⟩
  · have hal := onWord h4
    have hcheck := accessCheck_none.mpr ⟨hal, hadm⟩
    have hold : old = readWord s.mem (s.getF fa) := (readWord_of_aligned _ hal).symm
    refine ⟨hold ▸ completesF_of_doneF (execLdW_ok hcheck), _, execPxOrw_ok hcheck, ?_, fun x hx => ?_,
      ⟨fun _ => rfl, fun _ => rfl, fun _ => rfl, fun _ => rfl⟩, rfl,
      ⟨(Bool.or_false _).symm, (Bool.or_false _).symm⟩, rfl,
      ⟨rfl, rfl, rfl, rfl, rfl, rfl, rfl, rfl, rfl, rfl, rfl, rfl⟩⟩
    · rw [hold, ← readWord_orWord_self]
      exact (readWord_of_aligned _ hal).symm
    · refine readByte_orWord_outside _ _ _ ?_
      simp only [wordBytes_of_aligned hal, List.mem_cons, List.not_mem_nil, or_false]
      omega
  · exact ldW_pxOrw_fault (accessCheck_misaligned (Bool.eq_false_iff.mpr fun h => h4 ((aligned_iff _).mp h)))
  · exact ldW_pxOrw_fault (accessCheck_busError (onWord h4) hadm)

end Sys2Proof.Machine
end

section
/-! PROOFS. The pixel steps of a destination in any order (45_render.md R250, 20_memory.md R71): which pixels they
are, that their words are distinct and none of the source, and what their `MemOr`s and flags come to. -/

namespace Sys2Proof.Machine

variable {s : State} {b : BReg} {p : PixelStep} {ps qs : List PixelStep}

/-! ## The pixels of the destination (45_render.md R241) -/

theorem mem_rowPixels {w h i j : Nat} : (i, j) ∈ rowPixels w 0 h ↔ i < w ∧ j < h := by
  simp [rowPixels, and_comm]

theorem nodup_rowPixels (w h : Nat) : (rowPixels w 0 h).Nodup := by
  have row (r : Nat) : ((List.range w).map fun i => (i, 0 + r)).Nodup :=
    List.nodup_range.map fun _ _ e => congrArg Prod.fst e
  refine List.nodup_flatMap.mpr ⟨fun r _ => row r, List.nodup_range.imp fun {r r'} hne => ?_⟩
  rw [Function.onFun, List.disjoint_left]
  simp only [List.mem_map]
  rintro _ ⟨i, -, rfl⟩ ⟨i', -, e⟩
  have := congrArg Prod.snd e
  simp only at this
  omega

/-- The pixels of the destination, row by row. -/
def dstPixels (v : View) : List (Nat × Nat) := rowPixels v.dstW.toNat 0 v.dstH.toNat

theorem mem_dstPixels {v : View} {i j : Nat} : (i, j) ∈ dstPixels v ↔ InDst v i j := mem_rowPixels

theorem length_dstPixels (v : View) : (dstPixels v).length = dstWords v :=
  (length_rowPixels _ _ _).trans (Nat.mul_comm _ _)

/-- The step of a pixel given as a pair (column, row). -/
def stepOf (s : State) (b : BReg) (x : Nat × Nat) : PixelStep := pixelStep s b x.1 x.2

theorem dstSteps_eq (s : State) (b : BReg) : dstSteps s b = (dstPixels s.view).map (stepOf s b) := by
  simp only [dstSteps, dstPixels, rowPixels, Nat.zero_add]
  rfl

theorem mem_dstSteps : p ∈ dstSteps s b ↔ ∃ i j, InDst s.view i j ∧ p = pixelStep s b i j := by
  simp only [dstSteps_eq, List.mem_map, Prod.exists, mem_dstPixels, stepOf, eq_comm]

/-- Every step writes an aligned word of the destination. -/
theorem dstSteps_aligned (h : RenderPremise s) : ∀ p ∈ dstSteps s b, aligned p.addr = true := by
  intro p hp
  obtain ⟨i, j, -, rfl⟩ := mem_dstSteps.mp hp
  exact aligned_dstAddr h.dstAligned i j

/-- Different steps write different words. -/
theorem dstSteps_nodup (h : RenderPremise s) : ((dstSteps s b).map (·.addr)).Nodup := by
  rw [dstSteps_eq, List.map_map]
  refine (nodup_rowPixels _ _).map_on ?_
  rintro ⟨i, j⟩ hij ⟨i', j'⟩ hij' e
  obtain ⟨rfl, rfl⟩ := dstAddr_inj h.dstOk (mem_dstPixels.mp hij) (mem_dstPixels.mp hij') e
  rfl

/-! ## Their flags (45_render.md R249) -/

theorem renderFlags_ov (ps : List PixelStep) : (renderFlags ps).ov = ps.any (·.flags.ov) := by
  rw [renderFlags, Flags.all_ov, List.any_map]
  rfl

theorem renderFlags_dz (ps : List PixelStep) : (renderFlags ps).dz = ps.any (·.flags.dz) := by
  rw [renderFlags, Flags.all_dz, List.any_map]
  rfl

theorem Flags.eq_of {x y : Flags} (hov : x.ov = y.ov) (hdz : x.dz = y.dz) : x = y := by
  cases x; cases y; cases hov; cases hdz; rfl

theorem renderFlags_perm (h : qs.Perm ps) : renderFlags qs = renderFlags ps :=
  Flags.eq_of (by rw [renderFlags_ov, renderFlags_ov, h.any_eq]) (by rw [renderFlags_dz, renderFlags_dz, h.any_eq])

theorem renderFlags_concat (ps : List PixelStep) (p : PixelStep) :
    renderFlags (ps ++ [p]) = (renderFlags ps).or p.flags :=
  Flags.eq_of (by simp [renderFlags_ov]) (by simp [renderFlags_dz])

theorem dstSteps_ov : (renderFlags (dstSteps s b)).ov = true ↔
    ∃ i j, InDst s.view i j ∧ (pixelFlags s b i j).ov = true := by
  simp only [renderFlags_ov, dstSteps_eq, List.any_map, List.any_eq_true, Prod.exists, mem_dstPixels]
  rfl

theorem dstSteps_dz : (renderFlags (dstSteps s b)).dz = true ↔
    ∃ i j, InDst s.view i j ∧ (pixelFlags s b i j).dz = true := by
  simp only [renderFlags_dz, dstSteps_eq, List.any_map, List.any_eq_true, Prod.exists, mem_dstPixels]
  rfl

/-! ## Their `MemOr`s (45_render.md R247) -/

theorem orPixels_concat (m : Memory) (ps : List PixelStep) (p : PixelStep) :
    orPixels m (ps ++ [p]) = orWord (orPixels m ps) p.addr p.value := List.foldl_concat ..

/-- The `MemOr`s of distinct aligned words come to the same memory in any order: each word is ORed with its own
value, and every other byte stays. -/
theorem readByte_orPixels_perm {m : Memory} (h : qs.Perm ps) (hal : ∀ p ∈ ps, aligned p.addr = true)
    (hd : (ps.map (·.addr)).Nodup) (x : Nat) : readByte (orPixels m qs) x = readByte (orPixels m ps) x := by
  by_cases hx : ∃ p ∈ ps, x ∈ wordBytes p.addr
  · obtain ⟨p, hp, hx⟩ := hx
    have hword : readWord (orPixels m qs) p.addr = readWord (orPixels m ps) p.addr := by
      rw [readWord_orPixels hal hd hp, readWord_orPixels (fun q hq => hal q (h.mem_iff.mp hq))
        ((h.map _).nodup_iff.mpr hd) (h.mem_iff.mpr hp)]
    exact readByte_eq_of_readWord_eq hword x hx
  · have hout : ∀ p ∈ ps, x ∉ wordBytes p.addr := fun p hp hxp => hx ⟨p, hp, hxp⟩
    rw [readByte_orPixels_outside hout, readByte_orPixels_outside fun q hq => hout q (h.mem_iff.mp hq)]

/-- Under the overlap premise no `MemOr` changes what a sample reads (20_memory.md R71, R76). -/
theorem pxSample_orPixels (h : RenderPremise s) (hqs : ∀ p ∈ qs, p ∈ dstSteps s b) (w : Cx) :
    pxSample (orPixels s.mem qs) s.view w = pxSample s.mem s.view w := by
  refine pxSample_congr fun a ha => ?_
  obtain ⟨k, hk, rfl⟩ := sampleAddrs_source h.srcOk w a ha
  refine readWord_congr fun x hx => readByte_orPixels_outside fun p hp => ?_
  obtain ⟨i, j, hij, rfl⟩ := mem_dstSteps.mp (hqs p hp)
  exact h.source_outside hk x hx i j hij

/-- Settles O50: the words of the steps are distinct and none of the source. -/
theorem renderOrderIsNotObservable : Obligations.RenderOrderIsNotObservable := fun _ _ hs _ =>
  ⟨fun hperm => ⟨readByte_orPixels_perm hperm (dstSteps_aligned hs) (dstSteps_nodup hs), renderFlags_perm hperm⟩,
    pxSample_orPixels hs⟩

end Sys2Proof.Machine
end

section
/-! PROOFS. A RENDER whose accesses are all admitted, under the overlap premise: after `k` steps `k` pixels are done, in
some order, and after the last one it has completed; what it leaves is the same in every order and for every number of
workers (45_render.md R246 to R250, 70_reset_and_hazards.md R330). -/

namespace Sys2Proof.Machine

variable {s t u : State} {b : BReg} {r q : Rendering} {ps : List (Nat × Nat)}

/-! ## The pixels done so far -/

/-- `u` is a state of the RENDER `r` of slot `b` that `s` forks, in which the pixels `ps` are done, in this order, and
the others are still to do. -/
structure Drawn (s : State) (b : BReg) (ps : List (Nat × Nat)) (u : State) (r : Rendering) : Prop where
  rendered : Rendered s b u
  block : SameBlock s u
  mem : u.mem = orPixels s.mem (ps.map (stepOf s b))
  rendering : u.rendering = some r
  slot : r.slot = b
  overlap : r.overlap = false
  unbroken : r.broken = false
  flags : r.flags = renderFlags (ps.map (stepOf s b))
  inside : WorkersInside s.view r.workers
  pixels : (ps ++ r.workers.flatMap (workerPixels s.view.dstW.toNat)).Perm (dstPixels s.view)

theorem RenderPremise.checked (h : RenderPremise s) : renderCheck s.view = none :=
  (renderCheck_none s.view).mpr ⟨h.srcOk, h.dstOk, h.srcAligned, h.dstAligned⟩

theorem Drawn.fork (h : RenderPremise s) (b : BReg) : Drawn s b [] (s.fork b) (forkRender b s) := by
  have hpos : 0 < s.platform.numWorkers.toNat := Nat.pos_of_ne_zero fun e => h.workers (BitVec.eq_of_toNat_eq e)
  exact ⟨.fork h b, ⟨rfl, rfl, rfl, rfl, rfl, rfl, rfl, rfl, rfl, rfl, rfl, rfl⟩, rfl, rfl, rfl,
    (overlapBroken_false h.dstOk h.srcAligned h.dstAligned h.startAligned).mpr h.noOverlap, rfl, rfl,
    (forkRender_ok b h.checked h.workers).inside, .of_eq (forkWorkers_pixels hpos _ _)⟩

theorem Drawn.withFreeCount (h : Drawn s b ps u r) (n : Nat) : Drawn s b ps { u with freeCount := n } r :=
  ⟨h.rendered.of_sameBlock ((SameBlock.refl u).withFreeCount n) rfl rfl, h.block.withFreeCount n, h.mem, h.rendering,
    h.slot, h.overlap, h.unbroken, h.flags, h.inside, h.pixels⟩

/-- While a worker is live there are pixels to do, and only then. -/
theorem Drawn.live_iff (h : Drawn s b ps u r) : r.workers ≠ [] ↔ ps.length < dstWords s.view := by
  have hlen := h.pixels.length_eq
  rw [List.length_append, length_dstPixels] at hlen
  cases hw : r.workers with
  | nil =>
    rw [hw, List.flatMap_nil, List.length_nil] at hlen
    exact iff_of_false (fun hne => hne rfl) (by omega)
  | cons x ws =>
    obtain ⟨hrow, -, hcol⟩ := h.inside x (by simp [hw])
    rw [hw, List.flatMap_cons, workerPixels_next hrow hcol] at hlen
    rw [List.cons_append, List.length_cons] at hlen
    exact iff_of_true (List.cons_ne_nil x ws) (by omega)

/-- A worker's move does one more pixel: none stops, since no access fails. -/
theorem Drawn.moved (h : Drawn s b ps u r) (hs : RenderPremise s) (ha : AllAdmitted s b) (hlive : r.workers ≠ [])
    (hm : Moved r u t) : ∃ x q, Drawn s b (ps ++ [x]) t q := by
  have hrendered := h.rendered.moved hs h.slot h.overlap h.inside hm
  have hblock := h.block.trans hm.sameBlock
  have stepAt (x : Worker) : pixelStep u r.slot x.col x.row = stepOf s b (x.col, x.row) := by
    rw [h.slot]; exact pixelStep_of_frame hs h.rendered.frame x.col x.row
  have inDst {k : Nat} {x : Worker} (hk : r.workers[k]? = some x) : InDst s.view x.col x.row := by
    obtain ⟨hrow, hend, hcol⟩ := h.inside x (List.mem_of_getElem? hk)
    exact ⟨hcol, by omega⟩
  cases hm with
  | idle hnil => exact absurd hnil hlive
  | stops k x hk hb => exact absurd (h.unbroken.symm.trans hb) Bool.false_ne_true
  | error k x flags hk hfail =>
    obtain ⟨hreads, hwrite⟩ := ha _ _ (inDst hk)
    rw [stepAt] at hfail
    exact absurd (hfail.symm.trans (Bool.and_eq_true_iff.mpr ⟨hreads, hwrite⟩)) Bool.false_ne_true
  | pixel k x hk =>
    have hx := List.mem_of_getElem? hk
    obtain ⟨hrow, -, hcol⟩ := h.inside x hx
    refine ⟨(x.col, x.row), _, hrendered, hblock, ?_, rfl, h.slot, h.overlap, h.unbroken, ?_,
      h.block.view ▸ h.inside.putWorker hx, ?_⟩
    · rw [List.map_append, List.map_singleton, orPixels_concat, ← h.mem, ← stepAt]
      exact pixelMem_eq_orWord _ h.overlap h.rendered.untainted
    · rw [List.map_append, List.map_singleton, renderFlags_concat, ← h.flags, ← stepAt]
      simp [Rendering.collect, h.unbroken]
    · rw [h.block.view, List.append_assoc, List.singleton_append]
      exact ((putWorker_pixels hk hrow hcol).symm.append_left ps).trans h.pixels

/-! ## The end of the RENDER -/

/-- `t` is what the RENDER of slot `b` that `s` forks leaves when it completes, in no order of its pixels: `pc` and the
sticky flags moved on, and memory with the `MemOr` of every pixel (45_render.md R246, R249). -/
structure RenderLeaves (s : State) (b : BReg) (t : State) : Prop where
  frame : RenderFrame s t
  mem : ∀ x, readByte t.mem x = readByte (orPixels s.mem (dstSteps s b)) x
  status : t.status = (s.addFlags (renderFlags (dstSteps s b))).status
  pc : t.pc = s.pc + 4#32
  errpc : t.errpc = s.errpc
  rendering : t.rendering = none

/-- The join after the last pixel. -/
theorem Drawn.join (h : Drawn s b ps u r) (hs : RenderPremise s) (hnil : r.workers = []) :
    ∃ t, join r u = .next t ∧ RenderLeaves s b t := by
  obtain ⟨hb, -⟩ | ⟨-, e⟩ := join_cases r u
  · exact absurd (h.unbroken.symm.trans hb) Bool.false_ne_true
  have hperm : (ps.map (stepOf s b)).Perm (dstSteps s b) := by
    have := h.pixels
    rw [hnil, List.flatMap_nil, List.append_nil] at this
    exact dstSteps_eq s b ▸ this.map _
  have hmem := endRender_mem (s := u) h.overlap
  have hend := h.rendered.of_sameBlock (endRender_sameBlock u r) hmem rfl
  refine ⟨_, e, (hend.advance _).frame, fun x => ?_, ?_, congrArg (· + 4#32) h.block.pc, h.block.errpc, rfl⟩
  · rw [← readByte_orPixels_perm hperm (dstSteps_aligned hs) (dstSteps_nodup hs), ← h.mem]
    exact congrArg (readByte · x) hmem
  · rw [← renderFlags_perm hperm, ← h.flags]
    simp [h.block.status]

/-! ## The steps of the machine -/

/-- One step while pixels are to do: one more is done, and the last one is followed by the join. -/
theorem Drawn.step (h : Drawn s b ps u r) (hs : RenderPremise s) (ha : AllAdmitted s b)
    (hlt : ps.length < dstWords s.view) : ∃ t, step u = .next t ∧
      (ps.length + 1 < dstWords s.view ∧ (∃ x q, Drawn s b (ps ++ [x]) t q) ∨
        ps.length + 1 = dstWords s.view ∧ RenderLeaves s b t) := by
  have hlive := h.live_iff.mpr hlt
  obtain ⟨t, ht⟩ := workerStep_next r u
  refine ⟨t, (step_worker (h.block.inbox.trans hs.inbox) (h.block.status ▸ hs.busy) h.rendering).trans ht, ?_⟩
  obtain ⟨v, hm, hv⟩ := workerStep_cases ht
  obtain ⟨x, q, hq⟩ := h.moved hs ha hlive hm
  have hiff := hq.live_iff
  rw [List.length_append, List.length_singleton] at hiff
  obtain ⟨rfl, hvlive⟩ | ⟨p, hp, hnil, hj⟩ := hv
  · exact .inl ⟨hiff.mp (hvlive q hq.rendering), x, q, hq.withFreeCount _⟩
  · obtain rfl : q = p := Option.some.inj (hq.rendering.symm.trans hp)
    obtain ⟨w, hw, hleaves⟩ := (hq.withFreeCount (u.freeCount + 1)).join hs hnil
    obtain rfl : w = t := Host.Outcome.next.inj (hw.symm.trans hj)
    have hle : ¬ps.length + 1 < dstWords s.view := fun hlt => hiff.mpr hlt hnil
    exact .inr ⟨by omega, hleaves⟩

theorem steps_succ_of_steps {n : Nat} (h : steps n s = .next t) (ht : step t = .next u) :
    steps (n + 1) s = .next u := by
  induction n generalizing s with
  | zero => cases h; simp only [steps, ht]
  | succ n ih =>
    rw [steps] at h ⊢
    cases hs : step s with
    | next v => simp only [hs] at h ⊢; exact ih h
    | fault | refused => simp only [hs] at h; cases h

/-- After fewer steps than pixels, as many pixels are done. -/
theorem fork_steps_drawn (hs : RenderPremise s) (ha : AllAdmitted s b) {n : Nat} (hn : n < dstWords s.view) :
    ∃ ps u r, ps.length = n ∧ steps n (s.fork b) = .next u ∧ Drawn s b ps u r := by
  induction n with
  | zero => exact ⟨[], _, _, rfl, rfl, .fork hs b⟩
  | succ n ih =>
    obtain ⟨ps, u, r, rfl, hu, hdrawn⟩ := ih (by omega)
    obtain ⟨t, ht, ⟨-, x, q, hq⟩ | ⟨hend, -⟩⟩ := hdrawn.step hs ha (by omega)
    · exact ⟨_, t, q, by simp, steps_succ_of_steps hu ht, hq⟩
    · omega

/-- After as many steps as pixels, the RENDER has completed. -/
theorem fork_steps_leaves (hs : RenderPremise s) (ha : AllAdmitted s b) :
    ∃ t, steps (dstWords s.view) (s.fork b) = .next t ∧ RenderLeaves s b t := by
  have hpos : dstWords s.view ≠ 0 := by
    obtain ⟨⟨hw, -⟩, hh, -⟩ := (dstOk_iff s.view).mp hs.dstOk
    exact (Nat.mul_pos (by omega) (by omega)).ne'
  obtain ⟨n, hn⟩ := Nat.exists_eq_succ_of_ne_zero hpos
  obtain ⟨ps, u, r, hlen, hu, hdrawn⟩ := fork_steps_drawn hs ha (n := n) (by omega)
  obtain ⟨t, ht, ⟨hlt, -⟩ | ⟨-, hleaves⟩⟩ := hdrawn.step hs ha (by omega)
  · omega
  · exact ⟨t, hn ▸ steps_succ_of_steps hu ht, hleaves⟩

/-! ## The statements -/

/-- RENDER itself, with its checks passed, forks. -/
theorem exec_render_fork (h : RenderPremise s) (b : BReg) : exec (.render b) s = .next (s.fork b) := by
  simp only [exec, execRender, h.checked, h.workers, if_false]

/-- Each destination word is then `old | p(i, j)` (R247). -/
theorem RenderLeaves.word (h : RenderLeaves s b t) (hs : RenderPremise s) {i j : Nat} (hij : InDst s.view i j) :
    readWord t.mem (dstAddr s.view i j) = readWord s.mem (dstAddr s.view i j) ||| pixelAt s b i j := by
  rw [readWord_congr fun x _ => h.mem x]
  exact readWord_orPixels (p := pixelStep s b i j) (dstSteps_aligned hs) (dstSteps_nodup hs)
    (mem_dstSteps.mpr ⟨i, j, hij, rfl⟩)

/-- Settles O48: before the last step the state is `Drawn`, and after it the RENDER leaves `RenderLeaves`. -/
theorem renderOrsEveryPixel : Obligations.RenderOrsEveryPixel := by
  intro s b hs ha
  refine ⟨_, exec_render_fork hs b, (Rendered.fork hs b).frame, fun _ => rfl, rfl, rfl, fun n hn => ?_, ?_⟩
  · obtain ⟨ps, u, r, -, hu, hdrawn⟩ := fork_steps_drawn hs ha hn
    exact ⟨u, hu, hdrawn.rendered.frame, hdrawn.block.pc, hdrawn.block.status,
      hdrawn.rendering ▸ Option.some_ne_none r⟩
  · obtain ⟨t, ht, h⟩ := fork_steps_leaves hs ha
    refine ⟨t, ht, h.frame, fun i j hij => h.word hs hij, ?_, ?_, h.pc, ?_, ?_, ?_, h.errpc, h.rendering⟩
    · rw [h.status, State.addFlags_status, Bool.or_eq_true, dstSteps_ov]
    · rw [h.status, State.addFlags_status, Bool.or_eq_true, dstSteps_dz]
    all_goals rw [h.status]
    · exact hs.busy
    all_goals rfl

/-- The state on a platform with another number of workers. -/
def State.onWorkers (s : State) (n : BitVec 8) : State :=
  { s with platform := { s.platform with numWorkers := n } }

/-- No premise rests on the number of workers but that there is one. -/
theorem RenderPremise.onWorkers (h : RenderPremise s) {n : BitVec 8} (hn : n ≠ 0#8) :
    RenderPremise (s.onWorkers n) :=
  ⟨h.srcOk, h.dstOk, h.srcAligned, h.dstAligned, hn, h.busy, h.inbox, h.undisturbed, h.startAligned, h.noOverlap⟩

/-- With any number of workers the RENDER leaves memory and flags as the pixels of `s` make them. -/
theorem onWorkers_leaves (hs : RenderPremise s) (ha : AllAdmitted s b) {n : BitVec 8} (hn : n ≠ 0#8) :
    ∃ t, steps (dstWords s.view) ((s.onWorkers n).fork b) = .next t ∧ RenderLeaves (s.onWorkers n) b t ∧
      ∀ x, readByte t.mem x = readByte (orPixels s.mem (dstSteps s b)) x := by
  obtain ⟨t, ht, h⟩ := fork_steps_leaves (hs.onWorkers hn) (b := b) ha
  exact ⟨t, ht, h, h.mem⟩

/-- Settles O49: with either number of workers the RENDER leaves what `RenderLeaves` says of the same pixels. -/
theorem renderIgnoresTheWorkerCount : Obligations.RenderIgnoresTheWorkerCount := by
  intro s b n k hn hk hs ha
  obtain ⟨t, ht, hleft, hmem⟩ := onWorkers_leaves hs ha hn
  obtain ⟨u, hu, hleft', hmem'⟩ := onWorkers_leaves hs ha hk
  have files := hleft.frame.files
  have files' := hleft'.frame.files
  exact ⟨t, u, ht, hu, fun x => (hmem x).trans (hmem' x).symm,
    ⟨fun x => (files'.f x).trans (files.f x).symm, fun x => (files'.z x).trans (files.z x).symm,
      fun x => (files'.m x).trans (files.m x).symm, fun x => (files'.bl x).trans (files.bl x).symm⟩,
    hleft'.frame.view.trans hleft.frame.view.symm, hleft'.status.trans hleft.status.symm,
    hleft'.pc.trans hleft.pc.symm, hleft'.errpc.trans hleft.errpc.symm, hleft'.frame.ie.trans hleft.frame.ie.symm,
    hleft.rendering, hleft'.rendering⟩

end Sys2Proof.Machine
end

section
/-! PROOFS. Decoding after encoding (30_encoding.md R92, R97): what each check of the decoder answers for the words of
the encoder. -/

namespace Sys2Proof

variable {op : BitVec 8} {a b c d e : BitVec 4} {imm : BitVec 16} {k : Decoded}

/-! ## The words of the encoder pass the check of their format -/

@[simp] theorem withFormat_N_regWord :
    withFormat .N (regWord op 0#4 0#4 0#4 0#4 0#4) k = k := withFormat_ok (by rw [fieldOp_regWord, mask_N])

@[simp] theorem withFormat_R1_regWord :
    withFormat .R1 (regWord op a 0#4 0#4 0#4 0#4) k = k := withFormat_ok (by rw [fieldOp_regWord, mask_R1])

@[simp] theorem withFormat_R2_regWord :
    withFormat .R2 (regWord op a b 0#4 0#4 0#4) k = k := withFormat_ok (by rw [fieldOp_regWord, mask_R2])

@[simp] theorem withFormat_R3_regWord :
    withFormat .R3 (regWord op a b c 0#4 0#4) k = k := withFormat_ok (by rw [fieldOp_regWord, mask_R3])

@[simp] theorem withFormat_R4_regWord :
    withFormat .R4 (regWord op a b c d 0#4) k = k := withFormat_ok (by rw [fieldOp_regWord, mask_R4])

@[simp] theorem withFormat_R5_regWord :
    withFormat .R5 (regWord op a b c d e) k = k := withFormat_ok (by rw [fieldOp_regWord, mask_R5])

@[simp] theorem withFormat_I_immWord :
    withFormat .I (immWord op a imm) k = k := withFormat_ok (by rw [fieldOp_immWord, mask_I])

/-! ## The checks of the operands -/

@[simp] theorem two_regWord (k : Fin 16 → Fin 16 → Instr) :
    two (regWord op a b 0#4 0#4 0#4) k = .ok (k (regOf a) (regOf b)) := by simp [two]

@[simp] theorem three_regWord (k : Fin 16 → Fin 16 → Fin 16 → Instr) :
    three (regWord op a b c 0#4 0#4) k = .ok (k (regOf a) (regOf b) (regOf c)) := by simp [three]

@[simp] theorem withCsr_csrNumber (x : Csr) (k : Csr → Decoded) : withCsr (csrNumber x) k = k x := by
  simp [withCsr]

theorem withWritableCsr_csrNumber {x : Csr} (hx : x.writable = true) (k : Csr → Decoded) :
    withWritableCsr (csrNumber x) k = k x := by simp [withWritableCsr, hx]

/-- Settles O2, format by format: each check of the decoder answers the operand that the encoder wrote. -/
theorem decodeOfEncode : Obligations.DecodeOfEncode := by
  intro i hi
  cases i with
  -- the formats with one command shape each
  | nop | halt => simp [encode, decode, withFormat_N_regWord]
  | mobSet => simp [encode, decode, withFormat_R5_regWord, withClass_fld]
  | pxBlend => simp [encode, decode, withFormat_R4_regWord]
  | mobId | blClr | render => simp [encode, decode, withFormat_R1_regWord, withClass_fld]
  -- formats R2 and R3, with fields of class f and z alone
  | ldW | pxOrw | fxNeg | fxFrac | fxInt | fxNot | fxTou | fxFromi | cxConj | cxGuard | cxRe | cxIm | pxSample =>
    simp [encode, decode, two_regWord]
  | fxAdd | fxSub | fxMul | fxDiv | fxCmp | cxAdd | cxSub | cxMul | cxDiv | cxPack =>
    simp [encode, decode, three_regWord]
  -- formats R2 and R3, with fields of class m, b or k
  | mobHyp | mobInv | mobIsid | blAppend | blMul | blRcomp | blLcomp | blCount | blFrame =>
    simp [encode, decode, withFormat_R2_regWord, withClass_fld]
  | mobComp | mobApply | mobGet | blEval | blGetf => simp [encode, decode, withFormat_R3_regWord, withClass_fld]
  -- formats I and C
  | fxLih | fxLil => simp [encode, decode, withFormat_I_immWord]
  | csrr => simp [encode, decode, withFormat_I_immWord, withCsr_csrNumber]
  | csrw csr fs => simp [encode, decode, withWritableCsr_csrNumber (show csr.writable = true from hi)]

/-- Settles O1: each word is the encoder's word of its command. -/
theorem decoderReadsTheWrittenWords : Obligations.DecoderReadsTheWrittenWords :=
  ⟨decodeOfEncode .halt rfl, decodeOfEncode (.csrr 1 .status) rfl, decodeOfEncode (.csrw .srcW 5) rfl,
    decodeOfEncode (.pxOrw 1 2) rfl, decodeOfEncode (.fxMul 3 1 2) rfl, decodeOfEncode (.fxLih 1 3) rfl,
    decodeOfEncode (.cxPack 4 6 5) rfl, decodeOfEncode (.mobSet 4 5 6 7 8) rfl, decodeOfEncode (.blGetf 5 1 4) rfl,
    decodeOfEncode (.pxBlend 1 14 11 4) rfl, decodeOfEncode (.render 1) rfl⟩

end Sys2Proof
end

section
/-! PROOFS. The instruction that the decoder reads is the instruction of the word (30_encoding.md R97 to R99): a word
that passes the check of its format is the encoder's word of its own fields. -/

namespace Sys2Proof

variable {op : BitVec 8} {v w m : Word} {k : Decoded}

/-! ## The fields of a word -/

@[simp] theorem fld_regOf (x : BitVec 4) : fld (regOf x) = x := by
  apply BitVec.eq_of_toNat_eq
  rw [fld_toNat _ le_rfl]
  rfl

/-- A word is made of its fields (R91). -/
theorem regWord_fields (h : w.extractLsb' 0 4 = 0#4) :
    regWord (fieldOp w) (fieldA w) (fieldB w) (fieldC w) (fieldD w) (fieldE w) = w := by
  apply BitVec.eq_of_toNat_eq
  have hr : w.toNat % 2 ^ 4 = 0 := by simpa [extract_toNat] using congrArg BitVec.toNat h
  have := w.isLt
  simp only [regWord_toNat, fieldOp, fieldA, fieldB, fieldC, fieldD, fieldE, extract_toNat]
  omega

theorem immWord_fields (h : fieldB w = 0#4) : immWord (fieldOp w) (fieldA w) (fieldImm w) = w := by
  apply BitVec.eq_of_toNat_eq
  have hr : w.toNat / 2 ^ 16 % 2 ^ 4 = 0 := (extract_toNat w 16 4).symm.trans (congrArg BitVec.toNat h)
  have := w.isLt
  simp only [immWord_toNat, fieldOp, fieldA, fieldImm, extract_toNat]
  omega

/-! ## The words that pass the check of a format (R92, R98 check 2) -/

/-- Bits below the opcode that the mask takes in are zero in a word that passes the check. -/
theorem extract_eq_zero_of_mask {i n : Nat} (h : w &&& m = matchWord (fieldOp w)) (hi : i + n ≤ 24)
    (hm : m.extractLsb' i n = BitVec.allOnes n) : w.extractLsb' i n = 0#n := by
  have hz : (matchWord (fieldOp w)).extractLsb' i n = 0#n := by
    apply BitVec.eq_of_getLsbD_eq
    intro j hj
    simp only [matchWord, BitVec.getLsbD_extractLsb', BitVec.getLsbD_append, BitVec.getLsbD_zero]
    rw [if_pos (by omega), Bool.and_false]
  calc w.extractLsb' i n = (w &&& m).extractLsb' i n := by rw [BitVec.extractLsb'_and, hm, BitVec.and_allOnes]
    _ = 0#n := by rw [h, hz]

theorem fieldA_of_mask (h : w &&& m = matchWord (fieldOp w)) (hm : fieldA m = 0xF#4) : fieldA w = 0#4 :=
  extract_eq_zero_of_mask h (by decide) hm

theorem fieldB_of_mask (h : w &&& m = matchWord (fieldOp w)) (hm : fieldB m = 0xF#4) : fieldB w = 0#4 :=
  extract_eq_zero_of_mask h (by decide) hm

theorem fieldC_of_mask (h : w &&& m = matchWord (fieldOp w)) (hm : fieldC m = 0xF#4) : fieldC w = 0#4 :=
  extract_eq_zero_of_mask h (by decide) hm

theorem fieldD_of_mask (h : w &&& m = matchWord (fieldOp w)) (hm : fieldD m = 0xF#4) : fieldD w = 0#4 :=
  extract_eq_zero_of_mask h (by decide) hm

theorem fieldE_of_mask (h : w &&& m = matchWord (fieldOp w)) (hm : fieldE m = 0xF#4) : fieldE w = 0#4 :=
  extract_eq_zero_of_mask h (by decide) hm

/-- Where the mask takes in the reserved field, a word that passes is made of the other fields. -/
theorem regWord_of_mask (hop : fieldOp w = op) (h : w &&& m = matchWord (fieldOp w))
    (hm : m.extractLsb' 0 4 = 0xF#4) : regWord op (fieldA w) (fieldB w) (fieldC w) (fieldD w) (fieldE w) = w :=
  hop ▸ regWord_fields (extract_eq_zero_of_mask h (by decide) hm)

theorem regWord_of_R5 (hop : fieldOp w = op) (h : w &&& formatMask .R5 = matchWord (fieldOp w)) :
    regWord op (fieldA w) (fieldB w) (fieldC w) (fieldD w) (fieldE w) = w := regWord_of_mask hop h rfl

theorem regWord_of_R4 (hop : fieldOp w = op) (h : w &&& formatMask .R4 = matchWord (fieldOp w)) :
    regWord op (fieldA w) (fieldB w) (fieldC w) (fieldD w) 0#4 = w := by
  simpa only [fieldE_of_mask h rfl] using regWord_of_mask hop h rfl

theorem regWord_of_R3 (hop : fieldOp w = op) (h : w &&& formatMask .R3 = matchWord (fieldOp w)) :
    regWord op (fieldA w) (fieldB w) (fieldC w) 0#4 0#4 = w := by
  simpa only [fieldD_of_mask h rfl, fieldE_of_mask h rfl] using regWord_of_mask hop h rfl

theorem regWord_of_R2 (hop : fieldOp w = op) (h : w &&& formatMask .R2 = matchWord (fieldOp w)) :
    regWord op (fieldA w) (fieldB w) 0#4 0#4 0#4 = w := by
  simpa only [fieldC_of_mask h rfl, fieldD_of_mask h rfl, fieldE_of_mask h rfl] using regWord_of_mask hop h rfl

theorem regWord_of_R1 (hop : fieldOp w = op) (h : w &&& formatMask .R1 = matchWord (fieldOp w)) :
    regWord op (fieldA w) 0#4 0#4 0#4 0#4 = w := by
  simpa only [fieldB_of_mask h rfl, fieldC_of_mask h rfl, fieldD_of_mask h rfl, fieldE_of_mask h rfl]
    using regWord_of_mask hop h rfl

theorem regWord_of_N (hop : fieldOp w = op) (h : w &&& formatMask .N = matchWord (fieldOp w)) :
    regWord op 0#4 0#4 0#4 0#4 0#4 = w := by
  simpa only [fieldA_of_mask h rfl, fieldB_of_mask h rfl, fieldC_of_mask h rfl, fieldD_of_mask h rfl,
    fieldE_of_mask h rfl] using regWord_of_mask hop h rfl

theorem immWord_of_I (hop : fieldOp w = op) (h : w &&& formatMask .I = matchWord (fieldOp w)) :
    immWord op (fieldA w) (fieldImm w) = w := hop ▸ immWord_fields (fieldB_of_mask h rfl)

/-! ## The numbers of the CSRs (10_state.md R27) -/

theorem csrNumber_of_csrOfNumber {x : BitVec 16} {c : Csr} (h : csrOfNumber x = some c) : csrNumber c = x := by
  unfold csrOfNumber at h
  split at h <;> cases h <;> rfl

/-! ## What each check answers -/

/-- The answer `k` is none but an instruction of the word `v`: a well-formed one that the encoder writes as `v`. -/
def Reads (v : Word) (k : Decoded) : Prop := ∀ i, k = .ok i → i.wellFormed = true ∧ encode i = v

theorem reads_ok {i : Instr} (hi : i.wellFormed = true) (hv : encode i = v) : Reads v (.ok i) := by
  rintro j ⟨⟩
  exact ⟨hi, hv⟩

theorem reads_error (x : DecodeError) : Reads v (.error x) := nofun

/-- Past the check of a format, an instruction of the word `v` of its fields is one of the word itself. -/
theorem reads_withFormat {fm : Format} (hv : w &&& formatMask fm = matchWord (fieldOp w) → v = w) (h : Reads v k) :
    Reads w (withFormat fm w k) := by
  intro i hi
  obtain ⟨hm, hk⟩ := withFormat_eq_ok.mp hi
  exact hv hm ▸ h i hk

theorem reads_withClass {n : Nat} {x : BitVec 4} {k : Fin n → Decoded} (hn : n ≤ 16)
    (h : ∀ r : Fin n, x = fld r → Reads v (k r)) : Reads v (withClass n x k) := by
  by_cases hx : x.toNat < n
  · rw [withClass_ok hx]
    exact h _ (BitVec.eq_of_toNat_eq (fld_toNat ⟨x.toNat, hx⟩ hn).symm)
  · rw [withClass_bad hx]
    exact reads_error _

theorem reads_withCsr {x : BitVec 16} {k : Csr → Decoded} (h : ∀ c, x = csrNumber c → Reads v (k c)) :
    Reads v (withCsr x k) := by
  unfold withCsr
  split
  next c hc => exact h c (csrNumber_of_csrOfNumber hc).symm
  next => exact reads_error _

theorem reads_withWritableCsr {x : BitVec 16} {k : Csr → Decoded}
    (h : ∀ c, c.writable = true → x = csrNumber c → Reads v (k c)) : Reads v (withWritableCsr x k) := by
  refine reads_withCsr fun c hc => ?_
  split
  next hw => exact h c hw hc
  next => exact reads_error _

theorem reads_two {k : Fin 16 → Fin 16 → Instr} (hop : fieldOp w = op)
    (h : ∀ a b, (k a b).wellFormed = true ∧ encode (k a b) = regWord op (fld a) (fld b) 0#4 0#4 0#4) :
    Reads w (two w k) := by
  obtain ⟨hi, he⟩ := h (regOf (fieldA w)) (regOf (fieldB w))
  rw [fld_regOf, fld_regOf] at he
  exact reads_withFormat (regWord_of_R2 hop) (reads_ok hi he)

theorem reads_three {k : Fin 16 → Fin 16 → Fin 16 → Instr} (hop : fieldOp w = op)
    (h : ∀ a b c, (k a b c).wellFormed = true ∧ encode (k a b c) = regWord op (fld a) (fld b) (fld c) 0#4 0#4) :
    Reads w (three w k) := by
  obtain ⟨hi, he⟩ := h (regOf (fieldA w)) (regOf (fieldB w)) (regOf (fieldC w))
  rw [fld_regOf, fld_regOf, fld_regOf] at he
  exact reads_withFormat (regWord_of_R3 hop) (reads_ok hi he)

theorem reads_R1 {n : Nat} {k : Fin n → Instr} (hop : fieldOp w = op) (hn : n ≤ 16)
    (h : ∀ r, (k r).wellFormed = true ∧ encode (k r) = regWord op (fld r) 0#4 0#4 0#4 0#4) :
    Reads w (withFormat .R1 w (withClass n (fieldA w) fun r => .ok (k r))) := by
  refine reads_withFormat (regWord_of_R1 hop) (reads_withClass hn fun r hA => ?_)
  rw [hA]
  exact reads_ok (h r).1 (h r).2

theorem reads_R2 {n l : Nat} {k : Fin n → Fin l → Instr} (hop : fieldOp w = op) (hn : n ≤ 16) (hl : l ≤ 16)
    (h : ∀ r q, (k r q).wellFormed = true ∧ encode (k r q) = regWord op (fld r) (fld q) 0#4 0#4 0#4) :
    Reads w (withFormat .R2 w (withClass n (fieldA w) fun r => withClass l (fieldB w) fun q => .ok (k r q))) := by
  refine reads_withFormat (regWord_of_R2 hop) (reads_withClass hn fun r hA => reads_withClass hl fun q hB => ?_)
  rw [hA, hB]
  exact reads_ok (h r q).1 (h r q).2

/-- Opcode by opcode, in groups of one format and one kind of fields; the cases are numbered in the order of the
opcode map. -/
theorem reads_decode (w : Word) : Reads w (decode w) := by
  unfold decode
  split
  case h_7 | h_8 | h_9 | h_10 | h_14 | h_20 | h_21 | h_22 | h_23 | h_26 => -- format R3, classes f and z
    exact reads_three ‹_› fun _ _ _ => ⟨rfl, rfl⟩
  case h_5 | h_6 | h_11 | h_12 | h_13 | h_15 | h_16 | h_17 | h_24 | h_25 | h_27 | h_28 | h_47 => -- R2, f and z
    exact reads_two ‹_› fun _ _ => ⟨rfl, rfl⟩
  case h_1 | h_2 => -- NOP, HALT
    exact reads_withFormat (regWord_of_N ‹_›) (reads_ok rfl rfl)
  case h_30 | h_37 | h_48 => -- MOB.ID, BL.CLR, RENDER
    exact reads_R1 ‹_› (by decide) fun _ => ⟨rfl, rfl⟩
  case h_33 | h_38 | h_39 | h_40 | h_41 | h_45 => -- MOB.INV, BL.APPEND, BL.MUL, BL.RCOMP, BL.LCOMP, BL.FRAME
    exact reads_R2 ‹_› (by decide) (by decide) fun _ _ => ⟨rfl, rfl⟩
  case h_3 => -- CSRR
    refine reads_withFormat (immWord_of_I ‹_›) (reads_withCsr fun c hn => reads_ok rfl ?_)
    rw [encode, hn, fld_regOf]; rfl
  case h_4 => -- CSRW
    refine reads_withFormat (immWord_of_I ‹_›) (reads_withWritableCsr fun c hw hn => reads_ok hw ?_)
    rw [encode, hn, fld_regOf]; rfl
  case h_18 | h_19 => -- FX.LIH, FX.LIL
    refine reads_withFormat (immWord_of_I ‹_›) (reads_ok rfl ?_)
    rw [encode, fld_regOf]; rfl
  case h_29 => -- MOB.SET
    refine reads_withFormat (regWord_of_R5 ‹_›) (reads_withClass (by decide) fun md hA => reads_ok rfl ?_)
    rw [encode, hA, fld_regOf, fld_regOf, fld_regOf, fld_regOf]; rfl
  case h_31 => -- MOB.HYP
    refine reads_withFormat (regWord_of_R2 ‹_›) (reads_withClass (by decide) fun md hA => reads_ok rfl ?_)
    rw [encode, hA, fld_regOf]; rfl
  case h_36 | h_43 => -- MOB.ISID, BL.COUNT
    refine reads_withFormat (regWord_of_R2 ‹_›) (reads_withClass (by decide) fun r hB => reads_ok rfl ?_)
    rw [encode, hB, fld_regOf]; rfl
  case h_34 | h_42 => -- MOB.APPLY, BL.EVAL
    refine reads_withFormat (regWord_of_R3 ‹_›) (reads_withClass (by decide) fun r hB => reads_ok rfl ?_)
    rw [encode, hB, fld_regOf, fld_regOf]; rfl
  case h_35 => -- MOB.GET
    refine reads_withFormat (regWord_of_R3 ‹_›) (reads_withClass (by decide) fun ma hB =>
      reads_withClass (by decide) fun k hC => reads_ok rfl ?_)
    rw [encode, hB, hC, fld_regOf]; rfl
  case h_32 | h_44 => -- MOB.COMP, BL.GETF
    refine reads_withFormat (regWord_of_R3 ‹_›) (reads_withClass (by decide) fun md hA =>
      reads_withClass (by decide) fun r hB => reads_withClass (by decide) fun q hC => reads_ok rfl ?_)
    rw [encode, hA, hB, hC]; rfl
  case h_46 => -- PX.BLEND
    refine reads_withFormat (regWord_of_R4 ‹_›) (reads_ok rfl ?_)
    rw [encode, fld_regOf, fld_regOf, fld_regOf, fld_regOf]; rfl
  case h_49 => exact reads_error _

/-- Settles O3: what the decoder answers is the instruction of the word. -/
theorem encodeOfDecode : Obligations.EncodeOfDecode := reads_decode

end Sys2Proof
end

section
/-! PROOFS. The words that the decoder refuses, and the fault of a block that fetches one (30_encoding.md R93, R95, R98,
R99; 60_exceptions.md R284, R285). -/

namespace Sys2Proof.Machine

variable {s : State} {w : Word} {x : DecodeError}

/-! ## The fetch of a word that is refused -/

/-- A block that fetches a word takes the fault that the decoder names for it. -/
theorem FetchesWord.stepFaults (hs : FetchesWord s w) (hw : decode w = .error x) :
    StepFaults s (causeCode (causeOf x)) := by
  have hc : accessCheck s s.pc = none := accessCheck_none.mpr ⟨hs.onWord, hs.admitted⟩
  refine ⟨s.noteFetch.takeFault (causeOf x), ?_, ?_⟩
  · rw [step_block hs.inbox]
    simp only [blockMove, hs.busy, hs.idleWorkers, if_true, runCommand, hc, runWord, noteFetch_unraced hs.unraced,
      hs.word, hw, faulted]
  · rw [noteFetch_unraced hs.unraced]
    exact { takeFault_entry _ (causeOf x) with
      files := ⟨fun _ => rfl, fun _ => rfl, fun _ => rfl, fun _ => rfl⟩, mem := fun _ => rfl }

theorem refusedUnless_of_decode {p : Prop} (h : ¬p → decode w = .error .illegalOperand) : RefusedUnless p w :=
  fun hp => ⟨h hp, fun _ hs => hs.stepFaults (h hp)⟩

/-! ## Opcodes and must-be-zero bits (R99) -/

/-- The opcodes that R99 leaves unallocated. -/
def Unallocated (op : Nat) : Prop :=
  (0x06 ≤ op ∧ op ≤ 0x0F) ∨ (0x1D ≤ op ∧ op ≤ 0x1F) ∨ (0x29 ≤ op ∧ op ≤ 0x2F) ∨
    (0x38 ≤ op ∧ op ≤ 0x3F) ∨ (0x49 ≤ op ∧ op ≤ 0x4F) ∨ (0x52 ≤ op ∧ op ≤ 0x5F) ∨ 0x61 ≤ op

theorem decode_unallocated (h : Unallocated (fieldOp w).toNat) : decode w = .error .illegalOpcode := by
  unfold decode
  split
  case h_49 => rfl
  all_goals
    rename_i hop
    exact absurd h (by rw [Unallocated, hop]; decide)

/-- The first check of an allocated opcode is that of the format of its instructions (R97). -/
theorem decode_eq_withFormat {i : Instr} (h : instrOpcode i = fieldOp w) :
    ∃ k, decode w = withFormat (instrFormat i) w k := by
  cases i <;> exact ⟨_, by rw [decode, ← h]; rfl⟩

theorem decode_mustBeZero {i : Instr} (h : instrOpcode i = fieldOp w)
    (hm : w &&& formatMask (instrFormat i) ≠ matchWord (fieldOp w)) : decode w = .error .illegalOperand := by
  obtain ⟨k, hk⟩ := decode_eq_withFormat h
  rw [hk, withFormat_bad hm]

theorem decode_nop_iff : decode w = .ok .nop ↔ w = 0#32 := by
  constructor
  · intro h
    exact (encodeOfDecode w .nop h).2.symm
  · rintro rfl
    exact decodeOfEncode .nop rfl

/-- Settles O4, from the decoder's refusals and the fault that a block takes for them. -/
theorem unallocatedOpcodesAndMustBeZeroBits : Obligations.UnallocatedOpcodesAndMustBeZeroBits := by
  refine ⟨fun s w hs hop => ?_, fun s w i hs hop hm => ?_, fun w => decode_nop_iff⟩
  · have hw := decode_unallocated hop
    exact ⟨hw, hs.stepFaults hw⟩
  · have hw := decode_mustBeZero hop hm
    exact ⟨hw, hs.stepFaults hw⟩

/-! ## Fields of class m, b and k (R93) -/

section

variable (op : BitVec 8) (a b c d e : BitVec 4)

theorem append_R5 : op ++ a ++ b ++ c ++ d ++ e ++ 0#4 = regWord op a b c d e := rfl

theorem append_R3 : op ++ a ++ b ++ c ++ 0#12 = regWord op a b c 0#4 0#4 := by
  apply BitVec.eq_of_getLsbD_eq
  intro i hi
  simp only [regWord, BitVec.getLsbD_append]
  interval_cases i <;> rfl

theorem append_R2 : op ++ a ++ b ++ 0#16 = regWord op a b 0#4 0#4 0#4 := by
  apply BitVec.eq_of_getLsbD_eq
  intro i hi
  simp only [regWord, BitVec.getLsbD_append]
  interval_cases i <;> rfl

theorem append_R1 : op ++ a ++ 0#20 = regWord op a 0#4 0#4 0#4 0#4 := by
  apply BitVec.eq_of_getLsbD_eq
  intro i hi
  simp only [regWord, BitVec.getLsbD_append]
  interval_cases i <;> rfl

end

/-- The check of a field, and of the fields after it, fails when no legal value of it goes on to an instruction. -/
theorem withClass_refused_iff {n : Nat} {x : BitVec 4} {k : Fin n → Decoded} :
    withClass n x k = .error .illegalOperand ↔ ∀ h : x.toNat < n, k ⟨x.toNat, h⟩ = .error .illegalOperand := by
  by_cases hx : x.toNat < n
  · rw [withClass_ok hx]
    exact ⟨fun h _ => h, fun h => h hx⟩
  · rw [withClass_bad hx]
    exact ⟨fun _ h => absurd h hx, fun _ => rfl⟩

/-- Settles O5: each word passes the check of its format, and a command comes of it only when every field is in its
class. -/
theorem fieldsOutsideTheirClass : Obligations.FieldsOutsideTheirClass := by
  intro a b c d e
  and_intros
  all_goals
    refine refusedUnless_of_decode fun h => ?_
    simpa [append_R1, append_R2, append_R3, append_R5, decode, withClass_refused_iff] using h

end Sys2Proof.Machine
end

section
/-! PROOFS. The CSR numbers that CSRR and CSRW take (30_encoding.md R95, 10_state.md R27). -/

namespace Sys2Proof.Machine

variable {n : BitVec 16}

/-- The numbers that name a CSR of the view, which commands may write (R95). -/
def ViewNumber (n : Nat) : Prop := (0x010 ≤ n ∧ n ≤ 0x015) ∨ (0x020 ≤ n ∧ n ≤ 0x026)

/-- The numbers that name a CSR (R27). -/
def MappedNumber (n : Nat) : Prop := n ≤ 0x004 ∨ ViewNumber n

theorem mappedNumber_csrNumber (c : Csr) : MappedNumber (csrNumber c).toNat := by
  unfold MappedNumber ViewNumber
  cases c <;> decide

theorem viewNumber_csrNumber_iff (c : Csr) : ViewNumber (csrNumber c).toNat ↔ c.writable = true := by
  unfold ViewNumber
  cases c <;> decide

theorem csrOfNumber_isSome : ∀ k < 0x27, MappedNumber k → (csrOfNumber (BitVec.ofNat 16 k)).isSome = true := by
  unfold MappedNumber ViewNumber
  decide

/-- The mapped numbers are the numbers of the CSRs. -/
theorem exists_csrNumber (h : MappedNumber n.toNat) : ∃ c, csrNumber c = n := by
  have hk : n.toNat < 0x27 := by
    unfold MappedNumber ViewNumber at h
    omega
  obtain ⟨c, hc⟩ := Option.isSome_iff_exists.mp (csrOfNumber_isSome n.toNat hk h)
  rw [BitVec.ofNat_toNat, BitVec.setWidth_eq] at hc
  exact ⟨c, csrNumber_of_csrOfNumber hc⟩

theorem csrOfNumber_unmapped (h : ¬MappedNumber n.toNat) : csrOfNumber n = none := by
  cases hc : csrOfNumber n with
  | none => rfl
  | some c => exact absurd (csrNumber_of_csrOfNumber hc ▸ mappedNumber_csrNumber c) h

/-! ## CSRR and CSRW at decode -/

theorem decode_csrr (a : BitVec 4) (n : BitVec 16) :
    decode (immWord 0x02#8 a n) = withCsr n fun c => .ok (.csrr (regOf a) c) := by simp [decode]

theorem decode_csrw (a : BitVec 4) (n : BitVec 16) :
    decode (immWord 0x03#8 a n) = withWritableCsr n fun c => .ok (.csrw c (regOf a)) := by simp [decode]

theorem withCsr_unmapped (h : ¬MappedNumber n.toNat) (k : Csr → Decoded) : withCsr n k = .error .illegalCsr := by
  rw [withCsr, csrOfNumber_unmapped h]

theorem withWritableCsr_refused (h : ¬ViewNumber n.toNat) (k : Csr → Decoded) :
    withWritableCsr n k = .error .illegalCsr := by
  by_cases hm : MappedNumber n.toNat
  · obtain ⟨c, rfl⟩ := exists_csrNumber hm
    rw [viewNumber_csrNumber_iff] at h
    rw [withWritableCsr, withCsr_csrNumber, if_neg h]
  · exact withCsr_unmapped hm _

/-- Settles O6: a number names a CSR, and one of the view, exactly in the ranges of R95. -/
theorem csrNumbers : Obligations.CsrNumbers := by
  refine fun a n => ⟨fun h => ?_, fun h => ?_, fun h => ?_, fun h => ?_⟩
  · obtain ⟨c, rfl⟩ := exists_csrNumber h
    exact ⟨c, rfl, (decode_csrr a _).trans (withCsr_csrNumber c _)⟩
  · obtain ⟨c, rfl⟩ := exists_csrNumber (.inr h)
    exact ⟨c, rfl, (decode_csrw a _).trans (withWritableCsr_csrNumber ((viewNumber_csrNumber_iff c).mp h) _)⟩
  · have hw := (decode_csrr a n).trans (withCsr_unmapped h _)
    exact ⟨hw, fun s hs => hs.stepFaults hw⟩
  · have hw := (decode_csrw a n).trans (withWritableCsr_refused h _)
    exact ⟨hw, fun s hs => hs.stepFaults hw⟩

end Sys2Proof.Machine
end

section
/-! PROOFS. The laws of the fixed-point functions (30_encoding.md R101, 40_fixed_point.md R127, R133, R141). -/

namespace Sys2Proof.Machine

variable {a n : Word}

theorem fxNeg_val (a : Word) : (fxNeg a).val = -a := by
  rw [fxNeg, narrow_val, BitVec.ofInt_neg, BitVec.ofInt_toInt]

/-- The integer part is the floor of the value (R127). -/
theorem toInt_fxInt (a : Word) : (fxInt a).toInt = a.toInt / 2 ^ 16 := by
  have := a.isLt
  rw [fxInt, BitVec.toInt_signExtend_of_le (by decide)]
  simp only [BitVec.toInt_eq_toNat_cond, extract_toNat]
  omega

/-- The fractional part is the value modulo 1.0 (R126). -/
theorem toInt_fxFrac (a : Word) : (fxFrac a).toInt = a.toInt % 2 ^ 16 := by
  have := a.isLt
  rw [fxFrac]
  simp only [BitVec.toInt_eq_toNat_cond, BitVec.toNat_setWidth, extract_toNat]
  omega

theorem inRange_toInt (a : Word) : inRange a.toInt = true :=
  (inRange_iff _).mpr ⟨by have := BitVec.le_toInt a; omega, by have := BitVec.toInt_lt (x := a); omega⟩

/-- Where the exact result is a word's own value, the narrowing gives that word and sets no flag. -/
theorem narrow_toInt_eq_plain (a : Word) : narrow a.toInt = plain a := by
  unfold narrow
  rw [BitVec.ofInt_toInt, inRange_toInt]; rfl

theorem toInt_fxFromi (h : inRange (n.toInt * 2 ^ 16) = true) : (fxFromi n).val.toInt = n.toInt * 2 ^ 16 :=
  narrow_toInt h

theorem toInt_oneFx : oneFx.toInt = 2 ^ 16 := by decide

theorem fxMul_one (a : Word) : fxMul a oneFx = plain a := by
  rw [fxMul, toInt_oneFx, Int.mul_ediv_cancel _ (by decide), narrow_toInt_eq_plain]

/-- The integer part of a word is an integer that `fx_fromi` takes without overflow. -/
theorem inRange_fxInt (a : Word) : inRange ((fxInt a).toInt * 2 ^ 16) = true := by
  obtain ⟨hl, hu⟩ := (inRange_iff _).mp (inRange_toInt a)
  rw [inRange_iff, toInt_fxInt]
  omega

theorem fxAdd_fxFromi_fxInt (a : Word) : fxAdd (fxFromi (fxInt a)).val (fxFrac a) = plain a := by
  rw [fxAdd, toInt_fxFromi (inRange_fxInt a), toInt_fxInt, toInt_fxFrac, Int.ediv_mul_add_emod, narrow_toInt_eq_plain]

theorem fxInt_fxFromi (hl : -32768 ≤ n.toInt) (hu : n.toInt ≤ 32767) : fxInt (fxFromi n).val = n := by
  apply BitVec.eq_of_toInt_eq
  rw [toInt_fxInt, toInt_fxFromi ((inRange_iff _).mpr (by omega)), Int.mul_ediv_cancel _ (by decide)]

/-- Settles O25, from the exact value of each function: none of the results leaves RANGE, but that of negating
0x80000000, which wraps back to it. -/
theorem fxRoundTrips : Obligations.FxRoundTrips := by
  refine ⟨fun a => ?_, fun a => ⟨?_, ?_, ?_⟩, fun n => fxInt_fxFromi, fun a => ?_⟩
  · rw [fxNeg_val, fxNeg_val, BitVec.neg_neg]
  · rw [fxFromi, narrow_ov, inRange_fxInt, Bool.not_true]
  · rw [fxAdd_fxFromi_fxInt, plain_val]
  · rw [fxAdd_fxFromi_fxInt, plain_flags, Flags.none_ov]
  · rw [fxMul_one]
    exact ⟨rfl, rfl⟩

end Sys2Proof.Machine
end

section
/-! PROOFS. The commands of the fixed-point unit (40_fixed_point.md): each is one `doneF` of a narrowed exact result or
of a pattern without flags, and R144 follows from the exact product and quotient. -/

namespace Sys2Proof.Machine

variable {i : Instr} {s : State} {fd : FReg} {a b v : Word}

/-! ## Completing with a narrowed result or without flags -/

theorem not_inRange_eq_outOfRange (r : Int) : (!inRange r) = outOfRange r := by
  simp only [inRange, outOfRange, Bool.not_and, ← decide_not, not_le, not_lt]

theorem completesF_of_narrow {r : Int} (h : exec i s = doneF s fd (narrow r)) :
    CompletesF i s fd (BitVec.ofInt 32 r) (outOfRange r) false :=
  not_inRange_eq_outOfRange r ▸ completesF_of_doneF h

theorem completesF_of_plain (h : exec i s = doneF s fd (plain v)) : CompletesF i s fd v false false :=
  completesF_of_doneF h

/-- Settles O19: both commands narrow the exact result. -/
theorem fxAddAndSub : Obligations.FxAddAndSub := fun _ _ _ _ => ⟨completesF_of_narrow rfl, completesF_of_narrow rfl⟩

/-! ## FX.NEG and FX.FROMI (R124, R125) -/

/-- Negation leaves RANGE at its lowest value alone (R124). -/
theorem outOfRange_neg_toInt (a : Word) : outOfRange (-a.toInt) = decide (a = 0x80000000#32) := by
  have hmin : a = 0x80000000#32 ↔ a.toInt = -2 ^ 31 := BitVec.toInt_inj.symm
  obtain ⟨hl, hu⟩ := (inRange_iff _).mp (inRange_toInt a)
  simp only [outOfRange, ← Bool.decide_or, hmin, decide_eq_decide]
  omega

theorem outOfRange_fromi (n : Int) :
    outOfRange (n * 2 ^ 16) = (decide (n < -32768) || decide (32767 < n)) := by
  simp only [outOfRange, ← Bool.decide_or, decide_eq_decide]
  omega

theorem append_toNat (x y : BitVec 16) : (x ++ y).toNat = x.toNat * 2 ^ 16 + y.toNat := by
  rw [BitVec.toNat_append, ← Nat.shiftLeft_add_eq_or_of_lt y.isLt, Nat.shiftLeft_eq]

/-- The wrapped product with 2^16 is the low half above zeros (R125). -/
theorem ofInt_mul_pow_eq_append (a : Word) :
    BitVec.ofInt 32 (a.toInt * 2 ^ 16) = a.extractLsb' 0 16 ++ 0x0000#16 := by
  apply BitVec.eq_of_toNat_eq
  rw [append_toNat, extract_toNat, BitVec.toNat_ofInt, BitVec.toNat_ofNat, BitVec.toInt_eq_toNat_cond]
  omega

/-- Settles O20, from where each exact result leaves RANGE. -/
theorem fxNegAndFromi : Obligations.FxNegAndFromi := by
  intro s fd fa a
  have neg : CompletesF (.fxNeg fd fa) s fd (BitVec.ofInt 32 (-a.toInt)) (decide (a = 0x80000000#32)) false :=
    outOfRange_neg_toInt a ▸ completesF_of_narrow rfl
  have fromi : CompletesF (.fxFromi fd fa) s fd (BitVec.ofInt 32 (a.toInt * 2 ^ 16))
      (decide (a.toInt < -32768) || decide (32767 < a.toInt)) false :=
    outOfRange_fromi a.toInt ▸ completesF_of_narrow rfl
  refine ⟨neg, fun h => ?_, ofInt_mul_pow_eq_append a, ofInt_mul_pow_eq_append a ▸ fromi⟩
  rw [h] at neg
  exact neg

/-! ## FX.MUL and FX.DIV (R122, R123) -/

theorem fxDiv_zero (h : b.toInt = 0) :
    fxDiv a b = ⟨if 0 ≤ a.toInt then 0x7FFFFFFF#32 else 0x80000000#32, ⟨false, true⟩⟩ := if_pos h

theorem fxDiv_of_ne (h : b.toInt ≠ 0) : fxDiv a b = narrow ((a.toInt * 2 ^ 16).tdiv b.toInt) := if_neg h

/-- Settles O21: the product's floor and the truncated quotient are narrowed; a zero divisor saturates. -/
theorem fxMulAndDiv : Obligations.FxMulAndDiv := by
  intro s fd fa fb a b
  have div : exec (.fxDiv fd fa fb) s = doneF s fd (fxDiv (s.getF fa) (s.getF fb)) := rfl
  refine ⟨?_, fun h => ?_, fun h => ?_⟩
  · rw [Int.fdiv_eq_ediv_of_nonneg _ (by decide)]
    exact completesF_of_narrow rfl
  · rw [fxDiv_zero h] at div
    exact completesF_of_doneF div
  · rw [fxDiv_of_ne h] at div
    exact completesF_of_narrow div

/-! ## FX.FRAC, FX.INT, FX.TOU, FX.CMP and FX.NOT (R126 to R130) -/

theorem fxFrac_eq_ofInt (a : Word) : fxFrac a = BitVec.ofInt 32 (Int.fmod a.toInt (2 ^ 16)) := by
  rw [Int.fmod_eq_emod_of_nonneg _ (by decide), ← toInt_fxFrac, BitVec.ofInt_toInt]

theorem fxInt_eq_ofInt (a : Word) : fxInt a = BitVec.ofInt 32 (Int.fdiv a.toInt (2 ^ 16)) := by
  rw [Int.fdiv_eq_ediv_of_nonneg _ (by decide), ← toInt_fxInt, BitVec.ofInt_toInt]

theorem fxTou_eq_ofNat (a : Word) : fxTou a = BitVec.ofNat 32 (a.toNat / 2 ^ 16) := by
  have := a.isLt
  apply BitVec.eq_of_toNat_eq
  rw [fxTou, BitVec.toNat_setWidth, extract_toNat, BitVec.toNat_ofNat]
  omega

/-- Settles O22, from the arithmetic reading of each pattern. -/
theorem fxFracIntAndTou : Obligations.FxFracIntAndTou := by
  intro s fd fa a
  rw [← fxFrac_eq_ofInt, ← fxInt_eq_ofInt, ← fxTou_eq_ofNat]
  exact ⟨completesF_of_plain rfl, completesF_of_plain rfl, completesF_of_plain rfl⟩

/-- Settles O23: both results are patterns without flags. -/
theorem fxCmpAndNot : Obligations.FxCmpAndNot := fun _ _ _ _ => ⟨completesF_of_plain rfl, completesF_of_plain rfl⟩

/-! ## FX.LIH and FX.LIL (R142, R143) -/

/-- The high half above zeros, with the low half put in, is the word again. -/
theorem fxLil_fxLih_halves (v : Word) : fxLil (fxLih (v.extractLsb' 16 16)) (v.extractLsb' 0 16) = v := by
  have := v.isLt
  apply BitVec.eq_of_toNat_eq
  rw [fxLil, fxLih, append_toNat, extract_toNat, append_toNat, extract_toNat, extract_toNat]
  omega

/-- Settles O24: the words are the encoder's, and the pair leaves the two halves of the word. -/
theorem fxImmediates : Obligations.FxImmediates := by
  refine fun s fd imm => ⟨decodeOfEncode (.fxLih fd imm) rfl, completesF_of_plain rfl,
    decodeOfEncode (.fxLil fd imm) rfl, completesF_of_plain rfl, fun v t u hlih hlil => ?_⟩
  obtain rfl := doneF_next.mp hlih
  obtain rfl := doneF_next.mp hlil
  simp [fxLil_fxLih_halves]

/-! ## The quotient of a product (R144) -/

/-- The floor of the product loses less than 2^16 ≤ |b| of it and the truncation less than |b|, so together they move
the quotient by less than two ulps. -/
theorem abs_tdiv_floor_mul_sub_le {a b : Int} (hb : b ≤ -2 ^ 16 ∨ 2 ^ 16 ≤ b) :
    |(a * b / 2 ^ 16 * 2 ^ 16).tdiv b - a| ≤ 1 := by
  set p := a * b / 2 ^ 16 * 2 ^ 16
  have hb : 2 ^ 16 ≤ |b| := le_abs'.mpr (by simpa using hb)
  have floor : a * b - p = a * b % 2 ^ 16 := by have := Int.ediv_mul_add_emod (a * b) (2 ^ 16); omega
  have trunc : |p.tmod b| < |b| := by
    rw [Int.abs_eq_natAbs, Int.abs_eq_natAbs, Int.natAbs_tmod]
    exact_mod_cast Nat.mod_lt _ (by omega)
  have key : |p.tdiv b - a| * |b| < 2 * |b| := calc
    |p.tdiv b - a| * |b| = |a * b % 2 ^ 16 + p.tmod b| := by
      rw [← abs_mul, ← abs_neg, ← floor]
      congr 1
      linear_combination -Int.mul_tdiv_add_tmod p b
    _ ≤ |a * b % 2 ^ 16| + |p.tmod b| := abs_add_le _ _
    _ < 2 * |b| := by rw [abs_of_nonneg (by omega)]; omega
  have := lt_of_mul_lt_mul_right key (abs_nonneg b)
  omega

theorem toInt_narrow_of_ov {r : Int} (h : (narrow r).flags.ov = false) : (narrow r).val.toInt = r :=
  narrow_toInt (by simpa using h)

/-- Negating the dividend negates the exact quotient, and so the wrapped one. -/
theorem fxDiv_fxNeg (hb : b ≠ 0#32) (ha : (fxNeg a).flags.ov = false) :
    (fxDiv (fxNeg a).val b).val = (fxNeg (fxDiv a b).val).val := by
  have hb' : b.toInt ≠ 0 := fun e => hb (BitVec.eq_of_toInt_eq e)
  have hneg : (fxNeg a).val.toInt = -a.toInt := toInt_narrow_of_ov ha
  rw [fxNeg_val (fxDiv a b).val, fxDiv_of_ne hb', fxDiv_of_ne hb', hneg, narrow_val, narrow_val, Int.neg_mul,
    Int.neg_tdiv, BitVec.ofInt_neg]

/-- Settles O26: without overflow both results are the exact ones. -/
theorem fxQuotientOfProduct : Obligations.FxQuotientOfProduct := by
  refine ⟨fun a b hb hmul hdiv => ?_, fun a b hb ha _ => fxDiv_fxNeg hb ha⟩
  have prod : (fxMul a b).val.toInt = a.toInt * b.toInt / 2 ^ 16 := toInt_narrow_of_ov hmul
  rw [fxDiv_of_ne (by omega), prod] at hdiv ⊢
  rw [toInt_narrow_of_ov hdiv]
  exact (abs_le.mp (abs_tdiv_floor_mul_sub_le hb)).symm

end Sys2Proof.Machine
end

section
/-! PROOFS. The complex product (41_complex.md R162): it commutes and `ONE_C` is its exact unit. -/

namespace Sys2Proof.Machine

theorem fxAdd_comm (a b : Word) : fxAdd a b = fxAdd b a := by rw [fxAdd, fxAdd, Int.add_comm]

theorem fxMul_comm (a b : Word) : fxMul a b = fxMul b a := by rw [fxMul, fxMul, Int.mul_comm]

theorem fxAdd_zero (a : Word) : fxAdd a 0#32 = plain a := by
  rw [fxAdd, BitVec.toInt_zero, Int.add_zero, narrow_toInt_eq_plain]

theorem fxSub_zero (a : Word) : fxSub a 0#32 = plain a := by
  rw [fxSub, BitVec.toInt_zero, Int.sub_zero, narrow_toInt_eq_plain]

theorem fxMul_zero (a : Word) : fxMul a 0#32 = plain 0#32 := by
  rw [fxMul, BitVec.toInt_zero, Int.mul_zero, Int.zero_ediv]
  rfl

theorem fxAdd_zero_left (a : Word) : fxAdd 0#32 a = plain a := by rw [fxAdd_comm, fxAdd_zero]

/-- The parts of a product come from the same four products in either order. -/
theorem cxMul_comm (x y : Cx) : cxMul x y = cxMul y x := by
  simp only [cxMul, fxMul_comm x.re, fxMul_comm x.im, fxAdd_comm (fxMul y.im x.re).val, Flagged.mk.injEq, true_and]
  apply Flags.eq_of
  · simp only [Flags.all_ov, List.any_cons]
    ac_rfl
  · simp only [Flags.all_dz, List.any_cons]
    ac_rfl

theorem cxMul_one (x : Cx) : cxMul x .one = ⟨x, .none⟩ := by
  simp only [cxMul, Cx.one, fxMul_one, fxMul_zero, plain_val, fxSub_zero, fxAdd_zero_left]
  rfl

/-- One ulp halved is 0, so the order of a product by 0.5 and by 2.0 counts. -/
theorem cxMul_not_assoc : ∃ x y z : Cx, (cxMul (cxMul x y).val z).val ≠ (cxMul x (cxMul y z).val).val :=
  ⟨⟨1#32, 0#32⟩, ⟨0x8000#32, 0#32⟩, ⟨0x20000#32, 0#32⟩, by decide⟩

theorem cxMul_ov (x y : Cx) : (cxMul x y).flags.ov =
    ((fxMul x.re y.re).flags.ov || (fxMul x.im y.im).flags.ov || (fxMul x.re y.im).flags.ov ||
      (fxMul x.im y.re).flags.ov || (fxSub (fxMul x.re y.re).val (fxMul x.im y.im).val).flags.ov ||
      (fxAdd (fxMul x.re y.im).val (fxMul x.im y.re).val).flags.ov) := by
  simp only [cxMul, Flags.all_ov, List.any_cons, List.any_nil, Bool.or_false, Bool.or_assoc]

/-- Settles O28: CX.MUL is one `doneZ` of `cxMul`, whose laws are those above. -/
theorem cxMulProduct : Obligations.CxMulProduct := by
  refine ⟨fun s zd za zb => ?_, cxMul_comm, fun x => ⟨cxMul_comm .one x ▸ cxMul_one x, cxMul_one x⟩, cxMul_not_assoc⟩
  have mul := completesZ_of_doneZ (i := .cxMul zd za zb) (s := s) (x := cxMul (s.getZ za) (s.getZ zb)) rfl
  rw [cxMul_ov] at mul
  exact mul

end Sys2Proof.Machine
end

section
/-! PROOFS. The commands of the complex unit (41_complex.md): each is one `doneZ` or `doneF` of a composition of the
fixed-point functions, from which it takes its flags; and MOB.APPLY (42_mobius.md R180, R190) as a quotient of them. -/

namespace Sys2Proof.Machine

variable {i : Instr} {s : State} {zd : ZReg} {a b : Word} {y v : Cx}

/-! ## Completing with given flags, or without any -/

theorem completesZ_of_flags {x : Flagged Cx} {ov dz : Bool} (h : exec i s = doneZ s zd x) (hov : x.flags.ov = ov)
    (hdz : x.flags.dz = dz) : CompletesZ i s zd x.val ov dz := by
  subst hov hdz
  exact completesZ_of_doneZ h

theorem completesZ_of_plain (h : exec i s = doneZ s zd (plain v)) : CompletesZ i s zd v false false :=
  completesZ_of_doneZ h

/-! ## The flags of the fixed-point functions (R120 to R124) -/

theorem fxNeg_ov (a : Word) : (fxNeg a).flags.ov = decide (a = 0x80000000#32) := by
  rw [fxNeg, narrow_ov, not_inRange_eq_outOfRange, outOfRange_neg_toInt]

@[simp] theorem fxAdd_dz (a b : Word) : (fxAdd a b).flags.dz = false := narrow_dz _
@[simp] theorem fxSub_dz (a b : Word) : (fxSub a b).flags.dz = false := narrow_dz _
@[simp] theorem fxMul_dz (a b : Word) : (fxMul a b).flags.dz = false := narrow_dz _

theorem fxDiv_dz (a b : Word) : (fxDiv a b).flags.dz = decide (b = 0#32) := by
  by_cases hb : b = 0#32
  · rw [hb, fxDiv_zero BitVec.toInt_zero]
    rfl
  · rw [fxDiv_of_ne fun e => hb (BitVec.eq_of_toInt_eq e), narrow_dz, decide_eq_false hb]

/-! ## CX.ADD, CX.SUB and CX.CONJ (R160, R161, R164) -/

@[simp] theorem pair_ov (re im : Flagged Word) : (pair re im).flags.ov = (re.flags.ov || im.flags.ov) := rfl
@[simp] theorem pair_dz (re im : Flagged Word) : (pair re im).flags.dz = (re.flags.dz || im.flags.dz) := rfl

@[simp] theorem cxAdd_dz (x y : Cx) : (cxAdd x y).flags.dz = false := by simp [cxAdd]
@[simp] theorem cxSub_dz (x y : Cx) : (cxSub x y).flags.dz = false := by simp [cxSub]

theorem cxConj_ov (x : Cx) : (cxConj x).flags.ov = decide (x.im = 0x80000000#32) := by simp [cxConj, fxNeg_ov]

/-- Settles O27: the sums' flags are their parts', and negating the imaginary part overflows at 0x80000000 alone. -/
theorem cxAddSubAndConj : Obligations.CxAddSubAndConj := fun s _ za zb =>
  ⟨completesZ_of_flags (x := cxAdd (s.getZ za) (s.getZ zb)) rfl (pair_ov _ _) (cxAdd_dz _ _),
    completesZ_of_flags (x := cxSub (s.getZ za) (s.getZ zb)) rfl (pair_ov _ _) (cxSub_dz _ _),
    completesZ_of_flags (x := cxConj (s.getZ za)) rfl (cxConj_ov _) rfl⟩

/-! ## CX.GUARD, CX.PACK, CX.RE and CX.IM (R166, R172 to R175) -/

/-- Settles O30: the four results are patterns without flags. -/
theorem cxGuardPackReAndIm : Obligations.CxGuardPackReAndIm := fun _ _ _ _ _ _ =>
  ⟨completesZ_of_plain rfl, completesZ_of_plain rfl, completesF_of_plain rfl, completesF_of_plain rfl⟩

/-! ## CX.DIV (R163, R176) -/

/-- `n = |y|²`, the one divisor of both parts of a complex quotient (R163). -/
def cxNorm (y : Cx) : Flagged Word := fxAdd (fxMul y.re y.re).val (fxMul y.im y.im).val

/-- Only the two divisions can set DZ, and both divide by `n`. -/
theorem cxDiv_dz (x y : Cx) : (cxDiv x y).flags.dz = decide ((cxNorm y).val = 0#32) := by
  rw [cxNorm]
  simp [cxDiv, fxDiv_dz]

/-- What a division by zero leaves (40_fixed_point.md R123). -/
def Saturated (v : Word) : Prop := v = 0x7FFFFFFF#32 ∨ v = 0x80000000#32

theorem fxDiv_saturated (hb : b = 0#32) : Saturated (fxDiv a b).val := by
  rw [hb, fxDiv_zero BitVec.toInt_zero]
  exact ite_eq_or_eq _ _ _

/-- Where `n` is zero, both parts take the zero-divisor path. -/
theorem cxDiv_of_norm_zero (x : Cx) (h : (cxNorm y).val = 0#32) :
    (cxDiv x y).flags.dz = true ∧ Saturated (cxDiv x y).val.re ∧ Saturated (cxDiv x y).val.im :=
  ⟨(cxDiv_dz x y).trans (decide_eq_true h), fxDiv_saturated h, fxDiv_saturated h⟩

/-- The square of a value below 2^−8 is below one ulp. -/
theorem fxMul_self_tiny (hl : -256 < a.toInt) (hu : a.toInt < 256) : fxMul a a = plain 0#32 := by
  have hsq : a.toInt * a.toInt / 2 ^ 16 = 0 := Int.ediv_eq_zero_of_lt (mul_self_nonneg _) (by nlinarith)
  rw [fxMul, hsq]
  rfl

theorem cxNorm_tiny (hrl : -256 < y.re.toInt) (hru : y.re.toInt < 256) (hil : -256 < y.im.toInt)
    (hiu : y.im.toInt < 256) : (cxNorm y).val = 0#32 := by
  rw [cxNorm, fxMul_self_tiny hrl hru, fxMul_self_tiny hil hiu]
  rfl

/-- Settles O29: CX.DIV is one `doneZ` of `cxDiv`, and a tiny divisor has the norm 0. -/
theorem cxDivQuotient : Obligations.CxDivQuotient := by
  refine ⟨fun s zd za zb => ?_, fun x y hrl hru hil hiu => cxDiv_of_norm_zero x (cxNorm_tiny hrl hru hil hiu)⟩
  refine completesZ_of_flags (x := cxDiv (s.getZ za) (s.getZ zb)) rfl ?_ (cxDiv_dz _ _)
  simp only [cxDiv, Flags.all_ov, List.any_cons, List.any_nil, Bool.or_false, Bool.or_assoc]

/-! ## `ZERO_C` and `ONE_C` in sums, products and quotients -/

theorem cxAdd_zero (x : Cx) : cxAdd x .zero = plain x := by simp only [cxAdd, Cx.zero, fxAdd_zero]; rfl

theorem cxAdd_zero_left (x : Cx) : cxAdd .zero x = plain x := by simp only [cxAdd, Cx.zero, fxAdd_zero_left]; rfl

theorem cxMul_one_left (x : Cx) : cxMul .one x = plain x := (cxMul_comm .one x).trans (cxMul_one x)

theorem cxMul_zero_left (x : Cx) : cxMul .zero x = plain .zero := by
  rw [cxMul_comm]
  simp only [cxMul, Cx.zero, fxMul_zero, plain_val, fxSub_zero, fxAdd_zero]
  rfl

theorem fxDiv_one (a : Word) : fxDiv a oneFx = plain a := by
  rw [fxDiv_of_ne (by decide), toInt_oneFx, Int.mul_tdiv_cancel _ (by decide), narrow_toInt_eq_plain]

/-- Dividing by 1.0 is exact: its norm is 1.0, and the numerators are the parts of the dividend. -/
theorem cxDiv_one (x : Cx) : cxDiv x .one = plain x := by
  simp only [cxDiv, Cx.one, fxMul_one, fxMul_zero, plain_val, fxAdd_zero, fxSub_zero, fxDiv_one]
  rfl

/-! ## MOB.APPLY (42_mobius.md R180, R190) -/

@[simp] theorem cxMul_dz (x y : Cx) : (cxMul x y).flags.dz = false := by simp [cxMul]

@[simp] theorem cxMulAdd_dz (u v w : Cx) : (cxMulAdd u v w).flags.dz = false := by simp [cxMulAdd]

/-- Only the division sets DZ. -/
theorem mobApply_dz (t : Mob) (z : Cx) : (mobApply t z).flags.dz =
    (cxDiv (cxMulAdd t.a z t.b).val (cxGuard (cxMulAdd t.c z t.d).val)).flags.dz := by simp [mobApply]

/-- Numerator and denominator of the identity are `z` and `ONE_C`, which the guard lets through. -/
theorem mobApply_identity (z : Cx) : mobApply .identity z = plain z := by
  have num : cxMulAdd .one z .zero = plain z := by simp only [cxMulAdd, cxMul_one_left, plain_val, cxAdd_zero]; rfl
  have den : cxMulAdd .zero z .one = plain .one := by
    simp only [cxMulAdd, cxMul_zero_left, plain_val, cxAdd_zero_left]; rfl
  have guard : cxGuard .one = .one := by decide
  simp only [mobApply, Mob.identity, num, den, plain_val, guard, cxDiv_one]
  rfl

/-- The guard's one ulp in each part is still a tiny divisor (41_complex.md R176). -/
theorem cxNorm_guard_zero : (cxNorm (cxGuard .zero)).val = 0#32 := by decide

/-- Settles O34: a pole is a division by the guarded zero, whose norm is still 0. -/
theorem mobApplication : Obligations.MobApplication := by
  refine ⟨fun s zd ma zs => ?_, mobApply_identity, fun t z pole => ?_⟩
  · refine completesZ_of_flags (x := mobApply (s.getM ma) (s.getZ zs)) rfl ?_ (mobApply_dz _ _)
    simp only [mobApply, cxMulAdd, Flags.all_ov, Flags.or_ov, List.any_cons, List.any_nil, Bool.or_false, Bool.or_assoc]
  · have hden : (cxMulAdd t.c z t.d).val = .zero := pole
    rw [mobApply_dz]
    simp only [mobApply, hden]
    exact cxDiv_of_norm_zero _ cxNorm_guard_zero

end Sys2Proof.Machine
end

section
/-! PROOFS. The commands of the Möbius unit that construct, compose, invert and read a transform (42_mobius.md R181 to
R192): each is one `doneM`, `doneZ` or `doneF` of a composition of the complex functions. -/

namespace Sys2Proof.Machine

variable {i : Instr} {s : State} {md : MReg} {t v : Mob}

/-! ## Completing with given flags, or without any -/

theorem completesM_of_flags {x : Flagged Mob} {ov dz : Bool} (h : exec i s = doneM s md x) (hov : x.flags.ov = ov)
    (hdz : x.flags.dz = dz) : CompletesM i s md x.val ov dz := by
  subst hov hdz
  exact completesM_of_doneM h

theorem completesM_of_plain (h : exec i s = doneM s md (plain v)) : CompletesM i s md v false false :=
  completesM_of_doneM h

/-! ## MOB.SET, MOB.ID and MOB.HYP (R183, R185 to R187) -/

theorem mobHyp_ov (z : Cx) :
    (mobHyp z).flags.ov = (decide (z.re = 0x80000000#32) || decide (z.im = 0x80000000#32)) := by
  rw [← fxNeg_ov, ← fxNeg_ov]
  rfl

/-- Settles O31: two values without flags, and the isometry, whose two negations overflow at 0x80000000 alone. -/
theorem mobSetIdAndHyp : Obligations.MobSetIdAndHyp := fun s _ _ _ _ _ zs =>
  ⟨completesM_of_plain rfl, completesM_of_plain rfl,
    completesM_of_flags (x := mobHyp (s.getZ zs)) rfl (mobHyp_ov _) rfl⟩

/-! ## MOB.GET and MOB.ISID (R191, R192) -/

theorem zeroExtend_ofBool (b : Bool) :
    (BitVec.ofBool b).zeroExtend 32 = if b then 0x00000001#32 else 0x00000000#32 := by
  cases b <;> rfl

/-- Settles O35: the coefficient that each index selects, and the stored bit as a word. -/
theorem mobGetAndIsid : Obligations.MobGetAndIsid := by
  intro s zd fd ma
  rw [← zeroExtend_ofBool]
  exact ⟨completesZ_of_plain rfl, completesZ_of_plain rfl, completesZ_of_plain rfl, completesZ_of_plain rfl,
    completesF_of_plain rfl⟩

/-! ## MOB.COMP (R181, R188) -/

@[simp] theorem cxDot_dz (p q r w : Cx) : (cxDot p q r w).flags.dz = false := by simp [cxDot]

theorem cxDot_ov (p q r w : Cx) : (cxDot p q r w).flags.ov =
    ((cxMul p q).flags.ov || (cxMul r w).flags.ov || (cxAdd (cxMul p q).val (cxMul r w).val).flags.ov) := by
  simp [cxDot, Bool.or_assoc]

theorem mobCompose_ov (t u : Mob) : (mobCompose t u).flags.ov =
    ((cxDot t.a u.a t.b u.c).flags.ov || (cxDot t.a u.b t.b u.d).flags.ov || (cxDot t.c u.a t.d u.c).flags.ov ||
      (cxDot t.c u.b t.d u.d).flags.ov) := by
  simp [mobCompose, Bool.or_assoc]

@[simp] theorem mobCompose_dz (t u : Mob) : (mobCompose t u).flags.dz = false := by simp [mobCompose]

theorem cxMul_zero (x : Cx) : cxMul x .zero = plain .zero := (cxMul_comm x .zero).trans (cxMul_zero_left x)

/-! An entry of a product with the identity is one coefficient, plus an exact zero. -/

theorem cxDot_one_zero (x y : Cx) : cxDot x .one y .zero = plain x := by
  simp only [cxDot, cxMul_one, cxMul_zero, plain_val, cxAdd_zero]
  rfl

theorem cxDot_zero_one (x y : Cx) : cxDot x .zero y .one = plain y := by
  simp only [cxDot, cxMul_one, cxMul_zero, plain_val, cxAdd_zero_left]
  rfl

theorem cxDot_comm (p q r w : Cx) : cxDot p q r w = cxDot q p w r := by
  simp only [cxDot, cxMul_comm p q, cxMul_comm r w]

theorem mobCompose_identity_right (t : Mob) :
    mobCompose t .identity = plain ⟨t.a, t.b, t.c, t.d, false⟩ := by
  simp only [mobCompose, Mob.identity, cxDot_one_zero, cxDot_zero_one]
  rfl

theorem mobCompose_identity_left (t : Mob) :
    mobCompose .identity t = plain ⟨t.a, t.b, t.c, t.d, false⟩ := by
  simp only [mobCompose, Mob.identity, cxDot_comm .one, cxDot_comm .zero, cxDot_one_zero, cxDot_zero_one]
  rfl

/-- Settles O32: MOB.COMP is one `doneM` of `mobCompose`, whose entries the identity leaves alone. -/
theorem mobComposition : Obligations.MobComposition := by
  refine ⟨fun s md ma mb => ?_, fun t => ⟨mobCompose_identity_right t, mobCompose_identity_left t⟩⟩
  refine completesM_of_flags (x := mobCompose (s.getM ma) (s.getM mb)) rfl ?_ (mobCompose_dz _ _)
  simp only [mobCompose_ov, cxDot_ov]

/-! ## MOB.INV (R182, R189) -/

theorem mobDet_ov (t : Mob) : (mobDet t).flags.ov = ((cxMul t.a t.d).flags.ov || (cxMul t.b t.c).flags.ov ||
    (cxSub (cxMul t.a t.d).val (cxMul t.b t.c).val).flags.ov) := by
  simp [mobDet, Bool.or_assoc]

@[simp] theorem mobDet_dz (t : Mob) : (mobDet t).flags.dz = false := by simp [mobDet]

@[simp] theorem cxNeg_dz (x : Cx) : (cxNeg x).flags.dz = false := rfl

theorem mobInvert_of_zero (h : (mobDet t).val = .zero) : mobInvert t = ⟨.identity, (mobDet t).flags⟩ := if_pos h

theorem mobInvert_of_ne (h : (mobDet t).val ≠ .zero) : mobInvert t =
    ⟨⟨(cxDiv t.d (mobDet t).val).val, (cxDiv (cxNeg t.b).val (mobDet t).val).val,
        (cxDiv (cxNeg t.c).val (mobDet t).val).val, (cxDiv t.a (mobDet t).val).val, false⟩,
      Flags.all [(mobDet t).flags, (cxNeg t.b).flags, (cxNeg t.c).flags, (cxDiv t.d (mobDet t).val).flags,
        (cxDiv (cxNeg t.b).val (mobDet t).val).flags, (cxDiv (cxNeg t.c).val (mobDet t).val).flags,
        (cxDiv t.a (mobDet t).val).flags]⟩ := if_neg h

/-- Settles O33, branch by branch of the test on the determinant. -/
theorem mobInversion : Obligations.MobInversion := by
  intro s md ma
  have inv : exec (.mobInv md ma) s = doneM s md (mobInvert (s.getM ma)) := rfl
  refine ⟨fun hz => ?_, fun hne => ?_⟩
  · rw [mobInvert_of_zero hz] at inv
    exact completesM_of_flags inv (mobDet_ov _) (mobDet_dz _)
  · rw [mobInvert_of_ne hne] at inv
    refine completesM_of_flags inv ?_ ?_
    · simp only [Flags.all_ov, List.any_cons, List.any_nil, Bool.or_false, mobDet_ov, Bool.or_assoc]
      rfl
    · simp only [Flags.all_dz, List.any_cons, List.any_nil, Bool.or_false, mobDet_dz, cxNeg_dz, Bool.false_or,
        Bool.or_assoc]
      rfl

end Sys2Proof.Machine
end

section
/-! PROOFS. Where a set `isId` comes from (42_mobius.md R184): the identity itself, or a copy; what is composed, set or
inverted by quotients has `isId = 0` (R181 to R187, 43_blaschke.md R205, R206). -/

namespace Sys2Proof.Machine

variable {i : Instr} {s t : State}

/-! ## The register that a completing command writes -/

theorem getM_of_doneM {r : MReg} {x : Flagged Mob} (h : doneM s r x = .next t) : t.getM r = x.val := by
  obtain rfl := doneM_next.mp h
  exact State.getM_setM_self s r x.val

theorem getB_of_doneB {r : BReg} {x : Flagged Slot} (h : doneB s r x = .next t) : t.getB r = x.val := by
  obtain rfl := doneB_next.mp h
  exact State.getB_setB_self s r x.val

/-! ## `isId` of what the units compute -/

/-- Only the degenerate case of MOB.INV gives the identity. -/
theorem mobDet_zero_of_mobInvert_isId {m : Mob} (h : (mobInvert m).val.isId = true) : (mobDet m).val = .zero := by
  by_contra hne
  rw [mobInvert_of_ne hne] at h
  exact Bool.false_ne_true h

theorem blRcomp_factor (x : Slot) (m : Mob) (k : Fin 6) :
    (blRcomp x m).val.factor[k] = if k.val < x.count then (mobCompose x.factor[k] m).val else x.factor[k] := by
  simp [blRcomp]

/-- BL.RCOMP leaves `isId` set only in the inactive factors. -/
theorem isId_of_blRcomp_factor {x : Slot} {m : Mob} {k : Fin 6} (h : (blRcomp x m).val.factor[k].isId = true) :
    x.factor[k].isId = true ∧ x.count ≤ k.val := by
  rw [blRcomp_factor] at h
  split at h
  · exact absurd h Bool.false_ne_true
  · exact ⟨h, by omega⟩

/-- A factor after an append is the old one or the value appended, whatever the count. -/
theorem blAppend_factor_cases (x : Slot) (m : Mob) (k : Fin 6) :
    (blAppend x m).factor[k] = x.factor[k] ∨ (blAppend x m).factor[k] = m := by
  rw [blAppend_factor]
  exact (ite_eq_or_eq _ _ _).symm

/-- A factor after the appends of BL.MUL is the old one or one of those appended. -/
theorem blAppendAll_factor_cases (x : Slot) (ms : List Mob) (k : Fin 6) :
    (blAppendAll x ms).factor[k] = x.factor[k] ∨ (blAppendAll x ms).factor[k] ∈ ms := by
  induction ms generalizing x with
  | nil => exact .inl rfl
  | cons m ms ih =>
    rw [blAppendAll_cons]
    rcases ih (blAppend x m) with old | new
    · rw [old, List.mem_cons]
      exact (blAppend_factor_cases x m k).imp_right .inl
    · exact .inr (List.mem_cons_of_mem m new)

theorem exists_factor_of_mem_activeFactors {x : Slot} {m : Mob} (h : m ∈ activeFactors x) :
    ∃ j : Fin 6, x.factor[j] = m := by
  obtain ⟨j, hj, e⟩ := Vector.mem_iff_getElem.mp (Vector.mem_toList_iff.mp (List.mem_of_mem_take h))
  exact ⟨⟨j, hj⟩, e⟩

/-! ## The three places of a Möbius value -/

/-- The M register that a command writes has `isId = 1`. -/
theorem exec_getM_isId {q : MReg} (h : exec i s = .next t) (hd : destM i = some q) (hid : (t.getM q).isId = true) :
    i = .mobId q ∨ (∃ ma, i = .mobInv q ma ∧ (mobDet (s.getM ma)).val = .zero) ∨
      (∃ (b : BReg) (k : Fin 6), i = .blGetf q b k ∧ (s.getB b).factor[k].isId = true) ∨
      (∃ b, i = .blFrame q b ∧ (s.getB b).frame.isId = true) := by
  cases i with
  | mobId => cases hd; exact .inl rfl
  | mobInv md ma =>
    cases hd
    rw [getM_of_doneM h] at hid
    exact .inr (.inl ⟨ma, rfl, mobDet_zero_of_mobInvert_isId hid⟩)
  | blGetf md b k => cases hd; rw [getM_of_doneM h] at hid; exact .inr (.inr (.inl ⟨b, k, rfl, hid⟩))
  | blFrame md b => cases hd; rw [getM_of_doneM h] at hid; exact .inr (.inr (.inr ⟨b, rfl, hid⟩))
  | mobSet | mobHyp | mobComp => cases hd; rw [getM_of_doneM h] at hid; exact absurd hid Bool.false_ne_true
  | _ => exact nomatch hd

/-- A factor of the slot that a command writes has `isId = 1`. -/
theorem exec_factor_isId {q : BReg} {k : Fin 6} (h : exec i s = .next t) (hd : destB i = some q)
    (hid : (t.getB q).factor[k].isId = true) :
    ((s.getB q).factor[k].isId = true ∧ ∀ ma, i = .blRcomp q ma → (s.getB q).count ≤ k.val) ∨ i = .blClr q ∨
      (∃ ma, i = .blAppend q ma ∧ (s.getM ma).isId = true) ∨
      (∃ (b : BReg) (j : Fin 6), i = .blMul q b ∧ (s.getB b).factor[j].isId = true) := by
  cases i with
  | blClr => cases hd; exact .inr (.inl rfl)
  | blAppend b ma =>
    cases hd
    rw [getB_of_doneB h] at hid
    obtain e | e := blAppend_factor_cases (s.getB q) (s.getM ma) k <;> rw [plain_val, e] at hid
    · exact .inl ⟨hid, nofun⟩
    · exact .inr (.inr (.inl ⟨ma, rfl, hid⟩))
  | blMul bd bs =>
    cases hd
    rw [getB_of_doneB h, plain_val] at hid
    obtain e | hmem := blAppendAll_factor_cases (s.getB q) (activeFactors (s.getB bs)) k
    · exact .inl ⟨e ▸ hid, nofun⟩
    · obtain ⟨j, e⟩ := exists_factor_of_mem_activeFactors hmem
      exact .inr (.inr (.inr ⟨bs, j, rfl, e ▸ hid⟩))
  | blRcomp b ma =>
    cases hd
    rw [getB_of_doneB h] at hid
    obtain ⟨old, inactive⟩ := isId_of_blRcomp_factor hid
    exact .inl ⟨old, fun _ _ => inactive⟩
  | blLcomp b ma => cases hd; rw [getB_of_doneB h] at hid; exact .inl ⟨hid, nofun⟩
  | _ => exact nomatch hd

/-- The frame of the slot that a command writes has `isId = 1`. -/
theorem exec_frame_isId {q : BReg} (h : exec i s = .next t) (hd : destB i = some q)
    (hid : (t.getB q).frame.isId = true) :
    ((s.getB q).frame.isId = true ∧ ∀ ma, i ≠ .blLcomp q ma) ∨ i = .blClr q := by
  cases i with
  | blClr => cases hd; exact .inr rfl
  | blLcomp => cases hd; rw [getB_of_doneB h] at hid; exact absurd hid Bool.false_ne_true
  | blAppend b ma => cases hd; rw [getB_of_doneB h, plain_val, blAppend_frame] at hid; exact .inl ⟨hid, nofun⟩
  | blMul bd bs => cases hd; rw [getB_of_doneB h, plain_val, blAppendAll_frame] at hid; exact .inl ⟨hid, nofun⟩
  | blRcomp b ma => cases hd; rw [getB_of_doneB h] at hid; exact .inl ⟨hid, nofun⟩
  | _ => exact nomatch hd

/-- Settles O14: a register or slot that is not the destination is as it was, and the destination has `isId = 1` only
in the cases of the three lemmas above. -/
theorem onlyTheIdentityConstructorsSetIsId : Obligations.OnlyTheIdentityConstructorsSetIsId := by
  intro i s t h
  have e := exec_effect h
  refine ⟨fun q hid => ?_, fun q k hid => ?_, fun q hid => ?_⟩
  · by_cases hd : destM i = some q
    · exact .inr (exec_getM_isId h hd hid)
    · exact .inl ⟨hd, e.getM_frame hd ▸ hid⟩
  · by_cases hd : destB i = some q
    · exact exec_factor_isId h hd hid
    · rw [e.getB_frame hd] at hid
      exact .inl ⟨hid, fun _ hi => absurd (hi ▸ rfl) hd⟩
  · by_cases hd : destB i = some q
    · exact exec_frame_isId h hd hid
    · rw [e.getB_frame hd] at hid
      exact .inl ⟨hid, fun _ hi => hd (hi ▸ rfl)⟩

end Sys2Proof.Machine
end

section
/-! PROOFS. The commands of the Blaschke engine (43_blaschke.md): each is one `doneB`, `doneZ`, `doneM` or `doneF` of
what its primitive function does to a slot, with the flags of the Möbius and complex functions that it composes. -/

namespace Sys2Proof.Machine

variable {i : Instr} {s : State} {b : BReg} {x v : Slot}

/-! ## Completing with given flags, or without any -/

theorem completesB_of_flags {y : Flagged Slot} {ov dz : Bool} (h : exec i s = doneB s b y) (hov : y.flags.ov = ov)
    (hdz : y.flags.dz = dz) : CompletesB i s b y.val ov dz := by
  subst hov hdz
  exact completesB_of_doneB h

theorem completesB_of_plain (h : exec i s = doneB s b (plain v)) : CompletesB i s b v false false :=
  completesB_of_doneB h

/-! ## BL.COUNT, BL.GETF and BL.FRAME (R208 to R210) -/

/-- Settles O40: the three results are parts of the slot, without flags. -/
theorem blCountGetfAndFrame : Obligations.BlCountGetfAndFrame := fun _ _ _ _ _ =>
  ⟨completesF_of_plain rfl, completesM_of_plain rfl, completesM_of_plain rfl⟩

/-! ## BL.CLR and BL.APPEND (R200, R202, R203) -/

theorem slotEmpty_ok : Slot.empty.ok := Nat.zero_le _

/-- Appended to an empty slot, the values stand in the factors from the first one on. -/
theorem blAppendAll_empty_factor {ts : List Mob} {k : Fin 6} (hk : k.val < ts.length) :
    some (blAppendAll .empty ts).factor[k] = ts[k.val]? := by
  have fromZero : Slot.empty.count = 0 := rfl
  rw [blAppendAll_factor ts slotEmpty_ok, fromZero, if_pos (Nat.zero_le _), Nat.sub_zero,
    List.getElem?_eq_getElem hk, Option.getD_some]

/-- Settles O36: one append below the capacity and at it, and eight appends to the empty slot. -/
theorem blClearAndAppend : Obligations.BlClearAndAppend := by
  refine ⟨fun s b ma => ⟨completesB_of_plain rfl, fun hlt => ?_, fun hfull => ?_⟩, fun ts hlen => ⟨?_, fun k => ?_⟩⟩
  · refine ⟨blAppend (s.getB b) (s.getM ma), completesB_of_plain rfl, ?_, blAppend_frame _ _, fun k => ?_⟩
    · rw [blAppend_of_lt _ hlt]
    · simp only [blAppend_factor, eq_comm]
  · have append : exec (.blAppend b ma) s = doneB s b (plain (blAppend (s.getB b) (s.getM ma))) := rfl
    rw [blAppend_of_full _ (Nat.not_lt.mpr hfull)] at append
    exact completesB_of_plain append
  · exact (blAppendAll_count ts slotEmpty_ok).trans (by rw [hlen]; rfl)
  · exact blAppendAll_empty_factor (by omega)

/-! ## BL.RCOMP and BL.LCOMP (R205, R206) -/

/-- The active factors are those below `count`; a count above the capacity adds none. -/
theorem mem_activeFactors {t : Mob} : t ∈ activeFactors x ↔ ∃ k : Fin 6, k.val < x.count ∧ x.factor[k] = t := by
  simp only [activeFactors, List.mem_take_iff_getElem, Vector.length_toList, Vector.getElem_toList, lt_min_iff]
  constructor
  · rintro ⟨j, ⟨hj, h6⟩, e⟩
    exact ⟨⟨j, h6⟩, hj, e⟩
  · rintro ⟨k, hk, e⟩
    exact ⟨k, ⟨hk, k.isLt⟩, e⟩

theorem rcompFlags_ov (m : Mob) (ts : List Mob) :
    (rcompFlags m ts).ov = ts.any fun t => (mobCompose t m).flags.ov := by
  induction ts with
  | nil => rfl
  | cons t ts ih => rw [rcompFlags, Flags.or_ov, ih, List.any_cons]

theorem rcompFlags_dz (m : Mob) (ts : List Mob) : (rcompFlags m ts).dz = false := by
  induction ts with
  | nil => rfl
  | cons t ts ih => rw [rcompFlags, Flags.or_dz, ih, mobCompose_dz, Bool.or_false]

theorem blRcomp_ov (x : Slot) (m : Mob) : (blRcomp x m).flags.ov = true ↔
    ∃ k : Fin 6, k.val < x.count ∧ (mobCompose x.factor[k] m).flags.ov = true := by
  simp only [blRcomp, rcompFlags_ov, List.any_eq_true, mem_activeFactors, exists_exists_and_eq_and]

/-- Settles O38: the new slots are those of `blRcomp` and `blLcomp`, and no composition sets DZ. -/
theorem blCompositions : Obligations.BlCompositions := by
  intro s b ma
  refine ⟨⟨(blRcomp (s.getB b) (s.getM ma)).val, (blRcomp (s.getB b) (s.getM ma)).flags.ov,
    completesB_of_flags rfl rfl (rcompFlags_dz _ _), rfl, rfl, blRcomp_factor _ _, blRcomp_ov _ _⟩, ?_⟩
  exact completesB_of_flags (y := blLcomp (s.getB b) (s.getM ma)) rfl rfl (mobCompose_dz _ _)

/-! ## BL.EVAL (R201, R207) -/

theorem Flags.none_or (f : Flags) : Flags.none.or f = f := rfl

theorem Flags.or_none (f : Flags) : f.or .none = f := Flags.eq_of (Bool.or_false _) (Bool.or_false _)

/-- One factor of the product at `z`: the running product on the left; the multiplication cannot set DZ. -/
def blFactorStep (z : Cx) (p : Flagged Cx) (t : Mob) : Flagged Cx :=
  let f := mobApply t z
  let q := cxMul p.val f.val
  ⟨q.val, ⟨p.flags.ov || f.flags.ov || q.flags.ov, p.flags.dz || f.flags.dz⟩⟩

theorem blProduct_cons (z : Cx) (t : Mob) (ts : List Mob) (p : Flagged Cx) :
    blProduct z (t :: ts) p = blProduct z ts (blFactorStep z p t) := by
  have flags : Flags.all [p.flags, (mobApply t z).flags, (cxMul p.val (mobApply t z).val).flags] =
      (blFactorStep z p t).flags :=
    Flags.eq_of (by simp [blFactorStep, Bool.or_assoc]) (by simp [blFactorStep])
  rw [blProduct, flags]
  rfl

theorem blProduct_eq_foldl (z : Cx) (ts : List Mob) (p : Flagged Cx) :
    blProduct z ts p = ts.foldl (blFactorStep z) p := by
  induction ts generalizing p with
  | nil => rfl
  | cons t ts ih => rw [blProduct_cons, ih, List.foldl_cons]

/-- From `ONE_C` the first factor's value and flags are the product's so far. -/
theorem blFactorStep_one (z : Cx) (t : Mob) : blFactorStep z (plain .one) t = mobApply t z := by
  simp [blFactorStep, cxMul_one_left]

theorem blEval_of_count_zero (hx : x.count = 0) (z : Cx) : blEval x z = mobApply x.frame .one := by
  have noFactor : activeFactors x = [] := by rw [activeFactors, hx, List.take_zero]
  simp only [blEval, noFactor, blProduct, plain_val, plain_flags, Flags.none_or]

theorem activeFactors_of_count_one (hx : x.count = 1) : activeFactors x = [x.factor[0]] := by
  rw [activeFactors, hx, List.take_one, List.head?_eq_getElem?, Vector.getElem?_toList]
  rfl

theorem blEval_of_count_one (hx : x.count = 1) (hframe : x.frame = .identity) (z : Cx) :
    blEval x z = mobApply x.factor[0] z := by
  rw [blEval, activeFactors_of_count_one hx, blProduct_cons, blFactorStep_one, hframe]
  simp only [blProduct, mobApply_identity, plain_val, plain_flags, Flags.or_none]

/-- Settles O39: the running product is a fold over the active factors; from it come the two corner cases. -/
theorem blEvaluation : Obligations.BlEvaluation := by
  refine ⟨fun s zd b zs => ?_, fun _ z hx => blEval_of_count_zero hx z, fun _ z hx hf => blEval_of_count_one hx hf z⟩
  have eval : exec (.blEval zd b zs) s = doneZ s zd (blEval (s.getB b) (s.getZ zs)) := rfl
  rw [blEval, blProduct_eq_foldl] at eval
  exact completesZ_of_doneZ eval

end Sys2Proof.Machine
end

section
/-! PROOFS. The pixel unit (44_sampler.md): the four corner weights sum to at most 1.0, so that the clamp of the blend
never acts; a sample sees its point through the two policy coordinates alone, one of each axis. -/

namespace Sys2Proof.Machine

variable {s : State} {fd : FReg} {zs : ZReg} {v : View} {w : Cx} {p00 p10 p01 p11 c u : Word} {x y : Nat}

/-! ## The weights (R220) -/

theorem weightOf_eq (u : Word) : weightOf u = u.toNat % 0x10000 := by
  rw [weightOf, extract_toNat, Nat.pow_zero, Nat.div_one]; rfl

/-- The exact products of the distances sum to 1.0, and each truncation loses less than one unit. -/
theorem cornerWeights_sum (hx : x ≤ 0x10000) (hy : y ≤ 0x10000) :
    let sum := cornerWeight (0x10000 - x) (0x10000 - y) + cornerWeight x (0x10000 - y) +
      cornerWeight (0x10000 - x) y + cornerWeight x y
    0xFFFD ≤ sum ∧ sum ≤ 0x10000 := by
  have products : (0x10000 - x) * (0x10000 - y) + x * (0x10000 - y) + (0x10000 - x) * y + x * y = 2 ^ 32 := by
    calc _ = ((0x10000 - x) + x) * ((0x10000 - y) + y) := by ring
      _ = 2 ^ 32 := by rw [Nat.sub_add_cancel hx, Nat.sub_add_cancel hy]; rfl
  simp only [cornerWeight]
  omega

theorem cornerWeight_zero_left (y : Nat) : cornerWeight 0 y = 0 := by rw [cornerWeight, Nat.zero_mul, Nat.zero_div]

theorem cornerWeight_zero_right (x : Nat) : cornerWeight x 0 = 0 := Nat.zero_div _

theorem cornerWeight_one_left (y : Nat) : cornerWeight 0x10000 y = y := Nat.mul_div_cancel_left y (by decide)

theorem cornerWeight_one_right (x : Nat) : cornerWeight x 0x10000 = x := Nat.mul_div_cancel x (by decide)

/-- Where one distance is zero nothing is truncated. -/
theorem cornerWeights_sum_of_zero (hx : x ≤ 0x10000) (hy : y ≤ 0x10000) (h : x = 0 ∨ y = 0) :
    cornerWeight (0x10000 - x) (0x10000 - y) + cornerWeight x (0x10000 - y) +
      cornerWeight (0x10000 - x) y + cornerWeight x y = 0x10000 := by
  obtain rfl | rfl := h
  · rw [Nat.sub_zero, cornerWeight_one_left, cornerWeight_one_left, cornerWeight_zero_left, cornerWeight_zero_left]
    omega
  · rw [Nat.sub_zero, cornerWeight_one_right, cornerWeight_one_right, cornerWeight_zero_right, cornerWeight_zero_right]
    omega

/-! ## The blend (R221, R224) -/

theorem chan_eq (p : Word) (c : Nat) : chan p c = p.toNat / 2 ^ (8 * c) % 256 := extract_toNat p (8 * c) 8

theorem chan_le (p : Word) (c : Nat) : chan p c ≤ 255 := by rw [chan_eq]; omega

/-- The weighted sum of a channel before rounding (R221). -/
def blendAcc (p00 p10 p01 p11 : Word) (x y c : Nat) : Nat :=
  chan p00 c * cornerWeight (0x10000 - x) (0x10000 - y) + chan p10 c * cornerWeight x (0x10000 - y) +
    chan p01 c * cornerWeight (0x10000 - x) y + chan p11 c * cornerWeight x y

theorem blendAcc_le (hx : x ≤ 0x10000) (hy : y ≤ 0x10000) (c : Nat) :
    blendAcc p00 p10 p01 p11 x y c ≤ 255 * 0x10000 := by
  have term (p : Word) (weight : Nat) : chan p c * weight ≤ 255 * weight := Nat.mul_le_mul_right _ (chan_le p c)
  calc blendAcc p00 p10 p01 p11 x y c
      ≤ 255 * cornerWeight (0x10000 - x) (0x10000 - y) + 255 * cornerWeight x (0x10000 - y) +
          255 * cornerWeight (0x10000 - x) y + 255 * cornerWeight x y :=
        Nat.add_le_add (Nat.add_le_add (Nat.add_le_add (term _ _) (term _ _)) (term _ _)) (term _ _)
    _ ≤ 255 * 0x10000 := by have := (cornerWeights_sum hx hy).2; omega

/-- The clamp never acts. -/
theorem blendChan_eq (hx : x ≤ 0x10000) (hy : y ≤ 0x10000) (c : Nat) :
    blendChan p00 p10 p01 p11 x y c = (blendAcc p00 p10 p01 p11 x y c + 0x8000) / 2 ^ 16 := by
  have bound := blendAcc_le (p00 := p00) (p10 := p10) (p01 := p01) (p11 := p11) hx hy c
  have rounded : (blendAcc p00 p10 p01 p11 x y c + 0x8000) / 2 ^ 16 ≤ 255 := by omega
  exact min_eq_right rounded

theorem chan_pxBlend (c : Fin 4) : chan (pxBlend p00 p10 p01 p11 x y) c = blendChan p00 p10 p01 p11 x y c := by
  have small : blendChan p00 p10 p01 p11 x y c < 2 ^ 8 := Nat.lt_succ_of_le (min_le_left _ _)
  have byte : byteOfWord (pxBlend p00 p10 p01 p11 x y) c = BitVec.ofNat 8 (blendChan p00 p10 p01 p11 x y c) := by
    rw [pxBlend, ← wordOfBytes, byteOfWord_wordOfBytes _ _ _ _ c.isLt]
    fin_cases c <;> rfl
  calc chan (pxBlend p00 p10 p01 p11 x y) c = (BitVec.ofNat 8 (blendChan p00 p10 p01 p11 x y c)).toNat :=
        congrArg BitVec.toNat byte
    _ = blendChan p00 p10 p01 p11 x y c := by
        rw [BitVec.toNat_ofNat, Nat.mod_eq_of_lt small]

/-- Settles O41: the sum of the weights bounds every channel, so the blend is the rounded sum. -/
theorem pxBlendChannels : Obligations.PxBlendChannels := by
  intro s fd fa fx fy p wx wy w00 w10 w01 w11
  have hx : wx ≤ 0x10000 := (Nat.mod_lt _ (by decide)).le
  have hy : wy ≤ 0x10000 := (Nat.mod_lt _ (by decide)).le
  refine ⟨cornerWeights_sum hx hy, cornerWeights_sum_of_zero hx hy, ?_, _, completesF_of_plain rfl, fun c => ?_⟩
  · rintro ⟨hx0, hy0⟩
    simp only [w00, w10, w01, w11, hx0, hy0]
    decide
  · rw [← chan_eq, weightOf_eq, weightOf_eq, chan_pxBlend, blendChan_eq hx hy]
    simp only [blendAcc, chan_eq]
    rfl

/-! ## PX.SAMPLE (R223, R225) -/

theorem sampleAdmitted_iff (p : Platform) (v : View) (w : Cx) :
    sampleAdmitted p v w = true ↔ ∀ a ∈ sampleAddrs v w, memAdmit p a = true := List.all_eq_true

theorem completesF_of_flags {i : Instr} {p : Flagged Word} {ov dz : Bool} (h : exec i s = doneF s fd p)
    (hov : p.flags.ov = ov) (hdz : p.flags.dz = dz) : CompletesF i s fd p.val ov dz := by
  subst hov hdz
  exact completesF_of_doneF h

theorem exec_pxSample_badConfig (h : s.view.srcOk = false) : exec (.pxSample fd zs) s = faulted s .badConfig := by
  simp [exec, execPxSample, h]

theorem exec_pxSample_misaligned (h : s.view.srcOk = true) (ha : aligned s.view.srcBase = false) :
    exec (.pxSample fd zs) s = faulted s .misaligned := by
  simp [exec, execPxSample, h, ha]

theorem exec_pxSample_busError (h : s.view.srcOk = true) (ha : aligned s.view.srcBase = true)
    (hm : sampleAdmitted s.platform s.view (s.getZ zs) = false) : exec (.pxSample fd zs) s = faulted s .busError := by
  simp [exec, execPxSample, h, ha, hm]

theorem exec_pxSample_ok (h : s.view.srcOk = true) (ha : aligned s.view.srcBase = true)
    (hm : sampleAdmitted s.platform s.view (s.getZ zs) = true) :
    exec (.pxSample fd zs) s = doneF s fd (pxSample s.mem s.view (s.getZ zs)) := by
  simp [exec, execPxSample, h, ha, hm]

/-- Settles O43: the three checks of `execPxSample`, in its order. -/
theorem pxSampleFaults : Obligations.PxSampleFaults := by
  intro s fd zs ok
  have legal : s.view.srcOk = true ↔ ok := (srcOk_iff s.view).trans and_assoc
  refine ⟨fun h => ?_, fun h h4 => ?_, fun h h4 ⟨a, ha, refused⟩ => ?_⟩
  · exact faults_of_faulted (exec_pxSample_badConfig (Bool.eq_false_iff.mpr (h ∘ legal.mp)))
  · have off : aligned s.view.srcBase = false := Bool.eq_false_iff.mpr (h4 ∘ (aligned_iff _).mp)
    exact faults_of_faulted (exec_pxSample_misaligned (legal.mpr h) off)
  · have notAll : sampleAdmitted s.platform s.view (s.getZ zs) = false :=
      List.all_eq_false.mpr ⟨a, ha, by simp [refused]⟩
    exact faults_of_faulted (exec_pxSample_busError (legal.mpr h) ((aligned_iff _).mpr h4) notAll)

/-! ## The steps of a sample (R222) -/

theorem policyCoord_eq_ite (p : Policy) (u : Word) :
    policyCoord p u = if p = .tile then u.toNat % 0x10000 else (min (max u.toInt 0) 0x10000).toNat := by
  cases p <;> rfl

theorem nextIndex_eq_ite (p : Policy) (b n : Nat) :
    nextIndex p b n = if p = .tile then (b + 1) % n else min (b + 1) (n - 1) := by
  cases p <;> rfl

/-- Settles O42: the checks pass, and the statement's steps are those of `samplePoint`. -/
theorem pxSampleCompletes : Obligations.PxSampleCompletes := by
  unfold Obligations.PxSampleCompletes
  simp only [← policyCoord_eq_ite, ← nextIndex_eq_ite]
  intro s fd zs hw2 hw hh2 hh h4 admitted
  have hm : sampleAdmitted s.platform s.view (s.getZ zs) = true := by
    simp only [List.forall_mem_cons, List.not_mem_nil, false_implies, implies_true, and_true] at admitted
    obtain ⟨⟨h00, h01⟩, h10, h11⟩ := admitted
    rw [sampleAdmitted_iff]
    simp only [sampleAddrs, List.forall_mem_cons]
    exact ⟨h00, h10, h01, h11, nofun⟩
  have legal : s.view.srcOk = true := (srcOk_iff _).mpr ⟨⟨hw2, hw⟩, hh2, hh⟩
  exact completesF_of_flags (exec_pxSample_ok legal ((aligned_iff _).mpr h4) hm) rfl rfl

/-- Settles O44: the index of each of the four reads is below the number of words. -/
theorem samplerReadsInsideTheSource : Obligations.SamplerReadsInsideTheSource := fun _ w h => sampleAddrs_source h w

/-! ## Zero weights (R226 item 1) -/

theorem blendAcc_zero (c : Nat) : blendAcc p00 p10 p01 p11 0 0 c = chan p00 c * 0x10000 := by
  simp only [blendAcc, cornerWeight_zero_left, cornerWeight_zero_right, Nat.sub_zero, cornerWeight_one_left,
    Nat.mul_zero, Nat.add_zero]

theorem blendChan_zero (c : Nat) : blendChan p00 p10 p01 p11 0 0 c = chan p00 c := by
  rw [blendChan_eq (Nat.zero_le _) (Nat.zero_le _), blendAcc_zero]
  omega

theorem pxBlend_zero : pxBlend p00 p10 p01 p11 0 0 = p00 := by
  simp only [pxBlend, blendChan_zero, chan, BitVec.ofNat_toNat, BitVec.setWidth_eq]
  exact wordOfBytes_byteOfWord p00

/-! ## Periods under tile (R226 item 2) -/

/-- With the aspect `k` the rescaled coordinate is `k` times the coordinate, wrapped. -/
theorem policyCoord_tile_fxMul {k : Int} (hc : c.toInt = k * 2 ^ 16) (a : Word) :
    (policyCoord .tile (fxMul a c).val : Int) = a.toInt * k % 2 ^ 16 := by
  rw [policyCoord, fxMul, hc, ← Int.mul_assoc, Int.mul_ediv_cancel _ (by decide), narrow_val, BitVec.toNat_ofInt]
  omega

theorem toInt_add_units (a : Word) (n : Int) :
    (a + BitVec.ofInt 32 (n * 2 ^ 16)).toInt % 2 ^ 16 = a.toInt % 2 ^ 16 := by
  rw [BitVec.toInt_add, BitVec.toInt_ofInt]
  simp only [Int.bmod_def]
  omega

theorem policyCoord_tile_add_units {k : Int} (hc : c.toInt = k * 2 ^ 16) (a : Word) (n : Int) :
    policyCoord .tile (fxMul (a + BitVec.ofInt 32 (n * 2 ^ 16)) c).val = policyCoord .tile (fxMul a c).val := by
  have e : ((policyCoord .tile (fxMul (a + BitVec.ofInt 32 (n * 2 ^ 16)) c).val : Nat) : Int) =
      (policyCoord .tile (fxMul a c).val : Nat) := by
    rw [policyCoord_tile_fxMul hc, policyCoord_tile_fxMul hc, Int.mul_emod, toInt_add_units, ← Int.mul_emod]
  exact Int.ofNat.inj e

/-- A sample depends on its point through the policy coordinates alone. -/
theorem pxSample_val_congr {z : Cx} (m : Memory)
    (hx : policyCoord v.policy (fxMul z.re v.aspectX).val = policyCoord v.policy (fxMul w.re v.aspectX).val)
    (hy : policyCoord v.policy (fxMul z.im v.aspectY).val = policyCoord v.policy (fxMul w.im v.aspectY).val) :
    (pxSample m v z).val = (pxSample m v w).val := by
  simp only [pxSample, samplePoint, hx, hy]

/-! ## Saturation under clamp (R226 item 3) -/

/-- From 1.0 on the scaled coordinate is the last index, without a fraction. -/
theorem scaled_clamp_of_one_le (h : 2 ^ 16 ≤ u.toInt) (n : Nat) :
    policyCoord .clamp u * n / 2 ^ 16 = n ∧ policyCoord .clamp u * n % 2 ^ 16 = 0 := by
  have top : policyCoord .clamp u = 2 ^ 16 := by rw [policyCoord]; omega
  rw [top]
  exact ⟨Nat.mul_div_cancel_left n (by decide), Nat.mul_mod_right _ _⟩

/-- Up to 0 the scaled coordinate is 0. -/
theorem scaled_clamp_of_le_zero (h : u.toInt ≤ 0) (n : Nat) :
    policyCoord .clamp u * n / 2 ^ 16 = 0 ∧ policyCoord .clamp u * n % 2 ^ 16 = 0 := by
  have bottom : policyCoord .clamp u = 0 := by rw [policyCoord]; omega
  rw [bottom, Nat.zero_mul]
  exact ⟨rfl, rfl⟩

/-- Settles O45: the blend with zero weights, and the policy coordinate of each axis. -/
theorem samplerPolicies : Obligations.SamplerPolicies := by
  refine ⟨fun m v w hfx hfy => ?_, fun m v w n k tile => ⟨fun hX => ?_, fun hY => ?_⟩, fun v w clamp => ?_⟩
  · simp only [pxSample, hfx, hfy, pxBlend_zero]
  · exact pxSample_val_congr m (tile ▸ policyCoord_tile_add_units hX w.re n) rfl
  · exact pxSample_val_congr m rfl (tile ▸ policyCoord_tile_add_units hY w.im n)
  · simp only [samplePoint, clamp]
    exact ⟨fun h => scaled_clamp_of_one_le h _, fun h => scaled_clamp_of_le_zero h _,
      fun h => scaled_clamp_of_one_le h _, fun h => scaled_clamp_of_le_zero h _⟩

end Sys2Proof.Machine
end

section
/-! PROOFS. How a run ends (46_system.md R262, R266, 60_exceptions.md R285), the upfront checks of RENDER and the
partition of its rows (45_render.md R240, R242, R243), and that its workers write inside the destination alone
(R248). -/

namespace Sys2Proof.Machine

variable {s t u : State} {b : BReg} {r : Rendering}

/-! ## BUSY falls by HALT or by a fault (R262, R285) -/

theorem causeCode_pos (c : Cause) : 1 ≤ (causeCode c).toNat := by cases c <;> decide

theorem Effect.busy_falls {i : Instr} (h : Effect i s t) (hs : s.status.busy = true) (ht : t.status.busy = false) :
    (i = .halt ∧ t = { s.advance with status := { s.status with done := true, busy := false } }) ∨
      ∃ c, t = s.takeFault c := by
  cases h with
  | halt e => exact .inl ⟨e, rfl⟩
  | fault c => exact .inr ⟨c, rfl⟩
  | _ => exact absurd (hs.symm.trans ht) Bool.noConfusion

/-- Settles O10: of the effects of a command only HALT's and the fault entry clear BUSY, and of the ends of a worker's
step only the fault entry. -/
theorem runEndsOnlyByHaltOrFault : Obligations.RunEndsOnlyByHaltOrFault := by
  refine ⟨fun i s t h hs ht => ?_, fun r s t h hs ht => ?_⟩
  · obtain ⟨rfl, rfl⟩ | ⟨c, rfl⟩ := (exec_effect h).busy_falls hs ht
    · exact .inl ⟨rfl, rfl, rfl, rfl⟩
    · exact .inr ⟨rfl, causeCode_pos c, causeCode_le c, rfl, rfl, rfl⟩
  · obtain ⟨u, hu, hend⟩ := workerStep_ends h
    have hbusy : u.status.busy = true := hu.status ▸ hs
    obtain rfl | ⟨hnone, x, rfl | rfl⟩ := hend
    · exact absurd (hbusy.symm.trans ht) Bool.noConfusion
    · exact absurd (hbusy.symm.trans ht) Bool.noConfusion
    · exact ⟨hnone, rfl, rfl, hu.pc, hu.pc, (congrArg Status.done hu.status :)⟩

/-! ## The upfront checks (R240) -/

theorem renderCheck_badConfig {v : View} (h : ¬(v.srcOk = true ∧ v.dstOk = true)) :
    renderCheck v = some .badConfig := by
  rw [← Bool.and_eq_true, Bool.not_eq_true] at h
  simp only [renderCheck, h, Bool.not_false, if_true]

theorem renderCheck_misaligned {v : View} (hs : v.srcOk = true) (hd : v.dstOk = true)
    (h : ¬(aligned v.srcBase = true ∧ aligned v.dstBase = true)) : renderCheck v = some .misaligned := by
  rw [← Bool.and_eq_true, Bool.not_eq_true] at h
  simp [renderCheck, hs, hd, h]

theorem render_faults_of_check {c : Cause} (h : renderCheck s.view = some c) :
    Faults (.render b) s (causeCode c) := faults_of_faulted (by simp only [exec, execRender, h])

/-- Settles O46: each check of `renderCheck` as R240 words it. -/
theorem renderChecks : Obligations.RenderChecks := by
  intro s b legal ok
  have hok : ok ↔ s.view.srcOk = true ∧ s.view.dstOk = true := by
    rw [srcOk_iff, dstOk_iff]
    exact and_assoc.symm
  refine ⟨fun hbad => render_faults_of_check (renderCheck_badConfig (hok.not.mp hbad)), fun hgood hbase => ?_⟩
  obtain ⟨hsrc, hdst⟩ := hok.mp hgood
  refine render_faults_of_check (renderCheck_misaligned hsrc hdst fun ⟨ha, hb⟩ => ?_)
  exact hbase.elim (absurd ((aligned_iff _).mp ha)) (absurd ((aligned_iff _).mp hb))

/-! ## The rows of the workers (R242, R243) -/

theorem forkWorkers_getElem? {n k : Nat} (hk : k < n) (h : Nat) : (forkWorkers n h)[k]? =
    some ⟨k, k * (h / n), if k + 1 = n then h else (k + 1) * (h / n), 0⟩ := by
  rw [forkWorkers, List.getElem?_map, List.getElem?_range hk]
  rfl

/-- All workers' pixels, one worker after the other, are those of the destination, row by row. -/
theorem forkWorkers_flatMap {n : Nat} (hn : 0 < n) (h w : Nat) :
    (forkWorkers n h).flatMap (workerPixels w) = rowPixels w 0 h :=
  (filter_live_pixels w _).symm.trans (forkWorkers_pixels hn h w)

/-- Settles O47: each worker is the one `forkWorkers` lists, and together they have each pixel of the rows once. -/
theorem rowPartition : Obligations.RowPartition := by
  intro n h w hn
  refine ⟨by simp [forkWorkers], fun k hk => ?_, ?_, ?_, fun i j => ?_⟩
  · rw [forkWorkers_getElem? (by omega), if_neg (by omega)]
  · rw [forkWorkers_getElem? (by omega), if_pos (by omega)]
  · rw [forkWorkers_flatMap hn]
    exact nodup_rowPixels w h
  · rw [forkWorkers_flatMap hn]
    exact mem_rowPixels

/-! ## What a worker's step writes (R247, R248) -/

/-- With or without a race, a pixel writes its own word alone. -/
theorem readByte_pixelMem_outside (r : Rendering) (s : State) (p : PixelStep) {x : Nat} (h : x ∉ wordBytes p.addr) :
    readByte (pixelMem r s p) x = readByte s.mem x := by
  unfold pixelMem
  split
  · exact readByte_writeWord_outside _ _ _ h
  · exact readByte_orWord_outside _ _ _ h

theorem Moved.outside (h : Moved r s t) (hin : WorkersInside s.view r.workers) {x : Nat} (hx : OutsideDst s.view x) :
    readByte t.mem x = readByte s.mem x := by
  cases h with
  | pixel k w hk =>
    obtain ⟨hrow, hend, hcol⟩ := hin w (List.mem_of_getElem? hk)
    exact readByte_pixelMem_outside r s _ (hx w.col w.row ⟨hcol, by omega⟩)
  | _ => rfl

theorem workerStep_outside (h : workerStep r s = .next t) (hin : WorkersInside s.view r.workers) {x : Nat}
    (hx : OutsideDst s.view x) : readByte t.mem x = readByte s.mem x := by
  obtain ⟨u, hm, ⟨rfl, -⟩ | ⟨q, -, -, hj⟩⟩ := workerStep_cases h
  · exact hm.outside hin hx
  · have hx' : OutsideDst u.view x := hm.sameBlock.view.symm ▸ hx
    have hend := (endRender_outside (s := { u with freeCount := s.freeCount + 1 }) q hx').trans (hm.outside hin hx)
    obtain ⟨-, e⟩ | ⟨-, e⟩ := join_cases q { u with freeCount := s.freeCount + 1 } <;> rw [e] at hj <;> cases hj <;>
      exact hend

/-- Settles O52: RENDER's own step writes no memory, and by the invariant every worker stands inside the
destination. -/
theorem renderWritesOnlyItsDestination : Obligations.RenderWritesOnlyItsDestination := by
  refine ⟨fun s t b h x => by rw [(exec_effect h).mem_frame nofun], fun s t r hs hr hi h x hx => ?_⟩
  obtain ⟨hbusy, hok⟩ := hs.rendering r hr
  exact workerStep_outside (step_worker hi hbusy hr ▸ h) hok.inside hx

end Sys2Proof.Machine
end

section
/-! PROOFS. A RENDER with an access that is not admitted, under the overlap premise: each step of its workers takes at
least one pixel from those still to do, the flags it collects are those of pixels computed before the fault, and its
join takes BUS_ERROR (45_render.md R248, 93_implementation_defined.md U10, U11). -/

namespace Sys2Proof.Machine

variable {s t u v : State} {b : BReg} {r q : Rendering} {k : Nat}

/-! ## One move and the pixels still to do -/

/-- The pixels that the workers of a RENDER still have to do, in a destination of `w` columns (R244). -/
def Rendering.todo (r : Rendering) (w : Nat) : List (Nat × Nat) := r.workers.flatMap (workerPixels w)

/-- A worker that leaves takes all its pixels along, the one it stands at first. -/
theorem eraseIdx_pixels {w k : Nat} {x : Worker} {ws : List Worker} (hk : ws[k]? = some x) (hrow : x.row < x.rowEnd)
    (hcol : x.col < w) : (ws.flatMap (workerPixels w)).Perm
      ((x.col, x.row) :: (workerPixels w (x.next w) ++ (ws.eraseIdx k).flatMap (workerPixels w))) := by
  obtain ⟨hlt, rfl⟩ := List.getElem?_eq_some_iff.mp hk
  have hperm := (List.getElem_cons_eraseIdx_perm hlt).flatMap_right (workerPixels w)
  rw [List.flatMap_cons, workerPixels_next hrow hcol] at hperm
  exact hperm.symm

/-- The turn of worker `x` in the RENDER `r`, after which the RENDER is `q`: pixel (`x.col`, `x.row`) is to do no
longer, nor are those in `gone`; the flags are as before, or collect that pixel's; and where no access has failed, that
pixel was the only one and its accesses are admitted. -/
structure Turn (r : Rendering) (u : State) (x : Worker) (gone : List (Nat × Nat)) (q : Rendering) : Prop where
  stood : x ∈ r.workers
  pixels : (r.todo u.view.dstW.toNat).Perm ((x.col, x.row) :: (gone ++ q.todo u.view.dstW.toNat))
  flags : q.flags = r.flags ∨ q.flags = r.collect (pixelStep u r.slot x.col x.row).flags
  unbroken : q.broken = false → r.broken = false ∧ gone = [] ∧
    (pixelStep u r.slot x.col x.row).readsAdmitted = true ∧ (pixelStep u r.slot x.col x.row).writeAdmitted = true

theorem Moved.turn (h : Moved r u v) (hlive : r.workers ≠ []) (hin : WorkersInside u.view r.workers)
    (hq : v.rendering = some q) : ∃ x gone, Turn r u x gone q := by
  have stands {k : Nat} {x : Worker} (hk : r.workers[k]? = some x) :
      x ∈ r.workers ∧ x.row < x.rowEnd ∧ x.col < u.view.dstW.toNat := by
    have hx := List.mem_of_getElem? hk
    obtain ⟨hrow, -, hcol⟩ := hin x hx
    exact ⟨hx, hrow, hcol⟩
  cases h with
  | idle hnil => exact absurd hnil hlive
  | stops k x hk hb =>
    cases hq
    obtain ⟨hx, hrow, hcol⟩ := stands hk
    exact ⟨x, _, hx, eraseIdx_pixels hk hrow hcol, .inl rfl, fun h => absurd (hb.symm.trans h) Bool.noConfusion⟩
  | pixel k x hk hreads hwrite =>
    cases hq
    obtain ⟨hx, hrow, hcol⟩ := stands hk
    exact ⟨x, [], hx, putWorker_pixels hk hrow hcol, .inr rfl, fun h => ⟨h, rfl, hreads, hwrite⟩⟩
  | error k x flags hk _ hf =>
    cases hq
    obtain ⟨hx, hrow, hcol⟩ := stands hk
    exact ⟨x, _, hx, eraseIdx_pixels hk hrow hcol, hf.imp_right And.right, nofun⟩

/-- A turn takes at least one pixel from those to do. -/
theorem Turn.length_lt {x : Worker} {gone : List (Nat × Nat)} (h : Turn r u x gone q) :
    (q.todo u.view.dstW.toNat).length < (r.todo u.view.dstW.toNat).length := by
  rw [h.pixels.length_eq, List.length_cons, List.length_append]
  omega

/-! ## The words whose `MemOr` is not admitted (20_memory.md R64) -/

theorem readWord_pixelMem_ne (r : Rendering) (s : State) {p : PixelStep} {a : Word} (hp : aligned p.addr = true)
    (ha : aligned a = true) (h : a ≠ p.addr) : readWord (pixelMem r s p) a = readWord s.mem a :=
  readWord_congr fun x hx => readByte_pixelMem_outside r s p (wordBytes_disjoint ha hp h x hx)

/-- A worker's move leaves every word that is not admitted. -/
theorem Moved.readWord_refused (h : Moved r u v) (hd : aligned u.view.dstBase = true) {a : Word}
    (ha : aligned a = true) (hr : memAdmit u.platform a = false) : readWord v.mem a = readWord u.mem a := by
  cases h with
  | pixel k x _ _ hw =>
    refine readWord_pixelMem_ne r u (aligned_dstAddr hd _ _) ha fun e => ?_
    rw [e] at hr
    exact absurd (hr.symm.trans hw) Bool.noConfusion
  | _ => rfl

/-- Each destination word whose `MemOr` is not admitted is as in `s`. -/
def RefusedSame (s u : State) : Prop := ∀ i j, InDst s.view i j → memAdmit s.platform (dstAddr s.view i j) = false →
  readWord u.mem (dstAddr s.view i j) = readWord s.mem (dstAddr s.view i j)

/-! ## The flags of the pixels computed before the fault (U11) -/

/-- Some pixel computed before the fault sets this flag. -/
def SetBeforeFault (s : State) (b : BReg) (flag : Flags → Bool) : Prop :=
  ∃ i j, InDst s.view i j ∧ ComputedBeforeFault s b i j ∧ flag (pixelFlags s b i j) = true

/-- Pixels computed before the fault set these flags. -/
structure FlagsBeforeFault (s : State) (b : BReg) (x : Flags) : Prop where
  ov : x.ov = true → SetBeforeFault s b Flags.ov
  dz : x.dz = true → SetBeforeFault s b Flags.dz

theorem FlagsBeforeFault.none : FlagsBeforeFault s b .none := ⟨nofun, nofun⟩

theorem FlagsBeforeFault.or {x y : Flags} (hx : FlagsBeforeFault s b x) (hy : FlagsBeforeFault s b y) :
    FlagsBeforeFault s b (x.or y) :=
  ⟨fun h => (Bool.or_eq_true_iff.mp h).elim hx.ov hy.ov, fun h => (Bool.or_eq_true_iff.mp h).elim hx.dz hy.dz⟩

theorem FlagsBeforeFault.pixel {i j : Nat} (hij : InDst s.view i j) (h : ComputedBeforeFault s b i j) :
    FlagsBeforeFault s b (pixelFlags s b i j) := ⟨fun e => ⟨i, j, hij, h, e⟩, fun e => ⟨i, j, hij, h, e⟩⟩

/-- Those of them that the join leaves (R248). -/
theorem FlagsBeforeFault.seen {x : Flags} (h : FlagsBeforeFault s b x) (d : Nat) :
    FlagsBeforeFault s b (flagsSeen d x) :=
  ⟨fun e => h.ov (Bool.and_eq_true_iff.mp e).1, fun e => h.dz (Bool.and_eq_true_iff.mp e).1⟩

/-- A sticky flag that is ORed with `x` keeps its value, or is 1 where `x` is. -/
theorem or_eq_self_or {a x : Bool} {P : Prop} (h : x = true → P) : (a || x) = a ∨ (a || x) = true ∧ P := by
  cases x with
  | false => exact .inl (Bool.or_false a)
  | true => exact .inr ⟨Bool.or_true a, h rfl⟩

/-! ## The state after some steps -/

/-- `u` is a state of the RENDER `r` of slot `b` that `s` forks, after `k` moves of its workers, whether or not an
access has failed; while none has, the pixels `ps` that are done had their accesses admitted. -/
structure Advanced (s : State) (b : BReg) (k : Nat) (u : State) (r : Rendering) : Prop where
  rendered : Rendered s b u
  block : SameBlock s u
  rendering : u.rendering = some r
  slot : r.slot = b
  overlap : r.overlap = false
  inside : WorkersInside s.view r.workers
  refused : RefusedSame s u
  flags : FlagsBeforeFault s b r.flags
  left : (r.todo s.view.dstW.toNat).length + k ≤ dstWords s.view
  unbroken : r.broken = false → ∃ ps, (ps ++ r.todo s.view.dstW.toNat).Perm (dstPixels s.view) ∧
    ∀ x ∈ ps, PixelAdmitted s b x.1 x.2

theorem Advanced.fork (h : RenderPremise s) (b : BReg) : Advanced s b 0 (s.fork b) (forkRender b s) := by
  have hdrawn := Drawn.fork h b
  refine ⟨hdrawn.rendered, hdrawn.block, rfl, rfl, hdrawn.overlap, hdrawn.inside, fun _ _ _ _ => rfl, .none, ?_,
    fun _ => ⟨[], hdrawn.pixels, nofun⟩⟩
  exact (hdrawn.pixels.length_eq.trans (length_dstPixels s.view)).le

theorem Advanced.withFreeCount (h : Advanced s b k u r) (n : Nat) : Advanced s b k { u with freeCount := n } r :=
  ⟨h.rendered.of_sameBlock ((SameBlock.refl u).withFreeCount n) rfl rfl, h.block.withFreeCount n, h.rendering, h.slot,
    h.overlap, h.inside, h.refused, h.flags, h.left, h.unbroken⟩

/-- The pixel of a turn before any access has failed is computed before the fault: no pixel is to do twice. -/
theorem Advanced.computed (h : Advanced s b k u r) (hb : r.broken = false) {x : Worker} {gone : List (Nat × Nat)}
    (ht : Turn r u x gone q) (hu : steps k (s.fork b) = .next u) (hnext : step u = .next t)
    (hrest : ∀ p, t.rendering = some p → p = q) : ComputedBeforeFault s b x.col x.row := by
  refine ⟨k, u, r, x, hu, h.rendering, hb, ht.stood, rfl, rfl, fun t' p ht' hp => ?_⟩
  obtain rfl : t = t' := Host.Outcome.next.inj (hnext.symm.trans ht')
  obtain rfl := hrest p hp
  obtain ⟨ps, hperm, -⟩ := h.unbroken hb
  have hnodup : (r.todo s.view.dstW.toNat).Nodup := (hperm.nodup_iff.mpr (nodup_rowPixels _ _)).of_append_right
  have hcons := ht.pixels
  rw [h.block.view] at hcons
  exact fun hmem => (List.nodup_cons.mp (hcons.nodup_iff.mp hnodup)).1 (List.mem_append_right _ hmem)

/-- The flags collected after a turn are still those of pixels computed before the fault. -/
theorem Advanced.turn_flags (h : Advanced s b k u r) (hs : RenderPremise s) {x : Worker} {gone : List (Nat × Nat)}
    (ht : Turn r u x gone q) (hcomp : r.broken = false → ComputedBeforeFault s b x.col x.row) :
    FlagsBeforeFault s b q.flags := by
  obtain ⟨hrow, hend, hcol⟩ := h.inside x ht.stood
  obtain e | e := ht.flags <;> rw [e]
  · exact h.flags
  · rw [h.slot, pixelStep_of_frame hs h.rendered.frame, Rendering.collect]
    split
    · exact h.flags
    · rename_i hb
      exact h.flags.or (.pixel ⟨hcol, by omega⟩ (hcomp (Bool.eq_false_iff.mpr hb)))

/-- The pixels done after a turn, while no access has failed. -/
theorem Advanced.turn_unbroken (h : Advanced s b k u r) (hs : RenderPremise s) {x : Worker} {gone : List (Nat × Nat)}
    (ht : Turn r u x gone q) (hb : q.broken = false) :
    ∃ ps, (ps ++ q.todo s.view.dstW.toNat).Perm (dstPixels s.view) ∧ ∀ y ∈ ps, PixelAdmitted s b y.1 y.2 := by
  obtain ⟨hrb, rfl, hreads, hwrite⟩ := ht.unbroken hb
  rw [h.slot, pixelStep_of_frame hs h.rendered.frame] at hreads hwrite
  have hpixels := ht.pixels
  rw [h.block.view, List.nil_append] at hpixels
  obtain ⟨ps, hperm, hadm⟩ := h.unbroken hrb
  refine ⟨ps ++ [(x.col, x.row)], ?_, fun y hy => ?_⟩
  · rw [List.append_assoc, List.singleton_append]
    exact (hpixels.symm.append_left ps).trans hperm
  · obtain hy | hy := List.mem_append.mp hy
    · exact hadm y hy
    · obtain rfl := List.mem_singleton.mp hy
      exact ⟨hreads, hwrite⟩

/-- The move of a step, which answers `t`, is one more move of the RENDER. -/
theorem Advanced.moved (h : Advanced s b k u r) (hs : RenderPremise s) (hlive : r.workers ≠ []) (hm : Moved r u v)
    (hu : steps k (s.fork b) = .next u) (hnext : step u = .next t)
    (hrest : t.rendering = none ∨ t.rendering = v.rendering) : ∃ q, Advanced s b (k + 1) v q := by
  have hin : WorkersInside u.view r.workers := h.block.view.symm ▸ h.inside
  obtain ⟨q, hq, hslot, ho, hqin⟩ := hm.rendering h.rendering hin
  obtain ⟨x, gone, ht⟩ := hm.turn hlive hin hq
  have hall : ∀ p, t.rendering = some p → p = q := by
    intro p hp
    obtain e | e := hrest <;> rw [e] at hp
    · cases hp
    · exact Option.some.inj (hp.symm.trans hq)
  refine ⟨q, h.rendered.moved hs h.slot h.overlap h.inside hm, h.block.trans hm.sameBlock, hq, hslot.trans h.slot,
    ho.trans h.overlap, h.block.view ▸ hqin, fun i j hij hr => ?_,
    h.turn_flags hs ht fun hb => h.computed hb ht hu hnext hall, ?_, h.turn_unbroken hs ht⟩
  · rw [← h.refused i j hij hr]
    exact hm.readWord_refused (h.block.view.symm ▸ hs.dstAligned) (aligned_dstAddr hs.dstAligned i j)
      (h.block.platform.symm ▸ hr)
  · have hlt := ht.length_lt
    rw [h.block.view] at hlt
    have := h.left
    omega

/-- A live worker still has a pixel to do, so there were fewer steps than pixels. -/
theorem Advanced.lt_of_live (h : Advanced s b k u r) (hlive : r.workers ≠ []) : k < dstWords s.view := by
  obtain ⟨x, ws, hw⟩ := List.exists_cons_of_ne_nil hlive
  obtain ⟨hrow, -, hcol⟩ := h.inside x (by simp [hw])
  have hleft := h.left
  rw [Rendering.todo, hw, List.flatMap_cons, workerPixels_next hrow hcol, List.cons_append, List.length_cons] at hleft
  omega

/-! ## The join takes BUS_ERROR (R248) -/

/-- `t` is what the RENDER of slot `b` that `s` forks leaves when it ends by a bus error. -/
structure BusFaulted (s : State) (b : BReg) (t : State) : Prop where
  rendered : Rendered s b t
  refused : RefusedSame s t
  status : ∃ x, FlagsBeforeFault s b x ∧ t.status = ((s.addFlags x).takeFault .busError).status
  errpc : t.errpc = s.pc
  pc : t.pc = s.pc
  rendering : t.rendering = none

/-- Without a live worker, the access that is not admitted has failed. -/
theorem Advanced.broken (h : Advanced s b k u r) (ha : ¬AllAdmitted s b) (hnil : r.workers = []) :
    r.broken = true := by
  by_contra hb
  obtain ⟨ps, hperm, hadm⟩ := h.unbroken (Bool.eq_false_iff.mpr hb)
  rw [Rendering.todo, hnil, List.flatMap_nil, List.append_nil] at hperm
  exact ha fun i j hij => hadm (i, j) (hperm.mem_iff.mpr (mem_dstPixels.mpr hij))

theorem Advanced.join (h : Advanced s b k u r) (ha : ¬AllAdmitted s b) (hnil : r.workers = [])
    (ht : join r u = .next t) : BusFaulted s b t := by
  obtain ⟨-, e⟩ | ⟨hb, -⟩ := join_cases r u
  · rw [e] at ht
    cases ht
    have hmem := endRender_mem (s := u) h.overlap
    have hend := h.rendered.of_sameBlock (endRender_sameBlock u r) hmem rfl
    refine ⟨hend.takeFault _ _, fun i j hij hr => ?_, ⟨_, h.flags.seen u.freeCount, ?_⟩, h.block.pc, h.block.pc, rfl⟩
    · rw [← h.refused i j hij hr]
      exact congrArg (readWord · _) hmem
    · simp [h.block.status]
  · exact absurd ((h.broken ha hnil).symm.trans hb) Bool.noConfusion

/-- One step of the machine while workers are live: a further state of the RENDER, or its end by a bus error. -/
theorem Advanced.step (h : Advanced s b k u r) (hs : RenderPremise s) (ha : ¬AllAdmitted s b) (hlive : r.workers ≠ [])
    (hu : steps k (s.fork b) = .next u) :
    ∃ t, step u = .next t ∧ ((∃ q, Advanced s b (k + 1) t q ∧ q.workers ≠ []) ∨ BusFaulted s b t) := by
  obtain ⟨t, ht⟩ := workerStep_next r u
  have hnext := (step_worker (h.block.inbox.trans hs.inbox) (h.block.status ▸ hs.busy) h.rendering).trans ht
  refine ⟨t, hnext, ?_⟩
  obtain ⟨v, hm, ⟨rfl, hvlive⟩ | ⟨p, hp, hnil, hj⟩⟩ := workerStep_cases ht
  · obtain ⟨q, hq⟩ := h.moved hs hlive hm hu hnext (.inr rfl)
    exact .inl ⟨q, hq.withFreeCount _, hvlive q hq.rendering⟩
  · have hnone : t.rendering = none := by
      obtain ⟨-, e⟩ | ⟨-, e⟩ := join_cases p { v with freeCount := u.freeCount + 1 } <;> rw [e] at hj <;> cases hj <;>
        rfl
    obtain ⟨q, hq⟩ := h.moved hs hlive hm hu hnext (.inl hnone)
    obtain rfl : q = p := Option.some.inj (hq.rendering.symm.trans hp)
    exact .inr ((hq.withFreeCount _).join ha hnil hj)

/-! ## The steps of the machine -/

/-- An idle block that the host leaves alone stays as it is (70_reset_and_hazards.md R322). -/
theorem step_idle (hi : s.inbox = []) (hb : s.status.busy = false) : step s = .next s := by
  rw [step_block hi]
  simp only [blockMove, hb, Bool.false_eq_true, if_false]

theorem steps_idle (hi : s.inbox = []) (hb : s.status.busy = false) (n : Nat) : steps n s = .next s := by
  induction n with
  | zero => rfl
  | succ n ih => rw [steps, step_idle hi hb]; exact ih

/-- A block that is idle after its first step is so after every further one. -/
theorem steps_of_step_idle (h : step s = .next t) (hi : t.inbox = []) (hb : t.status.busy = false) {n : Nat}
    (hn : 0 < n) : steps n s = .next t := by
  obtain ⟨m, rfl⟩ := Nat.exists_eq_succ_of_ne_zero hn.ne'
  rw [steps, h]
  exact steps_idle hi hb m

theorem BusFaulted.not_busy (h : BusFaulted s b t) : t.status.busy = false := by
  obtain ⟨x, -, e⟩ := h.status
  rw [e]
  rfl

/-- After any number of steps the RENDER still has live workers, or has ended by a bus error. -/
theorem fork_steps_advanced (hs : RenderPremise s) (ha : ¬AllAdmitted s b) (n : Nat) :
    ∃ u, steps n (s.fork b) = .next u ∧ ((∃ r, Advanced s b n u r ∧ r.workers ≠ []) ∨ BusFaulted s b u) := by
  induction n with
  | zero => exact ⟨_, rfl, .inl ⟨_, .fork hs b, (forkRender_ok b hs.checked hs.workers).someLive⟩⟩
  | succ n ih =>
    obtain ⟨u, hu, ⟨r, h, hlive⟩ | h⟩ := ih
    · obtain ⟨t, ht, hcases⟩ := h.step hs ha hlive hu
      exact ⟨t, steps_succ_of_steps hu ht, hcases⟩
    · have hi := h.rendered.frame.inbox.trans hs.inbox
      exact ⟨u, steps_succ_of_steps hu (step_idle hi h.not_busy), .inr h⟩

/-- After as many steps as pixels it has ended by a bus error. -/
theorem fork_steps_busFaulted (hs : RenderPremise s) (ha : ¬AllAdmitted s b) :
    ∃ t, steps (dstWords s.view) (s.fork b) = .next t ∧ BusFaulted s b t := by
  obtain ⟨t, ht, ⟨r, h, hlive⟩ | h⟩ := fork_steps_advanced hs ha (dstWords s.view)
  · exact absurd (h.lt_of_live hlive) (Nat.lt_irrefl _)
  · exact ⟨t, ht, h⟩

/-! ## One worker, whose first read is not admitted -/

theorem forkRender_workers_one (hs : RenderPremise s) (hone : s.platform.numWorkers = 1#8) :
    (forkRender b s).workers = [⟨0, 0, s.view.dstH.toNat, 0⟩] := by
  obtain ⟨-, hh, -⟩ := (dstOk_iff s.view).mp hs.dstOk
  have hlive : (⟨0, 0, s.view.dstH.toNat, 0⟩ : Worker).live = true :=
    decide_eq_true (show 0 < s.view.dstH.toNat by omega)
  simp [forkRender, hone, forkWorkers, hlive]

/-- The RENDER that `s` forks, after its only worker's first read was not admitted. -/
def firstRefused (b : BReg) (s : State) : Rendering := { forkRender b s with workers := [], broken := true }

/-- Its first move meets that access: it writes no pixel, collects no flag and leaves no worker. -/
theorem Moved.first_refused (hm : Moved (forkRender b s) (s.fork b) v) (hs : RenderPremise s)
    (hone : s.platform.numWorkers = 1#8)
    (hread : sampleAdmitted s.platform s.view (mapPoint s b 0 0).val = false) :
    v.rendering = some (firstRefused b s) ∧ v.mem = s.mem := by
  have hws := forkRender_workers_one (b := b) hs hone
  have only {k : Nat} {x : Worker} (hk : (forkRender b s).workers[k]? = some x) :
      (forkRender b s).workers.eraseIdx k = [] ∧
        (pixelStep (s.fork b) (forkRender b s).slot x.col x.row).readsAdmitted = false := by
    rw [hws] at hk ⊢
    obtain ⟨hlt, rfl⟩ := List.getElem?_eq_some_iff.mp hk
    obtain rfl : k = 0 := Nat.lt_one_iff.mp hlt
    exact ⟨rfl, hread⟩
  cases hm with
  | idle hnil => exact absurd (hws.symm.trans hnil) (List.cons_ne_nil _ _)
  | stops k x hk hb => cases hb
  | pixel k x hk hr => exact absurd ((only hk).2.symm.trans hr) Bool.noConfusion
  | error k x flags hk _ hf =>
    obtain rfl : flags = (forkRender b s).flags :=
      hf.resolve_right fun ⟨hr, _⟩ => Bool.noConfusion ((only hk).2.symm.trans hr)
    refine ⟨?_, rfl⟩
    rw [(only hk).1]
    rfl

/-- Its RENDER ends at the first step, with memory and the sticky flags as they were. -/
theorem fork_step_first_refused (hs : RenderPremise s) (hone : s.platform.numWorkers = 1#8)
    (hread : sampleAdmitted s.platform s.view (mapPoint s b 0 0).val = false) :
    ∃ t, step (s.fork b) = .next t ∧ t.inbox = [] ∧ t.status.busy = false ∧ MemSame s t ∧
      t.status.ov = s.status.ov ∧ t.status.dz = s.status.dz := by
  obtain ⟨t, ht⟩ := workerStep_next (forkRender b s) (s.fork b)
  refine ⟨t, (step_worker (s := s.fork b) hs.inbox hs.busy rfl).trans ht, ?_⟩
  obtain ⟨v, hm, hv⟩ := workerStep_cases ht
  obtain ⟨hq, hmem⟩ := hm.first_refused hs hone hread
  have hblock := hm.sameBlock
  obtain ⟨-, hlive⟩ | ⟨q, hp, -, hj⟩ := hv
  · exact absurd rfl (hlive _ hq)
  · obtain rfl : firstRefused b s = q := Option.some.inj (hq.symm.trans hp)
    obtain ⟨-, e⟩ | ⟨hb, -⟩ := join_cases (firstRefused b s) { v with freeCount := (s.fork b).freeCount + 1 }
    · rw [e] at hj
      cases hj
      have ho : (firstRefused b s).overlap = false := (Drawn.fork hs b).overlap
      have hflags (d : Nat) : flagsSeen d (firstRefused b s).flags = .none := rfl
      exact ⟨hblock.inbox.trans hs.inbox, rfl, fun x => congrArg (readByte · x) ((endRender_mem ho).trans hmem),
        by simp [hblock.status, hflags], by simp [hblock.status, hflags]⟩
    · cases hb

/-- Settles O51: after as many steps as pixels the state is `BusFaulted`, and with one worker whose first read is not
admitted it is so after the first step. -/
theorem renderBusError : Obligations.RenderBusError := by
  intro s b hs ha
  obtain ⟨t, ht, h⟩ := fork_steps_busFaulted hs ha
  obtain ⟨x, hx, hst⟩ := h.status
  have hpos : 0 < dstWords s.view := (Advanced.fork hs b).lt_of_live (forkRender_ok b hs.checked hs.workers).someLive
  have refused_first (hone : s.platform.numWorkers = 1#8)
      (hread : sampleAdmitted s.platform s.view (mapPoint s b 0 0).val = false) :
      MemSame s t ∧ t.status.ov = s.status.ov ∧ t.status.dz = s.status.dz := by
    obtain ⟨u, hu, hi, hidle, hsame⟩ := fork_step_first_refused hs hone hread
    obtain rfl : u = t := Host.Outcome.next.inj ((steps_of_step_idle hu hi hidle hpos).symm.trans ht)
    exact hsame
  refine ⟨_, t, exec_render_fork hs b, ht, h.rendered.frame, ?_, ?_, h.errpc, h.not_busy, h.pc, h.rendering,
    fun i j hij => ⟨h.rendered.words i j hij, h.refused i j hij⟩, ?_, ?_, refused_first⟩
  all_goals rw [hst]
  · rfl
  · rfl
  · exact or_eq_self_or hx.ov
  · exact or_eq_self_or hx.dz

end Sys2Proof.Machine
end

section
/-! PROOFS. What a step of the block runs (46_system.md R260, 70_reset_and_hazards.md R322, R330): the command that
memory holds at `pc`, with the record that the step keeps of the run; and the two commands that move `pc` alone, NOP and
HALT (R261, R262). -/

namespace Sys2Proof.Machine

variable {s : State} {i : Instr} {final : State → RunLog}

/-! ## The record before a command (logs 6 and 9) -/

/-- The reach that the step records is that of a well-defined RENDER; before another command it stays. -/
theorem noteReach_reach (final : State → RunLog) (i : Instr) (s : State) :
    ∃ n, noteReach final i s = { s with run := { s.run with reach := n } } ∧
      ((∀ b, i ≠ .render b) → n = s.run.reach) ∧
      ∀ b t, i = .render b → t.status.busy = true → exec i { s with run := { s.run with reach := 0 } } = .next t →
        n = (final t).fetched := by
  by_cases hi : ∃ b, i = .render b
  · obtain ⟨b, rfl⟩ := hi
    refine ⟨_, rfl, fun hne => absurd rfl (hne b), fun _ t _ hb ht => ?_⟩
    simp only [ht, hb, if_true]
  · have hne : ∀ b, i ≠ .render b := fun b e => hi ⟨b, e⟩
    exact ⟨s.run.reach, noteReach_other final s hne, fun _ => rfl, fun b _ e => absurd e (hne b)⟩

/-- `l` is the record that the step has made of the run of `s` when it executes the command `i`, where no host write
has raced with the run: one fetch more, and before a RENDER the number of words that the run fetches in all. -/
structure CommandRecord (final : State → RunLog) (i : Instr) (s : State) (l : RunLog) : Prop where
  start : l.start = s.run.start
  fetched : l.fetched = s.run.fetched + 1
  raced : l.raced = []
  tainted : l.tainted = []
  reach_other : (∀ b, i ≠ .render b) → l.reach = s.run.reach
  reach_render : ∀ b t, i = .render b → t.status.busy = true →
    exec i { s with run := { l with reach := 0 } } = .next t → l.reach = (final t).fetched

theorem Undisturbed.unraced (h : Undisturbed s) : ∀ a ∈ s.run.raced, rangeHas a (s.pc, 1) = false := by
  obtain ⟨hraced, -⟩ := h
  simp [hraced]

/-- In an undisturbed run the fetch and the accesses of the command are recorded, and that is all. -/
theorem Undisturbed.noteUse_noteFetch (h : Undisturbed s) (i : Instr) :
    ∃ l, noteUse i s.noteFetch = { s with run := l } ∧ l.start = s.run.start ∧ l.fetched = s.run.fetched + 1 ∧
      l.raced = [] ∧ l.tainted = [] ∧ l.reach = s.run.reach := by
  have ⟨hraced, htainted⟩ := h
  rw [noteFetch_unraced h.unraced, noteUse_unraced i]
  · exact ⟨_, rfl, rfl, rfl, hraced, htainted, rfl⟩
  · exact hraced
  · exact htainted

/-- In an undisturbed run the step changes the record alone before the command executes. -/
theorem Undisturbed.noteCommand_noteFetch (h : Undisturbed s) (final : State → RunLog) (i : Instr) :
    ∃ l, CommandRecord final i s l ∧ noteCommand final i s.noteFetch = { s with run := l } := by
  obtain ⟨l, e, hstart, hfetched, hraced, htainted, hreach⟩ := h.noteUse_noteFetch i
  obtain ⟨n, en, hother, hrender⟩ := noteReach_reach final i { s with run := l }
  refine ⟨{ l with reach := n }, ⟨hstart, hfetched, hraced, htainted, fun hi => (hother hi).trans hreach, hrender⟩, ?_⟩
  rw [noteCommand, e, en]

/-! ## The block's move -/

/-- Where nothing is tainted, a command's result is what `exec` answers. -/
theorem runInstr_untainted (h : (noteCommand final i s).run.tainted = []) :
    runInstr final i s = exec i (noteCommand final i s) := by
  unfold runInstr
  cases exec i (noteCommand final i s) with
  | next t => exact congrArg Host.Outcome.next (raceResult_untainted i t h)
  | fault => rfl
  | refused => rfl

theorem runWord_ok (h : decode (readWord s.mem s.pc) = .ok i) : runWord final s = runInstr final i s := by
  simp only [runWord, h]

/-- The fetch at an aligned and admitted `pc` runs the word there (R260, 60_exceptions.md R284). -/
theorem blockMove_command (hb : s.status.busy = true) (hr : s.rendering = none) (ha : aligned s.pc = true)
    (hm : memAdmit s.platform s.pc = true) : blockMove final s = runWord final s.noteFetch := by
  have hc : accessCheck s s.pc = none := accessCheck_none.mpr ⟨ha, hm⟩
  simp only [blockMove, hb, hr, if_true, runCommand, hc]

/-- The undisturbed block executes the instruction that it fetches. -/
theorem Undisturbed.blockMove_exec (h : Undisturbed s) (hb : s.status.busy = true) (hr : s.rendering = none)
    (ha : aligned s.pc = true) (hm : memAdmit s.platform s.pc = true) (hw : decode (readWord s.mem s.pc) = .ok i) :
    ∃ l, CommandRecord final i s l ∧ blockMove final s = exec i { s with run := l } := by
  obtain ⟨l, hl, e⟩ := h.noteCommand_noteFetch final i
  have hfetched : decode (readWord s.noteFetch.mem s.noteFetch.pc) = .ok i := by
    rw [noteFetch_unraced h.unraced]; exact hw
  refine ⟨l, hl, ?_⟩
  rw [blockMove_command hb hr ha hm, runWord_ok hfetched, runInstr_untainted (e ▸ hl.tainted), e]

/-- The undisturbed block that fetches `w` executes its instruction, whatever the host has to do after it. -/
theorem FetchesWord.blockMove_exec {w : Word} (hs : FetchesWord s w) (hu : Undisturbed s) (hw : decode w = .ok i)
    (final : State → RunLog) (rest : List HostOp) : ∃ l, CommandRecord final i { s with inbox := rest } l ∧
      blockMove final { s with inbox := rest } = exec i { s with inbox := rest, run := l } :=
  Undisturbed.blockMove_exec (s := { s with inbox := rest }) hu hs.busy hs.idleWorkers hs.onWord hs.admitted
    (hs.word ▸ hw)

/-- Settles O7: the step is the block's move for the command that it fetches, for a worker and for an idle block. -/
theorem stepRunsTheFetchedCommand : Obligations.StepRunsTheFetchedCommand := by
  refine ⟨fun s w i hs hw hu => ?_, fun s hi hb hr ha hm => ⟨?_, noteFetch_record s, ?_⟩, fun _ _ => step_worker,
    fun _ => step_idle⟩
  · intro runs
    have runs_of_step (u : State) (rest : List HostOp) (h : step u = blockMove finalRecord { s with inbox := rest }) :
        runs u rest := by
      obtain ⟨l, hl, hmove⟩ := hs.blockMove_exec hu hw finalRecord rest
      exact ⟨l, hl.start, hl.fetched, hl.raced, hl.tainted, hl.reach_other, hl.reach_render, h.trans hmove⟩
    have idle_host : { s with inbox := [] } = s := by rw [← hs.inbox]
    exact ⟨runs_of_step s [] (by rw [idle_host, step_block hs.inbox]), fun rest => runs_of_step _ rest (step_wait rfl)⟩
  · rw [step_block hi, blockMove_command hb hr ha hm]
  · exact fun h => ⟨_, noteFetch_unraced h⟩

/-! ## NOP and HALT (R261, R262) -/

theorem exec_nop (s : State) : exec .nop s = .next s.advance := rfl

theorem exec_halt (s : State) :
    exec .halt s = .next { s.advance with status := { s.status with done := true, busy := false } } := rfl

theorem advance_filesSame (s : State) : FilesSame s s.advance :=
  ⟨fun _ => rfl, fun _ => rfl, fun _ => rfl, fun _ => rfl⟩

theorem advance_completed (s : State) : Completed s s.advance false false where
  pc := rfl
  flags := ⟨(Bool.or_false _).symm, (Bool.or_false _).symm⟩
  view := rfl
  mem := fun _ => rfl
  kept := ⟨rfl, rfl, rfl, rfl, rfl, rfl, rfl, rfl, rfl, rfl, rfl, rfl⟩

/-- With DONE set the interrupt output is CTRL.IE (60_exceptions.md R291). -/
theorem irq_of_done (h : s.status.done = true) : s.irq = s.ie := by simp [State.irq, h]

/-- Settles O53: NOP is one `advance`, and HALT one with DONE set and BUSY cleared. -/
theorem nopAndHalt : Obligations.NopAndHalt := fun s =>
  ⟨⟨_, exec_nop s, advance_filesSame s, advance_completed s⟩,
    ⟨_, exec_halt s, rfl, rfl, rfl, rfl, rfl, rfl, rfl, rfl, rfl, irq_of_done rfl,
      ⟨fun _ => rfl, fun _ => rfl, fun _ => rfl, fun _ => rfl⟩, rfl, fun _ => rfl, rfl, rfl⟩⟩

end Sys2Proof.Machine
end

section
/-! PROOFS. The faults of a command when it executes: which causes each command can take (60_exceptions.md R281), and
that the fault entry is then all that it does (R286). -/

namespace Sys2Proof.Machine

variable {i : Instr} {s t : State} {r : Rendering}

/-! ## The causes of a command (R281) -/

/-- The causes with which a command can fault after decode, in the order of its checks (R281); a CSRW of a CSR that
commands may not write has no encoding. -/
def executeCauses : Instr → List Cause
  | .ldW _ _ | .pxOrw _ _ => [.misaligned, .busError]
  | .pxSample _ _ => [.badConfig, .misaligned, .busError]
  | .render _ => [.badConfig, .misaligned]
  | .csrw c _ => if c.writable then [] else [.illegalCsr]
  | _ => []

theorem accessCheck_cause {a : Word} {c : Cause} (h : accessCheck s a = some c) :
    c ∈ [Cause.misaligned, Cause.busError] := by
  obtain ⟨-, e⟩ | ⟨-, -, e⟩ | ⟨-, -, e⟩ := accessCheck_cases s a <;> cases e.symm.trans h <;> decide

theorem renderCheck_cause {v : View} {c : Cause} (h : renderCheck v = some c) :
    c ∈ [Cause.badConfig, Cause.misaligned] := by
  unfold renderCheck at h
  split at h
  · cases h; decide
  · split at h <;> cases h
    decide

/-- A command that sets ERR is one of the table, and it does the fault entry alone: every other one completes, which
leaves ERR as it was. -/
theorem exec_err_cause (hs : s.status.err = false) (h : exec i s = .next t) (ht : t.status.err = true) :
    ∃ c ∈ executeCauses i, t = s.takeFault c := by
  have completed (he : t.status.err = s.status.err) : ∃ c ∈ executeCauses i, t = s.takeFault c :=
    absurd (ht.symm.trans (he.trans hs)) Bool.noConfusion
  cases i with
  | ldW fd fa =>
    cases hc : accessCheck s (s.getF fa) with
    | none => obtain rfl := doneF_next.mp (execLdW_ok hc ▸ h); exact completed rfl
    | some c => exact ⟨c, accessCheck_cause hc, faulted_next.mp (execLdW_fault hc ▸ h)⟩
  | pxOrw fv fa =>
    cases hc : accessCheck s (s.getF fa) with
    | none => cases (execPxOrw_ok hc).symm.trans h; exact completed rfl
    | some c => exact ⟨c, accessCheck_cause hc, faulted_next.mp (execPxOrw_fault hc ▸ h)⟩
  | pxSample fd zs =>
    cases hok : s.view.srcOk with
    | false => exact ⟨.badConfig, by simp [executeCauses], faulted_next.mp (exec_pxSample_badConfig hok ▸ h)⟩
    | true =>
    cases ha : aligned s.view.srcBase with
    | false => exact ⟨.misaligned, by simp [executeCauses], faulted_next.mp (exec_pxSample_misaligned hok ha ▸ h)⟩
    | true =>
    cases hm : sampleAdmitted s.platform s.view (s.getZ zs) with
    | false => exact ⟨.busError, by simp [executeCauses], faulted_next.mp (exec_pxSample_busError hok ha hm ▸ h)⟩
    | true => obtain rfl := doneF_next.mp (exec_pxSample_ok hok ha hm ▸ h); exact completed rfl
  | render b =>
    obtain ⟨c, hc, e⟩ | ⟨-, -, e⟩ | ⟨-, -, e⟩ := execRender_cases b s
    · exact ⟨c, renderCheck_cause hc, faulted_next.mp (e.symm.trans h)⟩
    · cases e.symm.trans h
    · cases e.symm.trans h; exact completed rfl
  | csrw c fs =>
    by_cases hw : c.writable = true
    · obtain ⟨u, e, -, -, -, -, -, kept⟩ := csrw_completes s fs hw
      cases e.symm.trans h
      exact completed kept.err
    · exact ⟨.illegalCsr, by simp [executeCauses, hw], faulted_next.mp ((if_neg hw).symm.trans h)⟩
  | nop => cases (exec_nop s).symm.trans h; exact completed rfl
  | halt => cases (exec_halt s).symm.trans h; exact completed rfl
  | csrr | fxAdd | fxSub | fxMul | fxDiv | fxNeg | fxFrac | fxInt | fxCmp | fxNot | fxTou | fxFromi | fxLih
  | fxLil | cxRe | cxIm | mobIsid | blCount | pxBlend => obtain rfl := doneF_next.mp h; exact completed rfl
  | cxAdd | cxSub | cxMul | cxDiv | cxConj | cxGuard | cxPack | mobApply | mobGet | blEval =>
    obtain rfl := doneZ_next.mp h; exact completed rfl
  | mobSet | mobId | mobHyp | mobComp | mobInv | blGetf | blFrame =>
    obtain rfl := doneM_next.mp h; exact completed rfl
  | blClr | blAppend | blMul | blRcomp | blLcomp => obtain rfl := doneB_next.mp h; exact completed rfl

/-- Settles O11: what a command that sets ERR does is the fault entry. -/
theorem faultsCommitNothing : Obligations.FaultsCommitNothing := by
  intro i s t hs h ht
  obtain ⟨c, -, rfl⟩ := exec_err_cause hs h ht
  exact ⟨takeFault_entry s c, rfl⟩

/-- A step of the workers that sets ERR took BUS_ERROR at the join (45_render.md R248). -/
theorem workerStep_err_code (hs : s.status.err = false) (h : workerStep r s = .next t) (ht : t.status.err = true) :
    t.status.errcode = causeCode .busError := by
  obtain ⟨u, hu, hend⟩ := workerStep_ends h
  have hclean : u.status.err = false := hu.status ▸ hs
  obtain rfl | ⟨-, x, rfl | rfl⟩ := hend
  · exact absurd (ht.symm.trans hclean) Bool.noConfusion
  · exact absurd (ht.symm.trans hclean) Bool.noConfusion
  · rfl

/-- Settles O12: the codes are those of the command's causes. -/
theorem whichCommandsFault : Obligations.WhichCommandsFault := by
  refine ⟨fun i s t hw hs h ht => ?_, fun r s t => workerStep_err_code⟩
  obtain ⟨c, hc, rfl⟩ := exec_err_cause hs h ht
  have access : ∀ c ∈ [Cause.misaligned, .busError], causeCode c = 4#4 ∨ causeCode c = 5#4 := by decide
  have sample : ∀ c ∈ [Cause.badConfig, .misaligned, .busError],
      causeCode c = 6#4 ∨ causeCode c = 4#4 ∨ causeCode c = 5#4 := by decide
  have fork : ∀ c ∈ [Cause.badConfig, .misaligned], causeCode c = 6#4 ∨ causeCode c = 4#4 := by decide
  cases i with
  | ldW fd fa => exact .inl ⟨fd, fa, rfl, access c hc⟩
  | pxOrw fv fa => exact .inr (.inl ⟨fv, fa, rfl, access c hc⟩)
  | pxSample fd zs => exact .inr (.inr (.inl ⟨fd, zs, rfl, sample c hc⟩))
  | render b => exact .inr (.inr (.inr ⟨b, rfl, fork c hc⟩))
  | csrw d fs =>
    have writable : d.writable = true := hw
    simp [executeCauses, writable] at hc
  | _ => cases hc

end Sys2Proof.Machine
end

section
/-! PROOFS. A write of the host to the window, in a run and outside it: which offset is CTRL, what a write to CTRL does
(60_exceptions.md R295), and that a running block ignores every other one (R296). -/

namespace Sys2Proof.Machine

variable {s : State} {rest : List HostOp} {a w : Word} {o : Nat}

/-- The offset of a CSR reaches it, and no other aligned one does (10_state.md R27). -/
theorem mmioTarget_eq_csr_iff (h4 : o % 4 = 0) (c : Csr) :
    mmioTarget o = .csr c ↔ o = 4 * (csrNumber c).toNat := by
  refine ⟨fun h => ?_, fun h => h ▸ mmioTarget_csr c⟩
  have hlow : o < 0x100 := by
    by_contra hc
    rw [mmioTarget, if_neg hc] at h
    split_ifs at h
  rw [mmioTarget, if_pos hlow] at h
  split at h <;> cases h
  rename_i hc
  rw [csrNumber_of_csrOfNumber hc, BitVec.toNat_ofNat]
  omega

theorem step_mmioWrite (hi : s.inbox = .mmioWrite a w :: rest) (ho : (a - s.platform.mmioBase).toNat < 1024)
    (h4 : (a - s.platform.mmioBase).toNat % 4 = 0) :
    step s = .next (mmioWrite { s with inbox := rest } w (mmioTarget (a - s.platform.mmioBase).toNat)) :=
  (step_host hi nofun).trans (mmioAccess_aligned (s := { s with inbox := rest }) _ ho h4)

/-! ## CTRL (R295) -/

theorem start_ignored (h : s.status.busy = true ∨ s.status.err = true) : s.start = s := by
  rw [← Bool.or_eq_true] at h
  exact if_pos h

theorem start_begins (hb : s.status.busy = false) (he : s.status.err = false) : s.start =
    { s with status := { s.status with done := false, busy := true }, run := .fresh s.pc } := by
  simp [State.start, hb, he]

theorem writeCtrl_ignored (h : w.getLsbD 0 = false ∨ s.status.busy = true ∨ s.status.err = true) :
    writeCtrl s w = { s with ie := w.getLsbD 1 } := by
  unfold writeCtrl
  split
  · rename_i hw
    exact start_ignored (h.resolve_left (by simp [hw]))
  · rfl

theorem writeCtrl_begins (hw : w.getLsbD 0 = true) (hb : s.status.busy = false) (he : s.status.err = false) :
    writeCtrl s w = { s with
      ie := w.getLsbD 1, status := { s.status with done := false, busy := true }, run := .fresh s.pc } :=
  (if_pos hw).trans (start_begins (s := { s with ie := w.getLsbD 1 }) hb he)

/-- A write to CTRL is one at offset 0, whether the block is idle or running. -/
theorem step_writeCtrl (hi : s.inbox = .mmioWrite s.platform.mmioBase w :: rest) :
    step s = .next (writeCtrl { s with inbox := rest } w) := by
  have base : (s.platform.mmioBase - s.platform.mmioBase).toNat = 0 := by rw [BitVec.sub_self]; rfl
  rw [step_mmioWrite hi (by omega) (by omega), base, show mmioTarget 0 = .csr .ctrl from rfl]
  unfold mmioWrite
  split <;> rfl

/-- Settles O57: either START is ignored, or a run begins at CMD_PC. -/
theorem hostStart : Obligations.HostStart := by
  intro s w rest hi
  refine ⟨_, step_writeCtrl hi, ?_⟩
  by_cases h : w.getLsbD 0 = true ∧ s.status.busy = false ∧ s.status.err = false
  · obtain ⟨hw, hb, he⟩ := h
    rw [writeCtrl_begins (s := { s with inbox := rest }) hw hb he]
    exact ⟨rfl, rfl, fun _ => rfl, by simp [hw, hb, he], rfl,
      ⟨fun _ => rfl, fun _ => rfl, fun _ => rfl, fun _ => rfl⟩, rfl, rfl, rfl⟩
  · have ignored : w.getLsbD 0 = false ∨ s.status.busy = true ∨ s.status.err = true := by
      simpa only [not_and_or, Bool.not_eq_true, Bool.not_eq_false] using h
    rw [writeCtrl_ignored (s := { s with inbox := rest }) ignored]
    exact ⟨rfl, rfl, fun hc => absurd hc h, fun _ => rfl, rfl,
      ⟨fun _ => rfl, fun _ => rfl, fun _ => rfl, fun _ => rfl⟩, rfl, rfl, rfl⟩

/-! ## Writes in a run (R296) -/

theorem mmioWrite_busy_ignored (hb : s.status.busy = true) {x : MmioTarget} (hx : x ≠ .csr .ctrl) :
    mmioWrite s w x = s := by
  rw [mmioWrite, if_pos hb, if_neg hx]

/-- Settles O59: an aligned offset other than 0 is not CTRL's, and at CTRL's the START bit is ignored. -/
theorem hostWritesWhileBusyAreIgnored : Obligations.HostWritesWhileBusyAreIgnored := by
  refine fun s a w rest hi hb ho h4 => ⟨?_, fun ha => ?_⟩
  · rintro rfl
    rw [step_writeCtrl hi, writeCtrl_ignored (s := { s with inbox := rest }) (.inr (.inl hb))]
  · have notCtrl : mmioTarget (a - s.platform.mmioBase).toNat ≠ .csr .ctrl := by
      rw [Ne, mmioTarget_eq_csr_iff h4]
      intro (h0 : (a - s.platform.mmioBase).toNat = 0)
      exact ha (by bv_omega)
    rw [step_mmioWrite hi ho h4, mmioWrite_busy_ignored (s := { s with inbox := rest }) hb notCtrl]

end Sys2Proof.Machine
end

section
/-! PROOFS. The command pointer: the faults of a fetch (60_exceptions.md R284), and that a step moves `pc` by 4 or not
at all, but for a reset and a write of the host to CMD_PC (46_system.md R266, 10_state.md R25, R45). -/

namespace Sys2Proof.Machine

variable {s t : State} {final : State → RunLog}

/-! ## The faults of a fetch (R284) -/

/-- The fetch takes the fault of the access at `pc`. -/
theorem stepFaults_of_fetchCheck {c : Cause} (hi : s.inbox = []) (hb : s.status.busy = true) (hr : s.rendering = none)
    (hc : accessCheck s s.pc = some c) : StepFaults s (causeCode c) := by
  refine ⟨s.takeFault c, ?_, takeFault_entry s c⟩
  rw [step_block hi]
  simp only [blockMove, hb, hr, if_true, runCommand, hc, faulted]

/-! ## How the block's move changes `pc` (R266) -/

/-- `pc` stays, or moves on to the next word. -/
def PcStaysOrAdvances (s t : State) : Prop := t.pc = s.pc ∨ t.pc = s.pc + 4#32

theorem RecordOnly.pc_eq (h : RecordOnly s t) : t.pc = s.pc := by
  obtain ⟨m, l, n, rfl⟩ := h; rfl

theorem raceResult_pc (i : Instr) (s t : State) : (raceResult i s t).pc = t.pc := by
  obtain e | ⟨_, _, -, e⟩ | ⟨_, -, e⟩ := raceResult_cases i s t <;> rw [e]
  rfl

theorem exec_pc {i : Instr} (h : exec i s = .next t) : PcStaysOrAdvances s t := by
  obtain ⟨e, -⟩ | ⟨e, -⟩ | ⟨-, e, -⟩ := (exec_effect h).pc_cases
  · exact .inr e
  · exact .inl e
  · exact .inl e

theorem workerStep_pc {r : Rendering} (h : workerStep r s = .next t) : PcStaysOrAdvances s t := by
  obtain ⟨e, -⟩ | ⟨e, -⟩ | ⟨e, -⟩ := workerStep_pc_cases h
  · exact .inl e
  · exact .inr e
  · exact .inl e

theorem runInstr_pc {i : Instr} (h : runInstr final i s = .next t) : PcStaysOrAdvances s t := by
  unfold runInstr at h
  split at h <;> cases h
  rename_i u hu
  have move := exec_pc hu
  rwa [PcStaysOrAdvances, (noteCommand_record final i s).pc_eq, ← raceResult_pc i (noteCommand final i s) u] at move

theorem runWord_pc (h : runWord final s = .next t) : PcStaysOrAdvances s t := by
  unfold runWord at h
  split at h
  · obtain rfl := faulted_next.mp h; exact .inl rfl
  · exact runInstr_pc h

theorem runCommand_pc (h : runCommand final s = .next t) : PcStaysOrAdvances s t := by
  unfold runCommand at h
  split at h
  · obtain rfl := faulted_next.mp h; exact .inl rfl
  · have move := runWord_pc h
    rwa [PcStaysOrAdvances, (noteFetch_record s).pc_eq] at move

theorem blockMove_pc (h : blockMove final s = .next t) : PcStaysOrAdvances s t := by
  unfold blockMove at h
  split at h
  · split at h
    · exact workerStep_pc h
    · exact runCommand_pc h
  · cases h; exact .inl rfl

theorem PcStaysOrAdvances.onWord (h : PcStaysOrAdvances s t) (hs : s.pc.toNat % 4 = 0) : t.pc.toNat % 4 = 0 := by
  obtain e | e := h <;> rw [e]
  · exact hs
  · rw [BitVec.toNat_add, BitVec.toNat_ofNat]; omega

/-! ## How the host's move changes `pc` -/

theorem start_pc (s : State) : s.start.pc = s.pc := by
  unfold State.start
  split <;> rfl

theorem writeCtrl_pc (s : State) (w : Word) : (writeCtrl s w).pc = s.pc := by
  unfold writeCtrl
  split
  · exact start_pc { s with ie := w.getLsbD 1 }
  · rfl

theorem mmioWriteIdle_pc (s : State) (w : Word) {x : MmioTarget} (hx : x ≠ .csr .cmdPc) :
    (mmioWriteIdle s w x).pc = s.pc := by
  cases x with
  | csr c =>
    cases c with
    | ctrl => exact writeCtrl_pc s w
    | cmdPc => exact absurd rfl hx
    | _ => rfl
  | _ => rfl

theorem mmioWrite_pc (s : State) (w : Word) {x : MmioTarget} (hx : x ≠ .csr .cmdPc) :
    (mmioWrite s w x).pc = s.pc := by
  unfold mmioWrite
  split
  · split
    · exact writeCtrl_pc s w
    · rfl
  · exact mmioWriteIdle_pc s w hx

/-- An access of the window reaches the target of its aligned offset, or does nothing (60_exceptions.md R293). -/
theorem mmioAccess_target {a : Word} {k : MmioTarget → State} (h : mmioAccess s a k = .next t) :
    t = s ∨ (a - s.platform.mmioBase).toNat % 4 = 0 ∧ t = k (mmioTarget (a - s.platform.mmioBase).toNat) := by
  by_cases ho : (a - s.platform.mmioBase).toNat < 1024
  · by_cases h4 : (a - s.platform.mmioBase).toNat % 4 = 0
    · cases (mmioAccess_aligned k ho h4).symm.trans h; exact .inr ⟨h4, rfl⟩
    · simp only [mmioAccess, mmioOffset, if_pos ho, if_neg h4] at h
      cases h
  · simp only [mmioAccess, mmioOffset, if_neg ho] at h
    cases h; exact .inl rfl

/-- A write of the window changes `pc` at CMD_PC's address alone. -/
theorem mmioAccess_write_pc {a w : Word} (ha : a ≠ s.platform.mmioBase + 0x00C#32)
    (h : mmioAccess s a (mmioWrite s w) = .next t) : t.pc = s.pc := by
  obtain rfl | ⟨h4, rfl⟩ := mmioAccess_target h
  · rfl
  · refine mmioWrite_pc s w fun hx => ha ?_
    have hoff : (a - s.platform.mmioBase).toNat = 0x00C := (mmioTarget_eq_csr_iff h4 .cmdPc).mp hx
    bv_omega

theorem hostRead_pc (s : State) (a : Word) : (hostRead s a).pc = s.pc := by
  unfold hostRead
  split <;> rfl

theorem hostWrite_pc (s : State) (a : Word) (v : Byte) : (hostWrite s final a v).pc = s.pc := by
  unfold hostWrite
  split
  · obtain ⟨f, m, l, n, e⟩ := raceWrite_record s final a v
    rw [e]
  · rfl

theorem hostReset_pc (s : State) : (hostReset s).pc = 0#32 := by
  obtain ⟨u, e⟩ := hostReset_afterReset s
  rw [e]; rfl

/-- No operation of the host moves `pc` but a reset, which clears it, and a write to CMD_PC. -/
theorem hostMove_pc {op : HostOp} (hop : ∀ a w, op = .mmioWrite a w → a ≠ s.platform.mmioBase + 0x00C#32)
    (h : hostMove op final s = .next t) : t.pc = s.pc ∨ t.pc = 0#32 := by
  cases op with
  | wait => cases h; exact .inl rfl
  | mmioRead a =>
    obtain rfl | ⟨x, rfl⟩ := mmioAccess_next (k := fun x => { s with hostData := mmioValue s x }) h
    · exact .inl rfl
    · exact .inl rfl
  | mmioWrite a w => exact .inl (mmioAccess_write_pc (hop a w rfl) h)
  | memRead a => cases h; exact .inl (hostRead_pc s a)
  | memWrite a v => cases h; exact .inl (hostWrite_pc s a v)
  | reset => cases h; exact .inr (hostReset_pc s)

/-- Derived from R266: from a word address, every step but one with a host write to CMD_PC leads to a word address. -/
theorem step_keeps_pc_onWord
    (hop : ∀ a w, s.inbox.head? = some (.mmioWrite a w) → a ≠ s.platform.mmioBase + 0x00C#32)
    (hs : s.pc.toNat % 4 = 0) (h : step s = .next t) : t.pc.toNat % 4 = 0 := by
  cases hi : s.inbox with
  | nil => exact (blockMove_pc (step_block hi ▸ h)).onWord hs
  | cons op rest =>
    by_cases hw : op = .wait
    · exact (blockMove_pc (s := { s with inbox := rest }) (step_wait (hw ▸ hi) ▸ h)).onWord hs
    · obtain e | e := hostMove_pc (s := { s with inbox := rest })
        (fun a w e => hop a w (by rw [hi, e]; rfl)) (step_host hi hw ▸ h)
      · rw [e]; exact hs
      · rw [e]; rfl

/-- Settles O8: the check of the fetch is that of any access, at `pc`, and no step but a host's write to CMD_PC
misaligns `pc`. -/
theorem fetchFaults : Obligations.FetchFaults := by
  refine ⟨fun s hi hb hr => ⟨fun h4 => ?_, fun h4 hm => ?_⟩, fun s t => step_keeps_pc_onWord⟩
  · have off : aligned s.pc = false := Bool.eq_false_iff.mpr (h4 ∘ (aligned_iff _).mp)
    exact stepFaults_of_fetchCheck hi hb hr (accessCheck_misaligned off)
  · exact stepFaults_of_fetchCheck hi hb hr (accessCheck_busError ((aligned_iff _).mpr h4) hm)

end Sys2Proof.Machine
end
